-- ==== Sys2Proof/Word.lean ====
section
/-! DEFINITION. The two word types of HEXLINK: a byte and a 32-bit register word (R9, R23). -/

namespace Sys2Proof

/-- A byte, 8 bits, unsigned (R9). -/
abbrev Byte := BitVec 8

/-- A register word, 32 bits (R23). -/
abbrev Word := BitVec 32

end Sys2Proof
end

