-- ==== Sys2Proof/Config.lean ====
section
/-! DEFINITION. What is fixed for a machine: the fixed parameters of R7, the open parameters of R8, and
the free values the spec leaves open. -/

namespace Sys2Proof

/-- The open parameters of R8 that no register holds: buffer capacities, each at least 1 (D35 OPEN).
They stand in State and no step writes them, so a statement about every state is one about every
value of them (log 3). -/
structure Params where
  /-- bytes of the source buffer SRC -/
  srcCap : Nat
  /-- bytes of the packet buffer PKT -/
  maxPacketLen : Nat
  /-- bytes of the response buffer RXBUF -/
  maxRxLen : Nat
  deriving DecidableEq, Repr

/-- R8: each capacity is at least 1. -/
def Params.ok (p : Params) : Bool :=
  decide (1 ≤ p.srcCap) && decide (1 ≤ p.maxPacketLen) && decide (1 ≤ p.maxRxLen)

namespace Config

/-! ### Fixed parameters (R7) -/

/-- `B`: program block size in bytes. -/
def blockSize : Nat := 32

/-- `MAX_REC_DATA`: most data bytes one record may carry. -/
def maxRecData : Nat := 64

/-- `SEG_PAYLOAD`: most packet bytes one report carries. -/
def segPayload : Nat := 56

/-- `REPORT_SIZE`: bytes of a transport report. -/
def reportSize : Nat := 65

/-- `NOP`: the gap filler byte. -/
def nopByte : Byte := 0x00

/-- `ESA_MIN`: least accepted extended-segment value. -/
def esaMin : Word := 0x1000

/-- `ESA_MAX`: greatest accepted extended-segment value. -/
def esaMax : Word := 0xF000

/-- The parameters State.reset carries: the test values 95_test_vectors.md names.
DESIGN CHOICE (log 3): the device values are open (D35). -/
def resetParams : Params := { srcCap := 4096, maxPacketLen := 256, maxRxLen := 256 }

/-! ### Free values: no body, so nothing constrains them -/

/-- The `n`-th value drawn for a register read the host may not use yet (R72, R295; log 5, 28). -/
opaque freeWord : Nat → Word

/-- The `n`-th value drawn for an array byte the host may not use yet (R72, R295; log 5, 28). -/
opaque freeByte : Nat → Byte

/-- The `n`-th content drawn for SRC or PKT, which `rst` leaves unspecified (R290; log 4). -/
opaque freeBytes : Nat → List Byte

end Config

end Sys2Proof
end

