-- ==== Sys2Proof/Syntax.lean ====
section
/-! DEFINITION. The instructions of HEXLINK: one constructor for each row of spec/opcode_table.json,
over its three opcode spaces (R2): host commands, HEX record types, and report markers. -/

namespace Sys2Proof

/-- The fields of a HEX record besides its type (R80). LL is the number of data bytes (log 25). -/
structure Rec where
  /-- AH, line address, high byte -/
  ah : Byte
  /-- AL, line address, low byte -/
  al : Byte
  /-- d[0] … d[LL-1] -/
  data : List Byte
  /-- CC, the checksum byte as read -/
  cc : Byte
  deriving DecidableEq, Repr

/-- The record types of R82, 0x00 to 0x05 in this order. -/
inductive RecordType where
  | data | eof | esa | ssa | ela | sla
  deriving DecidableEq, Repr

/-- An instruction of HEXLINK. -/
inductive Instr where
  /-- NOP, CMD word 0x0 (R242) -/
  | nop
  /-- READ_RECORD, CMD word 0x1 (R139) -/
  | readRecord
  /-- VALIDATE, CMD word 0x2 (R161) -/
  | validate
  /-- START_ASSEMBLY, CMD word 0x3 (R181) -/
  | startAssembly
  /-- NEXT_BLOCK, CMD word 0x4 (R182) -/
  | nextBlock
  /-- FRAME, CMD word 0x5 (R211) -/
  | frame
  /-- UNFRAME, CMD word 0x6 (R221) -/
  | unframe
  /-- REWIND, CMD word 0x7 (R243) -/
  | rewind
  /-- CLEAR_ERROR, CMD word 0x8 (R244) -/
  | clearError
  /-- SOFT_RESET, CMD word 0xF (R245) -/
  | softReset
  /-- DATA record, TT = 0x00 (R132) -/
  | data (r : Rec)
  /-- EOF record, TT = 0x01 (R133) -/
  | eof (r : Rec)
  /-- Extended segment address record, TT = 0x02 (R134, R137) -/
  | esa (r : Rec)
  /-- Start segment address record, TT = 0x03 (R135) -/
  | ssa (r : Rec)
  /-- Extended linear address record, TT = 0x04 (R136, R137) -/
  | ela (r : Rec)
  /-- Start linear address record, TT = 0x05 (R138) -/
  | sla (r : Rec)
  /-- SEG_SINGLE: the packet length L and its bytes (R214) -/
  | segSingle (len : Word) (chunk : List Byte)
  /-- SEG_FIRST: the packet length L and the packet's first 56 bytes (R215) -/
  | segFirst (len : Word) (chunk : List Byte)
  /-- SEG_MIDDLE: 56 packet bytes (R216) -/
  | segMiddle (chunk : List Byte)
  /-- SEG_LAST: the packet's last 1 to 56 bytes (R217) -/
  | segLast (chunk : List Byte)
  /-- RX_CONTINUE: the 56-byte data window and the error-flag byte (R224) -/
  | rxContinue (window : List Byte) (flag : Byte)
  deriving DecidableEq, Repr

/-- The four outbound marker values of PROFILE0 and the inbound tag of PROFILE1 (R28, R89). -/
structure Markers where
  single : Byte
  first : Byte
  middle : Byte
  last : Byte
  cont : Byte
  deriving DecidableEq, Repr

end Sys2Proof
end

