-- ==== Sys2Proof/Machine/State.lean ====
section
/-! DEFINITION. The state of HEXLINK (10_state.md) as plain data, its value after reset (R290), and the
reasons a step can stop. Registers stand in groups; a field holds a register's significant bits, and
reserved bits, which read 0 and ignore writes (R39), have no storage. -/

namespace Sys2Proof.Machine

/-- The content of a byte array: (index, byte) cells, indices strictly rising, no byte equal to what
an unlisted index reads as (Ops.lean, `Mem.unlisted`). -/
abbrev Mem := List Host.Cell

/-- The fields of STATUS (R25). -/
structure Status where
  busy : Bool := false
  err : Bool := false
  cmdDropped : Bool := false
  validated : Bool := false
  asmActive : Bool := false
  asmDone : Bool := false
  blkValid : Bool := false
  txWait : Bool := false
  rxWait : Bool := false
  xferDone : Bool := false
  recKind : BitVec 2 := 0
  lastCmd : BitVec 4 := 0
  deriving DecidableEq, Repr

/-- The configuration registers, which the host writes (R26 to R29). -/
structure ConfigRegs where
  /-- MODE bit 0, ADDR_MODE: 0 is variant A, 1 is variant B (R26) -/
  addrMode : BitVec 1 := 0
  appStart : Word := 0
  blEnd : Word := 0
  profile0 : Word := 0
  /-- PROFILE1[7:0], OP_CONTINUE (R28) -/
  opContinue : Byte := 0
  srcLen : Word := 0
  pktLen : Word := 0
  deriving DecidableEq, Repr

/-- The Record Reader's registers (R22, R30, R31). -/
structure ReaderRegs where
  cursor : Word := 0
  segBase : Word := 0
  linBase : Word := 0
  lines : Word := 0
  deriving DecidableEq, Repr

/-- The error registers (R32). -/
structure ErrRegs where
  code : Byte := 0
  line : Word := 0
  offset : Word := 0
  addr : Word := 0
  /-- ERR_CKS[7:0] -/
  expected : Byte := 0
  /-- ERR_CKS[15:8] -/
  actual : Byte := 0
  deriving DecidableEq, Repr

/-- READ_RECORD's results (R33). -/
structure RecordRegs where
  addr : Word := 0
  /-- REC_INFO[7:0] -/
  len : Byte := 0
  /-- REC_INFO[15:8] -/
  type : Byte := 0
  /-- REC_INFO[23:16] -/
  cks : Byte := 0
  /-- array REC_DATA, 64 bytes -/
  data : Mem := []
  deriving DecidableEq, Repr

/-- VALIDATE's results (R34). -/
structure ValidatorRegs where
  lines : Word := 0
  endAddr : Word := 0
  endCount : Byte := 0
  xferSize : Word := 0
  deriving DecidableEq, Repr

/-- The Block Assembler's state (R35, R41, R42). -/
structure AssemblerRegs where
  /-- currentBlockStart, 33 bits: ASM_CBS and CBS_TOP -/
  cbs : BitVec 33 := 0
  /-- the write cursor P -/
  p : BitVec 6 := 0
  pendValid : Bool := false
  pendLen : BitVec 7 := 0
  pendAddr : Word := 0
  /-- hidden array ASM_BUF, 32 bytes -/
  buf : Mem := []
  /-- hidden array PEND_DATA, 64 bytes -/
  pendData : Mem := []
  deriving DecidableEq, Repr

/-- The block output (R36). -/
structure BlockRegs where
  start : Word := 0
  count : BitVec 6 := 0
  index : Word := 0
  /-- array BLK_DATA, 32 bytes -/
  data : Mem := []
  deriving DecidableEq, Repr

/-- The framer's registers (R37). FR_PHASE is a view of TX_WAIT (R44; log 9). -/
structure FramerRegs where
  segIndex : Word := 0
  segTotal : Word := 0
  /-- array TXR, 65 bytes -/
  txr : Mem := []
  deriving DecidableEq, Repr

/-- The reassembler's registers (R38, R44). -/
structure ReassemblerRegs where
  len : Word := 0
  count : Word := 0
  /-- hidden UNF_INDEX; its width is not given (log 20) -/
  unfIndex : Nat := 0
  /-- array RXR, 65 bytes -/
  rxr : Mem := []
  /-- array RXBUF, MAX_RX_LEN bytes -/
  rxbuf : Mem := []
  deriving DecidableEq, Repr

/-- The transport's answers to a report on TX (R48). -/
inductive TxResponse where
  | done | failed | timeout | garbled
  deriving DecidableEq, Repr

/-- What the transport delivers on RX (R48). A report is 65 bytes; a list of another length stands for
its first 65 bytes, absent ones being 0 (log 18). -/
inductive RxDelivery where
  | report (bytes : List Byte)
  | timeout
  deriving DecidableEq, Repr

/-- The arrays of the host port (R40). -/
inductive ArrayName where
  | src | pkt | recData | blkData | txr | rxr | rxbuf
  deriving DecidableEq, Repr

/-- The arrays the host may write (R47). -/
inductive HostData where
  | src | pkt
  deriving DecidableEq, Repr

/-- One atomic action (R240), or the reset input (R49). -/
inductive Action where
  /-- the host reads a register slot -/
  | read (idx : BitVec 6)
  /-- the host writes a register slot -/
  | write (idx : BitVec 6) (v : Word)
  /-- the host reads a byte of an array -/
  | readb (a : ArrayName) (i : Nat)
  /-- the host writes a byte of SRC or PKT -/
  | writeb (a : HostData) (i : Nat) (b : Byte)
  /-- the transport answers the report on TX -/
  | tx (r : TxResponse)
  /-- the transport delivers on RX -/
  | rx (d : RxDelivery)
  /-- HEXLINK takes one step, if one is enabled -/
  | hexlink
  /-- the reset input -/
  | rst
  deriving DecidableEq, Repr

/-- What `read_next` hands to the command that called it (R120, R160); `idle` between steps. -/
inductive ReadResult where
  | idle
  /-- a data record: resolved address, offset of its `:`, data bytes, checksum -/
  | data (addr start : Word) (bytes : List Byte) (cks : Byte)
  /-- an end-of-file marker: resolved address, offset, type 0x00 or 0x01, checksum -/
  | eof (addr start : Word) (type cks : Byte)
  | endOfStream
  /-- an error was raised; the command is aborted -/
  | raised
  deriving DecidableEq, Repr

/-- The state of the machine. `params` never changes; the last five fields are the model's own, not
the spec's (log 1, 5, 6, 7, 28). -/
structure State where
  params : Params
  cfg : ConfigRegs := {}
  status : Status := {}
  rdr : ReaderRegs := {}
  err : ErrRegs := {}
  recOut : RecordRegs := {}
  valOut : ValidatorRegs := {}
  asm : AssemblerRegs := {}
  blkOut : BlockRegs := {}
  frm : FramerRegs := {}
  rx : ReassemblerRegs := {}
  /-- array SRC, SRC_CAP bytes -/
  src : Mem := []
  /-- array PKT, MAX_PACKET_LEN bytes -/
  pkt : Mem := []
  /-- hidden PENDING_CMD (R45) -/
  pendingCmd : BitVec 4 := 0
  /-- the response a TX action recorded, with which the next step resumes FRAME (R240; log 8) -/
  txIn : Option TxResponse := none
  /-- the delivery an RX action recorded, with which the next step resumes UNFRAME (R240; log 8) -/
  rxIn : Option RxDelivery := none
  /-- what `read_next` returned (log 7) -/
  ret : ReadResult := .idle
  /-- the environment's coming actions, oldest first (log 1) -/
  actions : List Action := []
  /-- the word the host port returned at its last read (log 6) -/
  portOut : Word := 0
  /-- how many free values have been drawn (log 5) -/
  draws : Nat := 0
  /-- the OPCs of the commands written since a read of STATUS last returned BUSY = 0, each once: the
  commands whose results R295 still keeps from the host (log 28) -/
  unseen : List (BitVec 4) := []
  deriving DecidableEq, Repr

/-- The machine right after reset: every field at the value of R290, with the parameters of log 3 and
SRC and PKT, which R290 leaves unspecified, listing nothing (log 4). -/
def State.reset : State := { params := Config.resetParams }

/-- The reason a step stops. -/
inductive Fault where
  /-- The command unit raises it: BUSY = 1 and PENDING_CMD names no command that runs in steps, a
  state the spec gives no effect in (R45, R241) and no run reaches. Safe (log 16). -/
  | noPendingCommand
  deriving DecidableEq, Repr

/-- The reason an instruction has no meaning. -/
inductive Refusal where
  /-- Raised by exec's arm of an instruction that has no meaning yet. Safe. -/
  | notModelled (mnemonic : String)
  deriving DecidableEq, Repr

end Sys2Proof.Machine
end

