-- ==== Sys2Proof/Machine/Ops.lean ====
section
/-! DEFINITION. The operations over arrays and registers that every unit shares: reading and writing
bytes, taking an error (R265), which is HEXLINK's exception entry, and completing a command (R241).
There is no return from an error (R269): CLEAR_ERROR is a command of its own. -/

namespace Sys2Proof.Machine

/-! ### Byte arrays -/

/-- What an array index that is not listed reads as: the reset value 0 of R40 and R290 (log 4). -/
def Mem.unlisted : Byte := 0x00

/-- The byte at index `i`. -/
def Mem.read (m : Mem) (i : Nat) : Byte :=
  match m with
  | [] => Mem.unlisted
  | (a, b) :: rest => if i = a then b else Mem.read rest i

/-- `ARR[i] <- b`, keeping the canonical form. -/
def Mem.write (m : Mem) (i : Nat) (b : Byte) : Mem :=
  match m with
  | [] => if b = Mem.unlisted then [] else [(i, b)]
  | (a, c) :: rest =>
    if i < a then if b = Mem.unlisted then (a, c) :: rest else (i, b) :: (a, c) :: rest
    else if i = a then if b = Mem.unlisted then rest else (i, b) :: rest
    else (a, c) :: Mem.write rest i b

/-- `ARR[i..i+|bs|) <- bs` (R10, MemWrite). -/
def Mem.writeBytes (m : Mem) (i : Nat) (bs : List Byte) : Mem :=
  match bs with
  | [] => m
  | b :: rest => Mem.writeBytes (Mem.write m i b) (i + 1) rest

/-- `ARR[i..i+n)` (R10, MemRead). -/
def Mem.slice (m : Mem) (i n : Nat) : List Byte :=
  match n with
  | 0 => []
  | n + 1 => Mem.read m i :: Mem.slice m (i + 1) n

/-- The cells of the bytes `bs` from index `i` on. -/
def Mem.cells (i : Nat) (bs : List Byte) : Mem :=
  match bs with
  | [] => []
  | b :: rest => if b = Mem.unlisted then Mem.cells (i + 1) rest else (i, b) :: Mem.cells (i + 1) rest

/-- The array that holds `bs` from index 0 and 0 beyond. -/
def Mem.ofBytes (bs : List Byte) : Mem := Mem.cells 0 bs

/-- The canonical form: indices strictly rising, at least `lo`, no cell holding the unlisted byte. -/
def Mem.canonicalFrom (lo : Nat) (m : Mem) : Bool :=
  match m with
  | [] => true
  | (a, b) :: rest => decide (lo ≤ a) && b != Mem.unlisted && Mem.canonicalFrom (a + 1) rest

/-- The canonical form of an array's content. -/
def Mem.wf (m : Mem) : Bool := Mem.canonicalFrom 0 m

/-- Every listed index is below `n`. -/
def Mem.within (n : Nat) (m : Mem) : Bool :=
  match m with
  | [] => true
  | (a, _) :: rest => decide (a < n) && Mem.within n rest

/-! ### Errors -/

/-- The error kinds of R260. -/
inductive ErrKind where
  | syntaxError | checksumError | unknownRecordType | recordLengthError | segmentRangeError
  | invalidStartAddress | protectedAddressViolation | noEndOfFile | addressOrderError
  | segmentRejected | transportTimeout | transportFailure | robotNoResponse
  | configError | sequenceError | illegalCommand | packetLengthError
  deriving DecidableEq, Repr

/-- The code of an error kind, ERR_CODE[7:0] (R260). -/
def ErrKind.code (k : ErrKind) : Byte :=
  match k with
  | .syntaxError => 0x01
  | .checksumError => 0x02
  | .unknownRecordType => 0x03
  | .recordLengthError => 0x04
  | .segmentRangeError => 0x05
  | .invalidStartAddress => 0x06
  | .protectedAddressViolation => 0x07
  | .noEndOfFile => 0x08
  | .addressOrderError => 0x09
  | .segmentRejected => 0x0A
  | .transportTimeout => 0x0B
  | .transportFailure => 0x0C
  | .robotNoResponse => 0x0D
  | .configError => 0x0E
  | .sequenceError => 0x0F
  | .illegalCommand => 0x10
  | .packetLengthError => 0x11

/-- The context of an error; what is not given is 0 (R260, R265). -/
structure ErrInfo where
  line : Word := 0
  offset : Word := 0
  addr : Word := 0
  expected : Byte := 0
  actual : Byte := 0
  deriving DecidableEq, Repr

/-- `raise E(info)`: the error entry of R265. The command is aborted; nothing else changes. -/
def State.raise (k : ErrKind) (info : ErrInfo) (s : State) : State :=
  { s with
    status := { s.status with
      err := true, asmActive := false, asmDone := false,
      txWait := false, rxWait := false, busy := false }
    err := { code := k.code, line := info.line, offset := info.offset, addr := info.addr,
             expected := info.expected, actual := info.actual } }

/-- `complete`: BUSY <- 0 (R241). -/
def State.complete (s : State) : State := { s with status := { s.status with busy := false } }

/-- The Record Reader's per-run reset (R292). -/
def State.resetReader (s : State) : State := { s with rdr := {} }

/-- How a loop pass or a report left its command: ended (completed or aborted) or still going. -/
inductive Pass where
  | done (s : State)
  | more (s : State)
  deriving DecidableEq, Repr

/-- The state a pass left. -/
def Pass.state (p : Pass) : State :=
  match p with
  | .done s => s
  | .more s => s

end Sys2Proof.Machine
end

