-- ==== Sys2Proof/Machine/Flags.lean ====
section
/-! DEFINITION. The flags of HEXLINK (R46): STATUS and ASM_STATE as the words the host reads, and the
flag updates several rules share. -/

namespace Sys2Proof.Machine

/-- A flag as a word with bit `n`. -/
def flagBit (b : Bool) (n : Nat) : Word := if b then 1#32 <<< n else 0

/-- STATUS as a word (R25). -/
def Status.word (st : Status) : Word :=
  flagBit st.busy 0 ||| flagBit st.err 1 ||| flagBit st.cmdDropped 2 ||| flagBit st.validated 3 |||
  flagBit st.asmActive 4 ||| flagBit st.asmDone 5 ||| flagBit st.blkValid 6 |||
  flagBit st.txWait 7 ||| flagBit st.rxWait 8 ||| flagBit st.xferDone 9 |||
  st.recKind.setWidth 32 <<< 10 ||| st.lastCmd.setWidth 32 <<< 12

/-- ASM_STATE as a word: P, PEND_VALID, PEND_LEN and CBS_TOP (R35). -/
def AssemblerRegs.stateWord (a : AssemblerRegs) : Word :=
  a.p.setWidth 32 ||| flagBit a.pendValid 8 ||| a.pendLen.setWidth 32 <<< 16 |||
  flagBit (a.cbs.getLsbD 32) 24

/-- REC_INFO as a word (R33). -/
def RecordRegs.infoWord (r : RecordRegs) : Word :=
  r.len.setWidth 32 ||| r.type.setWidth 32 <<< 8 ||| r.cks.setWidth 32 <<< 16

/-- ERR_CKS as a word (R32). -/
def ErrRegs.cksWord (e : ErrRegs) : Word :=
  e.expected.setWidth 32 ||| e.actual.setWidth 32 <<< 8

/-- ASM_ACTIVE <- 0; ASM_DONE <- 0: what ends an assembly (R139, R161, R243). -/
def State.endAssembly (s : State) : State :=
  { s with status := { s.status with asmActive := false, asmDone := false } }

/-- The side effect of an invalidating write (R249). -/
def State.invalidate (s : State) : State :=
  { s with status := { s.status with validated := false, asmActive := false, asmDone := false } }

/-- A dropped command or write (R247, R248). -/
def State.drop (s : State) : State := { s with status := { s.status with cmdDropped := true } }

/-- The phases of the framer (R44). -/
inductive FrPhase where
  | idle | wait
  deriving DecidableEq, Repr

/-- FR_PHASE: "WAIT exactly when STATUS.TX_WAIT = 1" (R44; log 9). -/
def State.frPhase (s : State) : FrPhase := if s.status.txWait then .wait else .idle

end Sys2Proof.Machine
end

