-- ==== Sys2Proof/WellFormed.lean ====
section
/-! DEFINITION. Which terms of Instr an encoding stands for. Legality that the machine itself checks
(checksum, length for the type, segment range) is not asked here: such a record has an encoding and
the Record Reader rejects it by its error (R126-R128). -/

namespace Sys2Proof

/-- LL is one byte (R80). -/
def Rec.wf (r : Rec) : Bool := decide (r.data.length ≤ 255)

/-- The term stands for words of the encoding: operand sizes as R80, R87 and R88 give them. -/
def Instr.wf (i : Instr) : Bool :=
  match i with
  | .nop => true
  | .readRecord => true
  | .validate => true
  | .startAssembly => true
  | .nextBlock => true
  | .frame => true
  | .unframe => true
  | .rewind => true
  | .clearError => true
  | .softReset => true
  | .data r => r.wf
  | .eof r => r.wf
  | .esa r => r.wf
  | .ssa r => r.wf
  | .ela r => r.wf
  | .sla r => r.wf
  | .segSingle len chunk => decide (len.toNat ≤ Config.segPayload) && decide (chunk.length = len.toNat)
  | .segFirst len chunk => decide (Config.segPayload < len.toNat) && decide (chunk.length = Config.segPayload)
  | .segMiddle chunk => decide (chunk.length = Config.segPayload)
  | .segLast chunk => decide (1 ≤ chunk.length) && decide (chunk.length ≤ Config.segPayload)
  | .rxContinue window _ => decide (window.length = Config.segPayload)

end Sys2Proof
end

