-- ==== Sys2Proof/Decode.lean ====
section
/-! DEFINITION. Decoding, total on any bytes and rejecting by name, and after it the encoder written
from the same tables (30_encoding.md). The three opcode spaces have a decoder each. -/

namespace Sys2Proof

/-- Why bytes are no instruction. -/
inductive Reject where
  /-- a CMD word outside the table of R90 (the command unit raises IllegalCommand, R246) -/
  | illegalCommand
  /-- the record does not start with `:` (R121) -/
  | noColon
  /-- a byte field holds a character that is no hex digit (R122) -/
  | badHexDigit
  /-- the record is cut by the end of the source (R122) -/
  | truncated
  /-- TT is 0x06 to 0xFF (R82, R127) -/
  | unknownType (tt : Byte)
  /-- a report is not 65 bytes (R87, R88) -/
  | reportSize
  /-- byte 1 of an outbound report is none of the four markers (R89) -/
  | unknownMarker
  /-- a Single report declares more than 56 bytes (R87) -/
  | badLength
  /-- byte 1 of a continuation report is not OP_CONTINUE (R224) -/
  | notContinue
  deriving DecidableEq, Repr

/-! ### Command words (R90) -/

/-- The table of R90: a command word and its command. -/
def commandRows : List (Word × Instr) :=
  [(0x00000000, .nop), (0x00000001, .readRecord), (0x00000002, .validate),
   (0x00000003, .startAssembly), (0x00000004, .nextBlock), (0x00000005, .frame),
   (0x00000006, .unframe), (0x00000007, .rewind), (0x00000008, .clearError),
   (0x0000000F, .softReset)]

/-- R90: a command is selected by the whole word; every word not in the table is illegal. -/
def decodeCommand (w : Word) : Except Reject Instr :=
  match commandRows.find? (fun row => row.1 == w) with
  | some row => .ok row.2
  | none => .error .illegalCommand

/-! ### HEX records (R80 to R86) -/

/-- The value of a hex digit character, both cases (R81). -/
def hexVal (c : Byte) : Option Byte :=
  if 0x30 ≤ c ∧ c ≤ 0x39 then some (c - 0x30)
  else if 0x41 ≤ c ∧ c ≤ 0x46 then some (c - 0x37)
  else if 0x61 ≤ c ∧ c ≤ 0x66 then some (c - 0x57)
  else none

/-- One byte field: two hex digits, the first the high nibble (R81, R122), and what follows. -/
def hexByte (text : List Byte) : Except Reject (Byte × List Byte) :=
  match text with
  | c0 :: c1 :: rest =>
    match hexVal c0, hexVal c1 with
    | some hi, some lo => .ok (16 * hi + lo, rest)
    | _, _ => .error .badHexDigit
  | _ => .error .truncated

/-- `n` byte fields in a row, and what follows. -/
def hexBytes (n : Nat) (text : List Byte) : Except Reject (List Byte × List Byte) :=
  match n with
  | 0 => .ok ([], text)
  | n + 1 =>
    match hexByte text with
    | .error e => .error e
    | .ok (b, rest) =>
      match hexBytes n rest with
      | .error e => .error e
      | .ok (bs, rest') => .ok (b :: bs, rest')

/-- The fields of the record that starts at the head of `text` (R80): its TT and the rest.
LL is read first and says how many data bytes follow (R86). -/
def decodeFields (text : List Byte) : Except Reject (Byte × Rec) :=
  match text with
  | [] => .error .noColon
  | c :: rest =>
    if c = 0x3A then
      match hexByte rest with
      | .error e => .error e
      | .ok (ll, rest) =>
        match hexBytes (ll.toNat + 4) rest with
        | .error e => .error e
        | .ok (bs, _) =>
          .ok (bs.getD 2 0,
            { ah := bs.getD 0 0, al := bs.getD 1 0,
              data := (bs.drop 3).take ll.toNat, cc := bs.getD (ll.toNat + 3) 0 })
    else .error .noColon

/-- R82: the record type a TT byte selects; 0x06 to 0xFF select none. -/
def recordType (tt : Byte) : Option RecordType :=
  if tt = 0x00 then some .data
  else if tt = 0x01 then some .eof
  else if tt = 0x02 then some .esa
  else if tt = 0x03 then some .ssa
  else if tt = 0x04 then some .ela
  else if tt = 0x05 then some .sla
  else none

/-- The instruction a record of type `t` is. -/
def RecordType.instr (t : RecordType) (r : Rec) : Instr :=
  match t with
  | .data => .data r
  | .eof => .eof r
  | .esa => .esa r
  | .ssa => .ssa r
  | .ela => .ela r
  | .sla => .sla r

/-- The record instruction at the head of `text`. -/
def decodeRecord (text : List Byte) : Except Reject Instr :=
  match decodeFields text with
  | .error e => .error e
  | .ok (tt, r) =>
    match recordType tt with
    | some t => .ok (t.instr r)
    | none => .error (.unknownType tt)

/-! ### Reports (R87, R88) -/

/-- Four bytes, big-endian, as a word (R63). -/
def ofBe32 (b : List Byte) : Word :=
  BitVec.ofNat 32 ((((b.getD 0 0).toNat * 256 + (b.getD 1 0).toNat) * 256 + (b.getD 2 0).toNat) * 256 +
    (b.getD 3 0).toNat)

/-- An outbound report read back (R87). A Last report does not say how many of its bytes are packet
bytes; the receiver knows from the First report's length, here `remaining` (log 14). -/
def decodeOutbound (m : Markers) (remaining : Nat) (r : List Byte) : Except Reject Instr :=
  if r.length ≠ Config.reportSize then .error .reportSize
  else if r.getD 1 0 = m.single then
    if (ofBe32 (r.drop 2)).toNat ≤ Config.segPayload then
      .ok (.segSingle (ofBe32 (r.drop 2)) ((r.drop 6).take (ofBe32 (r.drop 2)).toNat))
    else .error .badLength
  else if r.getD 1 0 = m.first then
    .ok (.segFirst (ofBe32 (r.drop 2)) ((r.drop 6).take Config.segPayload))
  else if r.getD 1 0 = m.middle then .ok (.segMiddle ((r.drop 2).take Config.segPayload))
  else if r.getD 1 0 = m.last then .ok (.segLast ((r.drop 2).take (min remaining Config.segPayload)))
  else .error .unknownMarker

/-- The fields of a continuation report: byte 1 must be OP_CONTINUE; bytes 2 to 57 are the data window
and byte 58 the error flag (R88, R224). -/
def inboundFields (m : Markers) (r : List Byte) : Except Reject (List Byte × Byte) :=
  if r.length ≠ Config.reportSize then .error .reportSize
  else if r.getD 1 0 = m.cont then .ok ((r.drop 2).take Config.segPayload, r.getD 58 0)
  else .error .notContinue

/-- A continuation report as an instruction. -/
def decodeInbound (m : Markers) (r : List Byte) : Except Reject Instr :=
  match inboundFields m r with
  | .error e => .error e
  | .ok (window, flag) => .ok (.rxContinue window flag)

/-! ### The encoder -/

/-- What an instruction is encoded as, by opcode space. -/
inductive Encoding where
  /-- a CMD word (R90) -/
  | command (w : Word)
  /-- the characters of a record, from `:` to its checksum (R80) -/
  | record (text : List Byte)
  /-- an outbound report (R87) -/
  | outbound (report : List Byte)
  /-- an inbound continuation report (R88) -/
  | inbound (report : List Byte)
  deriving DecidableEq, Repr

/-- The upper-case hex digit of a nibble (R81). -/
def hexDigit (n : Byte) : Byte := if n < 10 then 0x30 + n else 0x37 + n

/-- The two characters of a byte field (R81). -/
def hexText (b : Byte) : List Byte := [hexDigit (b / 16), hexDigit (b % 16)]

/-- The text `:LLAAAATTDD…CC` of a record (R80, R94). -/
def encodeFields (tt : Byte) (r : Rec) : List Byte :=
  0x3A :: (BitVec.ofNat 8 r.data.length :: r.ah :: r.al :: tt :: (r.data ++ [r.cc])).flatMap hexText

/-- The TT byte of a record type (R82). -/
def RecordType.code (t : RecordType) : Byte :=
  match t with
  | .data => 0x00
  | .eof => 0x01
  | .esa => 0x02
  | .ssa => 0x03
  | .ela => 0x04
  | .sla => 0x05

/-- `BE32`: the bytes L[31:24], L[23:16], L[15:8], L[7:0] (R63, R212). -/
def be32 (w : Word) : List Byte :=
  [w.extractLsb' 24 8, w.extractLsb' 16 8, w.extractLsb' 8 8, w.extractLsb' 0 8]

/-- A report of 65 bytes that starts with `bytes`; every other byte is 0 (R87). -/
def padReport (bytes : List Byte) : List Byte :=
  (bytes ++ List.replicate Config.reportSize 0).take Config.reportSize

/-- A report with a length field: byte 0 is 0, byte 1 the marker, bytes 2-5 the packet length
big-endian, packet bytes from 6 (R87, rows Single and First). -/
def lengthReport (marker : Byte) (len : Word) (chunk : List Byte) : List Byte :=
  padReport (0 :: marker :: (be32 len ++ chunk))

/-- A report without one: packet bytes from 2 (R87, rows Middle and Last). -/
def dataReport (marker : Byte) (chunk : List Byte) : List Byte :=
  padReport (0 :: marker :: chunk)

/-- The encoding of an instruction, for the marker values `m`. -/
def encode (m : Markers) (i : Instr) : Encoding :=
  match i with
  | .nop => .command 0x00000000
  | .readRecord => .command 0x00000001
  | .validate => .command 0x00000002
  | .startAssembly => .command 0x00000003
  | .nextBlock => .command 0x00000004
  | .frame => .command 0x00000005
  | .unframe => .command 0x00000006
  | .rewind => .command 0x00000007
  | .clearError => .command 0x00000008
  | .softReset => .command 0x0000000F
  | .data r => .record (encodeFields RecordType.data.code r)
  | .eof r => .record (encodeFields RecordType.eof.code r)
  | .esa r => .record (encodeFields RecordType.esa.code r)
  | .ssa r => .record (encodeFields RecordType.ssa.code r)
  | .ela r => .record (encodeFields RecordType.ela.code r)
  | .sla r => .record (encodeFields RecordType.sla.code r)
  | .segSingle len chunk => .outbound (lengthReport m.single len chunk)
  | .segFirst len chunk => .outbound (lengthReport m.first len chunk)
  | .segMiddle chunk => .outbound (dataReport m.middle chunk)
  | .segLast chunk => .outbound (dataReport m.last chunk)
  | .rxContinue window flag => .inbound (padReport (0 :: m.cont :: (window ++ [flag])))

/-- The instruction an encoding stands for, for the marker values `m`; `remaining` is used by a Last
report only. -/
def decode (m : Markers) (remaining : Nat) (e : Encoding) : Except Reject Instr :=
  match e with
  | .command w => decodeCommand w
  | .record text => decodeRecord text
  | .outbound report => decodeOutbound m remaining report
  | .inbound report => decodeInbound m report

/-! ### The checksum of a record (R84) -/

/-- `S`: the byte sum of LL, AH, AL, TT and the data bytes, mod 256 (R123). -/
def Rec.sum (tt : Byte) (r : Rec) : Byte :=
  BitVec.ofNat 8 r.data.length + r.ah + r.al + tt + r.data.foldr (· + ·) 0

/-- The checksum that makes the record's bytes sum to 0 mod 256: `(256 - S) mod 256` (R84). -/
def Rec.expected (tt : Byte) (r : Rec) : Byte := 0 - r.sum tt

/-! ### Words of spec/opcode_table.json -/

/-- The record a HEXREC row's 8-bit word stands for: type TT, line address 0, data bytes 0, as few of
them as R83 allows the type, and the checksum R84 gives (log 15). -/
def tableRecord (tt : Byte) : Rec :=
  let r : Rec := { ah := 0, al := 0, data := if tt = 0x02 ∨ tt = 0x04 then [0, 0] else [], cc := 0 }
  { r with cc := r.expected tt }

/-- What the decoder reads from a table row's word: 32 bits are a CMD word, 8 bits a record's TT byte.
The rows of the report markers give no bits, since their values are parameters (R89; log 15). -/
def decodeTableWord (nbits w : Nat) : Option Instr :=
  if nbits = 8 then
    if w < 256 then
      (decodeRecord (encodeFields (BitVec.ofNat 8 w) (tableRecord (BitVec.ofNat 8 w)))).toOption
    else none
  else if w < 4294967296 then (decodeCommand (BitVec.ofNat 32 w)).toOption
  else none

end Sys2Proof
end

