-- ==== Sys2Proof/Machine/Operands.lean ====
section
/-! DEFINITION. What the operands of the instructions stand for: address formation (R131), extended
values (R62), the legality of a configuration (R263), segment counts (R210) and the register file's
view of the profile (R28). -/

namespace Sys2Proof.Machine

/-! ### Profile and configuration -/

/-- The marker values of PROFILE0 and PROFILE1 (R28). -/
def ConfigRegs.markers (c : ConfigRegs) : Markers :=
  { single := c.profile0.extractLsb' 0 8, first := c.profile0.extractLsb' 8 8,
    middle := c.profile0.extractLsb' 16 8, last := c.profile0.extractLsb' 24 8,
    cont := c.opContinue }

/-- R263, FRAME: the four outbound markers are pairwise distinct. -/
def markersDistinct (m : Markers) : Bool :=
  m.single != m.first && m.single != m.middle && m.single != m.last &&
  m.first != m.middle && m.first != m.last && m.middle != m.last

/-- R263: SRC_LEN is within SRC_CAP. -/
def State.srcLenLegal (s : State) : Bool := decide (s.cfg.srcLen.toNat ≤ s.params.srcCap)

/-- The legal addresses of R27: `APP_START mod 32 = 0` and `APP_START > BL_END`. -/
def ConfigRegs.addressesLegal (c : ConfigRegs) : Bool :=
  decide (c.appStart.toNat % Config.blockSize = 0) && decide (c.blEnd.toNat < c.appStart.toNat)

/-- The configuration VALIDATE requires (R263). -/
def State.configLegal (s : State) : Bool := s.srcLenLegal && s.cfg.addressesLegal

/-! ### Records -/

/-- `lineAddress = (AH << 8) | AL`, zero-extended (R61, R85). -/
def lineAddress (r : Rec) : Word := r.ah.setWidth 32 <<< 8 ||| r.al.setWidth 32

/-- The value of an extended-address record, its first byte high (R62). -/
def extValue (r : Rec) : Word :=
  (r.data.getD 0 0).setWidth 32 <<< 8 ||| (r.data.getD 1 0).setWidth 32

/-- The low byte of the extension data, `d[1]` (R62, R137). -/
def extLow (r : Rec) : Word := (r.data.getD 1 0).setWidth 32

/-- `resolve(la) = (SEG_BASE + LIN_BASE + la) mod 2^32` (R131). -/
def ReaderRegs.resolve (x : ReaderRegs) (la : Word) : Word := x.segBase + x.linBase + la

/-- The characters of a record before its tail: `11 + 2*LL` (R86). -/
def recordChars (r : Rec) : Nat := 11 + 2 * r.data.length

/-- R83: the legal LL of a record type. -/
def lengthLegal (t : RecordType) (ll : Nat) : Bool :=
  match t with
  | .data => decide (ll ≤ Config.maxRecData)
  | .eof => decide (ll = 0)
  | .esa => decide (ll = 2)
  | .ssa => decide (ll ≤ Config.maxRecData)
  | .ela => decide (ll = 2)
  | .sla => decide (ll ≤ Config.maxRecData)

/-- `sat32(x + 1)` of LINES (R31, R129). -/
def saturatingNext (x : Word) : Word := if x = 0xFFFFFFFF then x else x + 1

/-- The bytes `SRC[from..SRC_LEN)` (R29). -/
def State.sourceFrom (s : State) (start : Nat) : List Byte :=
  Mem.slice s.src start (s.cfg.srcLen.toNat - start)

/-- The whitespace set WS (R121). -/
def isSpace (b : Byte) : Bool := b == 0x20 || b == 0x09 || b == 0x0D || b == 0x0A

/-- How many whitespace bytes `text` begins with (R121). -/
def spaces (text : List Byte) : Nat :=
  match text with
  | [] => 0
  | b :: rest => if isSpace b then spaces rest + 1 else 0

/-- How many bytes the tail of a record has: up to and including the next LF, or all (R125). -/
def tailLength (text : List Byte) : Nat :=
  match text with
  | [] => 0
  | b :: rest => if b = 0x0A then 1 else tailLength rest + 1

/-! ### Packets and reports -/

/-- `n(L)`: the reports that carry a packet of length `L` (R210). -/
def segmentCount (len : Nat) : Nat :=
  if len ≤ Config.segPayload then 1
  else 1 + (len - Config.segPayload + (Config.segPayload - 1)) / Config.segPayload

/-- `PKT[56k, min(56k+56, L))`: the packet bytes report `k` carries (R210). -/
def State.packetChunk (s : State) (k : Nat) : List Byte :=
  Mem.slice s.pkt (Config.segPayload * k)
    (min Config.segPayload (s.cfg.pktLen.toNat - Config.segPayload * k))

end Sys2Proof.Machine
end

