-- ==== Sys2Proof/Machine/Records.lean ====
section
/-! DEFINITION. The record types DATA, EOF, ESA, SSA, ELA and SLA (R132 to R138): what `read_next` does
with one record whose first byte, its `:`, stands at CURSOR. A record that fails a check raises its
error with CURSOR still at the record (R130); one that passes is accepted and takes its effect. -/

namespace Sys2Proof.Machine

/-- A record-level error: the context of R130 beside what the kind adds. CURSOR is at the record. -/
def recordError (k : ErrKind) (info : ErrInfo) (s : State) : State :=
  { s.raise k { info with line := s.rdr.lines + 1, offset := s.rdr.cursor } with ret := .raised }

/-- Acceptance: CURSOR past the record and its tail (R125), LINES + 1 (R129). -/
def acceptRecord (r : Rec) (s : State) : State :=
  let after := s.rdr.cursor.toNat + recordChars r
  { s with rdr := { s.rdr with
      cursor := BitVec.ofNat 32 (after + tailLength (s.sourceFrom after))
      lines := saturatingNext s.rdr.lines } }

/-- The checksum makes the record's bytes sum to 0 mod 256 (R84, R126). -/
def checksumGood (tt : Byte) (r : Rec) : Bool := r.sum tt + r.cc == 0

/-- R126: the error of a wrong checksum, with the checksum expected and the one found. -/
def checksumError (tt : Byte) (r : Rec) (s : State) : State :=
  recordError .checksumError { expected := r.expected tt, actual := r.cc } s

/-- The checks every record of a known type gets, in the order of R140: checksum, then length. -/
def checkRecord (t : RecordType) (r : Rec) (effect : State → State) (s : State) : State :=
  if checksumGood t.code r = false then checksumError t.code r s
  else if lengthLegal t r.data.length = false then recordError .recordLengthError {} s
  else effect s

/-- The address a record at this state resolves to (R131). -/
def recordAddress (r : Rec) (s : State) : Word := s.rdr.resolve (lineAddress r)

/-- R132: a data record is returned, or an end-of-file marker when LL = 0. -/
def dataEffect (r : Rec) (s : State) : State :=
  checkRecord .data r
    (fun s => { acceptRecord r s with
      ret := if r.data.length = 0 then .eof (recordAddress r s) s.rdr.cursor 0x00 r.cc
             else .data (recordAddress r s) s.rdr.cursor r.data r.cc }) s

/-- R133: an end-of-file marker is returned. -/
def eofEffect (r : Rec) (s : State) : State :=
  checkRecord .eof r
    (fun s => { acceptRecord r s with
      ret := .eof (recordAddress r s) s.rdr.cursor 0x01 r.cc }) s

/-- `LIN_BASE <- d[1] << 16`: both extended-address types in variant B (R137). -/
def variantBEffect (r : Rec) (s : State) : State :=
  let s := acceptRecord r s
  { s with rdr := { s.rdr with linBase := extLow r <<< 16 } }

/-- R134 in variant A, with its range check; R137 in variant B. -/
def esaEffect (r : Rec) (s : State) : State :=
  checkRecord .esa r
    (fun s =>
      if s.cfg.addrMode = 0 then
        if extValue r < Config.esaMin ∨ Config.esaMax < extValue r then
          recordError .segmentRangeError { addr := extValue r } s
        else
          let s := acceptRecord r s
          { s with rdr := { s.rdr with segBase := extValue r <<< 4 } }
      else variantBEffect r s) s

/-- R135: checked and counted, nothing else. -/
def ssaEffect (r : Rec) (s : State) : State := checkRecord .ssa r (acceptRecord r) s

/-- R136 in variant A, R137 in variant B. -/
def elaEffect (r : Rec) (s : State) : State :=
  checkRecord .ela r
    (fun s =>
      if s.cfg.addrMode = 0 then
        let s := acceptRecord r s
        { s with rdr := { s.rdr with linBase := extValue r <<< 16 } }
      else variantBEffect r s) s

/-- R138: checked and counted, nothing else. -/
def slaEffect (r : Rec) (s : State) : State := checkRecord .sla r (acceptRecord r) s

/-- A record whose TT is 0x06 to 0xFF: its checksum is checked first (R127, R140). -/
def unknownTypeEffect (tt : Byte) (r : Rec) (s : State) : State :=
  if checksumGood tt r = false then checksumError tt r s else recordError .unknownRecordType {} s

/-- The effect of a record of type `t` at CURSOR. -/
def recordEffect (t : RecordType) (r : Rec) (s : State) : State :=
  match t with
  | .data => dataEffect r s
  | .eof => eofEffect r s
  | .esa => esaEffect r s
  | .ssa => ssaEffect r s
  | .ela => elaEffect r s
  | .sla => slaEffect r s

/-! ### The meanings -/

/-- DATA (R132). -/
def execData (r : Rec) (s : State) : Host.Outcome State Fault Refusal := .next (dataEffect r s)

/-- EOF (R133). -/
def execEof (r : Rec) (s : State) : Host.Outcome State Fault Refusal := .next (eofEffect r s)

/-- ESA (R134, R137). -/
def execEsa (r : Rec) (s : State) : Host.Outcome State Fault Refusal := .next (esaEffect r s)

/-- SSA (R135). -/
def execSsa (r : Rec) (s : State) : Host.Outcome State Fault Refusal := .next (ssaEffect r s)

/-- ELA (R136, R137). -/
def execEla (r : Rec) (s : State) : Host.Outcome State Fault Refusal := .next (elaEffect r s)

/-- SLA (R138). -/
def execSla (r : Rec) (s : State) : Host.Outcome State Fault Refusal := .next (slaEffect r s)

end Sys2Proof.Machine
end

