-- ==== Sys2Proof/Machine/Reader.lean ====
section
/-! DEFINITION. The Record Reader: `read_next` (R120 to R131) and the command READ_RECORD (R139). -/

namespace Sys2Proof.Machine

/-- What stands next in the source. -/
inductive Scan where
  /-- only whitespace up to SRC_LEN -/
  | endOfStream (cursor : Nat)
  /-- no well-formed record text at `start` -/
  | syntaxError (start : Nat)
  /-- a record whose TT is no record type -/
  | unknown (start : Nat) (tt : Byte) (r : Rec)
  /-- a record -/
  | record (start : Nat) (t : RecordType) (r : Rec)
  deriving DecidableEq, Repr

/-- The record whose `:` is at the head of `text`, at offset `start` (R121, R122). -/
def scanRecord (start : Nat) (text : List Byte) : Scan :=
  match decodeFields text with
  | .error _ => .syntaxError start
  | .ok (tt, r) =>
    match recordType tt with
    | some t => .record start t r
    | none => .unknown start tt r

/-- Whitespace skip and record start (R121). With CURSOR above SRC_LEN, which the host can bring about
by lowering SRC_LEN, the pseudocode of R123 reaches a SyntaxError whatever byte it reads (log 10). -/
def State.scan (s : State) : Scan :=
  let cursor := s.rdr.cursor.toNat
  if s.cfg.srcLen.toNat < cursor then .syntaxError cursor
  else
    let text := s.sourceFrom cursor
    let start := cursor + spaces text
    match text.drop (spaces text) with
    | [] => .endOfStream start
    | b :: rest => scanRecord start (b :: rest)

/-- CURSOR <- n. -/
def State.atCursor (s : State) (n : Nat) : State :=
  { s with rdr := { s.rdr with cursor := BitVec.ofNat 32 n } }

/-- One pass of `read_next`'s loop (R123): it ends when a record is returned, when no record starts
before SRC_LEN, or with an error; a control record leaves `ret` idle and the loop goes on. -/
def readPass (s : State) : State :=
  match s.scan with
  | .endOfStream c => { s.atCursor c with ret := .endOfStream }
  | .syntaxError start => recordError .syntaxError {} (s.atCursor start)
  | .unknown start tt r => unknownTypeEffect tt r (s.atCursor start)
  | .record start t r => recordEffect t r (s.atCursor start)

/-- `read_next`'s loop, at most `fuel` passes (log 22). -/
def readLoop (fuel : Nat) (s : State) : State :=
  match fuel with
  | 0 => s
  | fuel + 1 =>
    let s := readPass s
    if s.ret = .idle then readLoop fuel s else s

/-- The source bytes CURSOR has not passed. -/
def State.sourceLeft (s : State) : Nat := s.cfg.srcLen.toNat - s.rdr.cursor.toNat

/-- Nothing is in flight from `read_next`: its caller has taken what it returned. -/
def State.taken (s : State) : State := { s with ret := .idle }

/-- `read_next()` (R123). Each pass that goes on moves CURSOR past a record, so the bytes that remain
bound the passes (R142). -/
def readNext (s : State) : State :=
  readLoop (s.sourceLeft + 1) s.taken

/-- READ_RECORD's result registers (R139). -/
def State.putRecord (s : State) (kind : BitVec 2) (out : RecordRegs) : State :=
  { s with recOut := out, status := { s.status with recKind := kind } }

/-- The start of READ_RECORD: ASM_ACTIVE, ASM_DONE and REC_KIND are cleared. -/
def readRecordStart (s : State) : State :=
  { s.endAssembly with status := { s.endAssembly.status with recKind := 0 } }

/-- READ_RECORD (R139). Every error of it, ConfigError too, leaves REC_KIND = 0 (R139, R266; log 24). -/
def readRecord (s : State) : State :=
  if s.srcLenLegal = false then (readRecordStart s).raise .configError {}
  else
    let s := readNext (readRecordStart s)
    match s.ret with
    | .idle => s
    | .raised => s.taken
    | .data a _ d c =>
      (s.taken.putRecord 1
        { addr := a, len := BitVec.ofNat 8 d.length, type := 0x00, cks := c,
          data := Mem.ofBytes d }).complete
    | .eof a _ t c => (s.taken.putRecord 2 { addr := a, len := 0, type := t, cks := c }).complete
    | .endOfStream => (s.taken.putRecord 3 {}).complete

/-- READ_RECORD (R139). -/
def execReadRecord (s : State) : Host.Outcome State Fault Refusal := .next (readRecord s)

end Sys2Proof.Machine
end

