-- ==== Sys2Proof/Machine/Validator.lean ====
section
/-! DEFINITION. The Image Validator: the command VALIDATE (R160 to R169). Its working values are
arguments of its loop, since they are no state between commands (R43). -/

namespace Sys2Proof.Machine

/-- The validator's working values: no record returned yet, a data record seen, and the last one's
address and byteCount (R161). -/
structure ValidatorWork where
  first : Bool := true
  seen : Bool := false
  lastA : Word := 0
  lastN : Byte := 0
  deriving DecidableEq, Repr

/-- The error context of a record the validator rejects: the record has been counted (R161). -/
def returnedInfo (s : State) (addr start : Word) : ErrInfo :=
  { line := s.rdr.lines, offset := start, addr := addr }

/-- R162: the first record returned is not at APP_START. -/
def startAddressWrong (w : ValidatorWork) (addr : Word) (s : State) : Bool :=
  w.first && addr != s.cfg.appStart

/-- NoEndOfFile at the end of the source (R166, R183). -/
def noEndOfFile (s : State) : State :=
  s.raise .noEndOfFile { line := s.rdr.lines, offset := s.cfg.srcLen }

/-- VALIDATE's success: the results of R161 and R164. -/
def validateSuccess (w : ValidatorWork) (s : State) : State :=
  State.complete
    { s with
      valOut := { lines := s.rdr.lines, endAddr := w.lastA, endCount := w.lastN,
                  xferSize := if w.seen then w.lastA + w.lastN.setWidth 32 - s.cfg.appStart else 0 }
      status := { s.status with validated := true } }

/-- VALIDATE's loop (R161), at most `fuel` passes (log 22). -/
def validateLoop (fuel : Nat) (w : ValidatorWork) (s : State) : State :=
  match fuel with
  | 0 => s
  | fuel + 1 =>
    let s := readNext s
    match s.ret with
    | .idle => s
    | .raised => s.taken
    | .endOfStream => noEndOfFile s.taken
    | .eof addr start _ _ =>
      if startAddressWrong w addr s then
        s.taken.raise .invalidStartAddress (returnedInfo s addr start)
      else validateSuccess w s.taken
    | .data addr start bytes _ =>
      if startAddressWrong w addr s then
        s.taken.raise .invalidStartAddress (returnedInfo s addr start)
      else if addr ≤ s.cfg.blEnd then
        s.taken.raise .protectedAddressViolation (returnedInfo s addr start)
      else
        validateLoop fuel
          { first := false, seen := true, lastA := addr, lastN := BitVec.ofNat 8 bytes.length }
          s.taken

/-- VALIDATE (R161). Each pass that goes on consumes a record, so SRC_LEN bounds the passes. -/
def validate (s : State) : State :=
  let s := s.invalidate
  if s.configLegal = false then s.raise .configError {}
  else validateLoop (s.cfg.srcLen.toNat + 1) {} s.resetReader

/-- VALIDATE (R161). -/
def execValidate (s : State) : Host.Outcome State Fault Refusal := .next (validate s)

end Sys2Proof.Machine
end

