-- ==== Sys2Proof/Machine/Assembler.lean ====
section
/-! DEFINITION. The Block Assembler: START_ASSEMBLY and NEXT_BLOCK (R180 to R196). -/

namespace Sys2Proof.Machine

/-! ### START_ASSEMBLY -/

/-- The assembler's registers at the start of a run: CBS <- APP_START, P <- 0, nothing pending; the
hidden arrays keep their bytes (R181). -/
def AssemblerRegs.startRun (a : AssemblerRegs) (appStart : Word) : AssemblerRegs :=
  { a with cbs := appStart.setWidth 33, p := 0, pendValid := false, pendLen := 0, pendAddr := 0 }

/-- START_ASSEMBLY (R181). -/
def startAssembly (s : State) : State :=
  if s.status.validated = false then s.raise .sequenceError {}
  else
    State.complete
      { s.resetReader with
        asm := s.asm.startRun s.cfg.appStart
        blkOut := {}
        status := { s.status with
          validated := false, blkValid := false, asmActive := true, asmDone := false } }

/-- START_ASSEMBLY (R181). -/
def execStartAssembly (s : State) : Host.Outcome State Fault Refusal := .next (startAssembly s)

/-! ### NEXT_BLOCK -/

/-- `emit(CBS, c)` (R186). -/
def emit (c : Nat) (s : State) : State :=
  { s with
    blkOut := { start := s.asm.cbs.setWidth 32, count := BitVec.ofNat 6 c,
                index := s.blkOut.index + 1, data := Mem.ofBytes (Mem.slice s.asm.buf 0 c) }
    status := { s.status with blkValid := true } }

/-- `emit(CBS, 32); CBS <- CBS + 32; P <- 0` (R185, R189). -/
def emitFull (s : State) : State :=
  let s := emit Config.blockSize s
  { s with asm := { s.asm with cbs := s.asm.cbs + 32, p := 0 } }

/-- The sequence ends at the end-of-file marker, with a short block if P ≠ 0 (R184). -/
def endSequence (s : State) : State :=
  let s := if s.asm.p = 0 then s else emit s.asm.p.toNat s
  State.complete { s with status := { s.status with asmActive := false, asmDone := true } }

/-- R191: the record runs past 2^32. -/
def pastTop (addr : Word) (bytes : List Byte) : Bool :=
  decide (4294967296 < addr.toNat + bytes.length)

/-- A fetched record becomes the pending record (R182). -/
def AssemblerRegs.hold (a : AssemblerRegs) (addr : Word) (bytes : List Byte) : AssemblerRegs :=
  { a with pendAddr := addr, pendLen := BitVec.ofNat 7 bytes.length, pendValid := true,
           pendData := Mem.writeBytes a.pendData 0 bytes }

/-- Fetch (R183): what the next record makes of the command; `more` holds the record as pending, and
beside it stands the record's offset. -/
def fetch (s : State) : Word × Pass :=
  let s := readNext s
  match s.ret with
  | .idle => (0, .done s)
  | .raised => (0, .done s.taken)
  | .endOfStream => (0, .done (noEndOfFile s.taken))
  | .eof _ start _ _ => (start, .done (endSequence s.taken))
  | .data addr start bytes _ =>
    if pastTop addr bytes then
      (start, .done (s.taken.raise .addressOrderError (returnedInfo s addr start)))
    else (start, .more { s.taken with asm := s.asm.hold addr bytes })

/-- Placement of the pending record at `a - CBS` (R187) and what is left of it (R188). -/
def AssemblerRegs.place (x : AssemblerRegs) : AssemblerRegs :=
  let p := x.p.toNat
  let off := x.pendAddr.toNat - x.cbs.toNat
  let n := x.pendLen.toNat
  let fit := min n (Config.blockSize - off)
  let padded := Mem.writeBytes x.buf p (List.replicate (off - p) Config.nopByte)
  let placed :=
    { x with buf := Mem.writeBytes padded off (Mem.slice x.pendData 0 fit)
             p := BitVec.ofNat 6 (off + fit) }
  if fit = n then { placed with pendValid := false, pendLen := 0, pendAddr := 0 }
  else
    { placed with
      pendData := Mem.writeBytes x.pendData 0 (Mem.slice x.pendData fit (n - fit))
      pendLen := BitVec.ofNat 7 (n - fit)
      pendAddr := (x.cbs + 32).setWidth 32 }

/-- `ASM_BUF[P..32) <- 0x00` (R185). -/
def AssemblerRegs.padToEnd (x : AssemblerRegs) : AssemblerRegs :=
  { x with
    buf := Mem.writeBytes x.buf x.p.toNat
      (List.replicate (Config.blockSize - x.p.toNat) Config.nopByte) }

/-- What NEXT_BLOCK does with the pending record (R182): a gap block (R185), an error (R190), or
placement, which ends the command when the block is full (R189). `start` is the offset of the record
if it was fetched by this command (log 12). -/
def placePass (start : Word) (s : State) : Pass :=
  let a := s.asm.pendAddr.toNat
  if s.asm.cbs.toNat + Config.blockSize ≤ a then
    .done (emitFull { s with asm := s.asm.padToEnd }).complete
  else if a < s.asm.cbs.toNat + s.asm.p.toNat then
    .done (s.raise .addressOrderError (returnedInfo s s.asm.pendAddr start))
  else
    let s := { s with asm := s.asm.place }
    if s.asm.p = 32 then .done (emitFull s).complete else .more s

/-- One pass of NEXT_BLOCK's loop: fetch if nothing is pending, then place (R182). -/
def blockPass (s : State) : Pass :=
  if s.asm.pendValid then placePass 0 s
  else
    match fetch s with
    | (_, .done s) => .done s
    | (start, .more s) => placePass start s

/-- NEXT_BLOCK's loop, at most `fuel` passes (log 22). -/
def blockLoop (fuel : Nat) (s : State) : State :=
  match fuel with
  | 0 => s
  | fuel + 1 =>
    match blockPass s with
    | .done s => s
    | .more s => blockLoop fuel s

/-- BLK_VALID <- 0. -/
def State.dropBlock (s : State) : State := { s with status := { s.status with blkValid := false } }

/-- NEXT_BLOCK (R182, R192). Its SequenceError changes no state before the raise (R264); BLK_VALID is 0
then all the same (R25, R266), since the step that starts the command has cleared it
(`State.startCommand`; log 23). After its first pass every pass fetches a record, so the source bytes
that remain bound the passes (R196). -/
def nextBlock (s : State) : State :=
  if s.status.asmActive = false then
    if s.status.asmDone then s.dropBlock.complete
    else s.raise .sequenceError {}
  else blockLoop (s.dropBlock.sourceLeft + 2) s.dropBlock

/-- NEXT_BLOCK (R182). -/
def execNextBlock (s : State) : Host.Outcome State Fault Refusal := .next (nextBlock s)

end Sys2Proof.Machine
end

