-- ==== Sys2Proof/Machine/Control.lean ====
section
/-! DEFINITION. The control commands NOP, REWIND, CLEAR_ERROR and SOFT_RESET (R242 to R245), and the
reset input (R49, R290). -/

namespace Sys2Proof.Machine

/-- NOP: `STATUS.LAST_CMD <- 0`, nothing else (R242). -/
def execNop (s : State) : Host.Outcome State Fault Refusal :=
  .next { s with status := { s.status with lastCmd := 0 } }

/-- REWIND (R243). -/
def rewind (s : State) : State :=
  State.complete
    { s.resetReader with
      status := { s.status with recKind := 0, asmActive := false, asmDone := false } }

/-- REWIND (R243). -/
def execRewind (s : State) : Host.Outcome State Fault Refusal := .next (rewind s)

/-- CLEAR_ERROR (R244). -/
def clearError (s : State) : State :=
  State.complete
    { s with
      err := {}
      status := { s.status with
        err := false, cmdDropped := false, validated := false, asmActive := false,
        asmDone := false, blkValid := false, xferDone := false } }

/-- CLEAR_ERROR (R244). -/
def execClearError (s : State) : Host.Outcome State Fault Refusal := .next (clearError s)

/-- SOFT_RESET (R245, R291): everything but the configuration and SRC and PKT takes its reset value,
then LAST_CMD <- 0xF. The environment's actions and the model's own counters are no state of the
machine and stay (log 27); what SOFT_RESET writes, all that is not configuration (R91), awaits a read of
STATUS (R295; log 28). -/
def softReset (s : State) : State :=
  { params := s.params, cfg := s.cfg, src := s.src, pkt := s.pkt
    status := { lastCmd := 0xF }
    actions := s.actions, portOut := s.portOut, draws := s.draws, unseen := [0xF] }

/-- SOFT_RESET (R245). -/
def execSoftReset (s : State) : Host.Outcome State Fault Refusal := .next (softReset s)

/-- The reset input (R49, R290): every register, flag and hidden field takes its reset value; the
content of SRC and PKT is unspecified, a free value (log 4). -/
def hardReset (s : State) : State :=
  { params := s.params
    src := Mem.ofBytes ((Config.freeBytes s.draws).take s.params.srcCap)
    pkt := Mem.ofBytes ((Config.freeBytes (s.draws + 1)).take s.params.maxPacketLen)
    actions := s.actions, portOut := s.portOut, draws := s.draws + 2 }

end Sys2Proof.Machine
end

