-- ==== Sys2Proof/Machine/Framer.lean ====
section
/-! DEFINITION. The Link Framer: the outbound segment markers (R214 to R217) and the command FRAME
(R210 to R220). -/

namespace Sys2Proof.Machine

/-- `TXR[0..65) <- report` (R211). -/
def State.putTxr (s : State) (report : List Byte) : State :=
  { s with frm := { s.frm with txr := Mem.ofBytes report } }

/-! ### Segment markers -/

/-- R214: the report of SEG_SINGLE goes to TXR. -/
def segSingleEffect (len : Word) (chunk : List Byte) (s : State) : State :=
  s.putTxr (lengthReport s.cfg.markers.single len chunk)

/-- R215: the report of SEG_FIRST goes to TXR. -/
def segFirstEffect (len : Word) (chunk : List Byte) (s : State) : State :=
  s.putTxr (lengthReport s.cfg.markers.first len chunk)

/-- R216: the report of SEG_MIDDLE goes to TXR. -/
def segMiddleEffect (chunk : List Byte) (s : State) : State :=
  s.putTxr (dataReport s.cfg.markers.middle chunk)

/-- R217: the report of SEG_LAST goes to TXR. -/
def segLastEffect (chunk : List Byte) (s : State) : State :=
  s.putTxr (dataReport s.cfg.markers.last chunk)

/-- SEG_SINGLE (R214). -/
def execSegSingle (len : Word) (chunk : List Byte) (s : State) : Host.Outcome State Fault Refusal :=
  .next (segSingleEffect len chunk s)

/-- SEG_FIRST (R215). -/
def execSegFirst (len : Word) (chunk : List Byte) (s : State) : Host.Outcome State Fault Refusal :=
  .next (segFirstEffect len chunk s)

/-- SEG_MIDDLE (R216). -/
def execSegMiddle (chunk : List Byte) (s : State) : Host.Outcome State Fault Refusal :=
  .next (segMiddleEffect chunk s)

/-- SEG_LAST (R217). -/
def execSegLast (chunk : List Byte) (s : State) : Host.Outcome State Fault Refusal :=
  .next (segLastEffect chunk s)

/-! ### FRAME -/

/-- `report(k, n, L)` to TXR: the segment kind R95 and R212 select for report `k` of `n`, with the
packet bytes R210 gives it. -/
def putReport (k n : Nat) (s : State) : State :=
  if n = 1 then segSingleEffect s.cfg.pktLen (s.packetChunk k) s
  else if k = 0 then segFirstEffect s.cfg.pktLen (s.packetChunk k) s
  else if k + 1 < n then segMiddleEffect (s.packetChunk k) s
  else segLastEffect (s.packetChunk k) s

/-- Report `k` is presented on TX (R211, R213): SEG_INDEX <- k, TXR <- report, TX_WAIT <- 1. -/
def present (k n : Nat) (s : State) : State :=
  let s := putReport k n { s with frm := { s.frm with segIndex := BitVec.ofNat 32 k } }
  { s with status := { s.status with txWait := true } }

/-- FRAME up to its first wait (R211). -/
def frameStart (s : State) : State :=
  let s := { s with status := { s.status with xferDone := false } }
  if markersDistinct s.cfg.markers = false then s.raise .configError {}
  else if s.params.maxPacketLen < s.cfg.pktLen.toNat then s.raise .packetLengthError {}
  else
    let n := segmentCount s.cfg.pktLen.toNat
    present 0 n { s with frm := { s.frm with segTotal := BitVec.ofNat 32 n } }

/-- XFER_DONE <- 1; complete (R211, R221). -/
def State.transferDone (s : State) : State :=
  { s with status := { s.status with xferDone := true, busy := false } }

/-- FRAME from the response to report SEG_INDEX on (R218 to R220). -/
def frameResume (resp : TxResponse) (s : State) : State :=
  let k := s.frm.segIndex
  match resp with
  | .done =>
    if k.toNat + 1 < s.frm.segTotal.toNat then present (k.toNat + 1) s.frm.segTotal.toNat s
    else s.transferDone
  | .failed => s.raise .segmentRejected { addr := k }
  | .timeout => s.raise .transportTimeout { addr := k }
  | .garbled => s.raise .transportFailure { addr := k }

/-- One step of FRAME (R240): from its start, or from the response a TX action recorded. -/
def frame (s : State) : State :=
  match s.txIn with
  | none => frameStart s
  | some resp => frameResume resp { s with txIn := none }

/-- FRAME (R211). -/
def execFrame (s : State) : Host.Outcome State Fault Refusal := .next (frame s)

end Sys2Proof.Machine
end

