-- ==== Sys2Proof/Machine/Reassembler.lean ====
section
/-! DEFINITION. The Reassembler: the inbound tag RX_CONTINUE (R224) and the command UNFRAME (R221 to
R227). -/

namespace Sys2Proof.Machine

/-- An error of UNFRAME: the partial buffer is abandoned (RX_COUNT <- 0) and ERR_ADDR names the report
(R221, R225, R227; log 21). -/
def rxError (k : ErrKind) (s : State) : State :=
  State.raise k { addr := BitVec.ofNat 32 s.rx.unfIndex } { s with rx := { s.rx with count := 0 } }

/-- The bytes of a 56-byte data window go to RXBUF as far as the declared length asks; the transfer is
done when it is reached (R221, R226). -/
def appendWindow (window : List Byte) (s : State) : Pass :=
  let t := min Config.segPayload (s.rx.len.toNat - s.rx.count.toNat)
  let s := { s with rx := { s.rx with
      rxbuf := Mem.writeBytes s.rx.rxbuf s.rx.count.toNat (window.take t)
      count := s.rx.count + BitVec.ofNat 32 t
      unfIndex := s.rx.unfIndex + 1 } }
  if s.rx.count = s.rx.len then .done s.transferDone else .more s

/-- RX_CONTINUE (R224): the flag is tested first, then the window is appended. -/
def rxContinueEffect (window : List Byte) (flag : Byte) (s : State) : Pass :=
  if flag ≠ 0 then .done (rxError .robotNoResponse s) else appendWindow window s

/-- RX_CONTINUE (R224). -/
def execRxContinue (window : List Byte) (flag : Byte) (s : State) :
    Host.Outcome State Fault Refusal :=
  .next (rxContinueEffect window flag s).state

/-- The first inbound report (R223): its flag, byte 62, before its declared length, bytes 2-5. -/
def firstInbound (r : List Byte) (s : State) : Pass :=
  if r.getD 62 0 ≠ 0 then .done (rxError .robotNoResponse s)
  else if s.params.maxRxLen < (ofBe32 (r.drop 2)).toNat then .done (rxError .transportFailure s)
  else
    appendWindow ((r.drop 6).take Config.segPayload)
      { s with rx := { s.rx with len := ofBe32 (r.drop 2) } }

/-- A later inbound report (R224): a continuation, or one that is not tagged OP_CONTINUE, whose flag is
still tested before its tag. -/
def laterInbound (r : List Byte) (s : State) : Pass :=
  match inboundFields s.cfg.markers r with
  | .ok (window, flag) => rxContinueEffect window flag s
  | .error _ =>
    if r.getD 58 0 ≠ 0 then .done (rxError .robotNoResponse s)
    else .done (rxError .transportFailure s)

/-- RX_WAIT <- 1: UNFRAME awaits the next inbound report (R222). -/
def State.awaitRx (s : State) : State := { s with status := { s.status with rxWait := true } }

/-- UNFRAME up to its first wait (R221). -/
def unframeStart (s : State) : State :=
  State.awaitRx
    { s with
      rx := { s.rx with len := 0, count := 0, unfIndex := 0 }
      status := { s.status with xferDone := false } }

/-- The 65 bytes of a delivered report (R48; log 18). -/
def reportBytes (bytes : List Byte) : List Byte := padReport bytes

/-- UNFRAME from a delivery on (R221): `RXR[0..65) <- x`, the report's effect, and the next wait if
the declared length is not reached. -/
def unframeResume (d : RxDelivery) (s : State) : State :=
  match d with
  | .timeout => rxError .transportTimeout s
  | .report bytes =>
    let r := reportBytes bytes
    let s := { s with rx := { s.rx with rxr := Mem.ofBytes r } }
    match if s.rx.unfIndex = 0 then firstInbound r s else laterInbound r s with
    | .done s => s
    | .more s => s.awaitRx

/-- One step of UNFRAME (R240): from its start, or from the delivery an RX action recorded. -/
def unframe (s : State) : State :=
  match s.rxIn with
  | none => unframeStart s
  | some d => unframeResume d { s with rxIn := none }

/-- UNFRAME (R221). -/
def execUnframe (s : State) : Host.Outcome State Fault Refusal := .next (unframe s)

end Sys2Proof.Machine
end

