-- ==== Sys2Proof/Machine/Dispatch.lean ====
section
/-! DEFINITION. The meaning of each instruction: one arm for each row of spec/opcode_table.json. -/

namespace Sys2Proof.Machine

/-- What an instruction does. A command's meaning is what the command unit runs once it is accepted
(R240, R241); a record's, what `read_next` does with it; a marker's, what FRAME or UNFRAME does. -/
def exec (i : Instr) (s : State) : Host.Outcome State Fault Refusal :=
  match i with
  -- commands (R90)
  | .nop => Sys2Proof.Machine.execNop s
  | .readRecord => Sys2Proof.Machine.execReadRecord s
  | .validate => Sys2Proof.Machine.execValidate s
  | .startAssembly => Sys2Proof.Machine.execStartAssembly s
  | .nextBlock => Sys2Proof.Machine.execNextBlock s
  | .frame => Sys2Proof.Machine.execFrame s
  | .unframe => Sys2Proof.Machine.execUnframe s
  | .rewind => Sys2Proof.Machine.execRewind s
  | .clearError => Sys2Proof.Machine.execClearError s
  | .softReset => Sys2Proof.Machine.execSoftReset s
  -- record types (R82)
  | .data r => Sys2Proof.Machine.execData r s
  | .eof r => Sys2Proof.Machine.execEof r s
  | .esa r => Sys2Proof.Machine.execEsa r s
  | .ssa r => Sys2Proof.Machine.execSsa r s
  | .ela r => Sys2Proof.Machine.execEla r s
  | .sla r => Sys2Proof.Machine.execSla r s
  -- report markers (R89)
  | .segSingle len chunk => Sys2Proof.Machine.execSegSingle len chunk s
  | .segFirst len chunk => Sys2Proof.Machine.execSegFirst len chunk s
  | .segMiddle chunk => Sys2Proof.Machine.execSegMiddle chunk s
  | .segLast chunk => Sys2Proof.Machine.execSegLast chunk s
  | .rxContinue window flag => Sys2Proof.Machine.execRxContinue window flag s

end Sys2Proof.Machine
end

