-- ==== Sys2Proof/Machine/CommandUnit.lean ====
section
/-! DEFINITION. The command unit and the ports: host accesses (R47, R241, R246 to R249), transport
actions (R48), HEXLINK steps (R240), and which action comes next (log 1). -/

namespace Sys2Proof.Machine

/-! ### Register slots (R23) -/

namespace Slot

def CMD : BitVec 6 := 0x00
def STATUS : BitVec 6 := 0x01
def MODE : BitVec 6 := 0x02
def APP_START : BitVec 6 := 0x03
def BL_END : BitVec 6 := 0x04
def PROFILE0 : BitVec 6 := 0x05
def PROFILE1 : BitVec 6 := 0x06
def SRC_LEN : BitVec 6 := 0x07
def PKT_LEN : BitVec 6 := 0x08
def SEG_INDEX : BitVec 6 := 0x1E
def SEG_TOTAL : BitVec 6 := 0x1F

end Slot

/-- The value register slot `idx` holds (R23): write-only CMD and the reserved slots read 0 (R24, R39). -/
def State.register (s : State) (idx : BitVec 6) : Word :=
  match idx.toNat with
  | 0x00 => 0
  | 0x01 => s.status.word
  | 0x02 => s.cfg.addrMode.setWidth 32
  | 0x03 => s.cfg.appStart
  | 0x04 => s.cfg.blEnd
  | 0x05 => s.cfg.profile0
  | 0x06 => s.cfg.opContinue.setWidth 32
  | 0x07 => s.cfg.srcLen
  | 0x08 => s.cfg.pktLen
  | 0x09 => s.rdr.cursor
  | 0x0A => s.rdr.segBase
  | 0x0B => s.rdr.linBase
  | 0x0C => s.rdr.lines
  | 0x0D => s.err.code.setWidth 32
  | 0x0E => s.err.line
  | 0x0F => s.err.offset
  | 0x10 => s.err.addr
  | 0x11 => s.err.cksWord
  | 0x12 => s.recOut.addr
  | 0x13 => s.recOut.infoWord
  | 0x14 => s.valOut.lines
  | 0x15 => s.valOut.endAddr
  | 0x16 => s.valOut.endCount.setWidth 32
  | 0x17 => s.valOut.xferSize
  | 0x18 => s.asm.cbs.setWidth 32
  | 0x19 => s.asm.stateWord
  | 0x1A => s.asm.pendAddr
  | 0x1B => s.blkOut.start
  | 0x1C => s.blkOut.count.setWidth 32
  | 0x1D => s.blkOut.index
  | 0x1E => s.frm.segIndex
  | 0x1F => s.frm.segTotal
  | 0x20 => s.rx.len
  | 0x21 => s.rx.count
  | _ => 0

/-- The slots whose reads are steady at any time: the three registers R72 and R295 name, and CMD and the
reserved slots, which read 0 (R24, R39; log 5). -/
def steadySlot (idx : BitVec 6) : Bool :=
  idx == Slot.STATUS || idx == Slot.SEG_INDEX || idx == Slot.SEG_TOTAL || idx == Slot.CMD ||
  decide (0x22 ≤ idx.toNat)

/-- Whether slot `idx` is one of `lo` to `hi`. -/
def slotIn (lo hi : Nat) (idx : BitVec 6) : Bool := decide (lo ≤ idx.toNat) && decide (idx.toNat ≤ hi)

/-- Whether slot `idx` is a result register of the command with OPC `opc`: one that R91 has it write, the
ERR_* registers among them, which every command may write (log 28). -/
def resultSlot (opc : BitVec 4) (idx : BitVec 6) : Bool :=
  match opc.toNat with
  | 0x1 => slotIn 0x09 0x13 idx
  | 0x2 => slotIn 0x09 0x11 idx || slotIn 0x14 0x17 idx
  | 0x3 => slotIn 0x09 0x11 idx || slotIn 0x18 0x1D idx
  | 0x4 => slotIn 0x09 0x11 idx || slotIn 0x18 0x1D idx
  | 0x5 => slotIn 0x0D 0x11 idx || slotIn 0x1E 0x1F idx
  | 0x6 => slotIn 0x0D 0x11 idx || slotIn 0x20 0x21 idx
  | 0x7 => slotIn 0x09 0x11 idx
  | 0x8 => slotIn 0x0D 0x11 idx
  | 0xF => slotIn 0x09 0x21 idx
  | _ => false

/-- Whether a read of slot `idx` is a free draw: while BUSY = 1 (R72), and for a result register of a
command until a read of STATUS has returned BUSY = 0 after its CMD write (R295; log 28); the steady slots
never are. -/
def State.slotUnsteady (s : State) (idx : BitVec 6) : Bool :=
  !steadySlot idx && (s.status.busy || s.unseen.any (resultSlot · idx))

/-- What a host read of slot `idx` returns (R72, R295). That the draw is of the whole word, the reserved
fields of a register too, is the model's choice: R39 has them read 0 and R72 has the register read any
value (log 5). -/
def State.readSlot (s : State) (idx : BitVec 6) : Word :=
  if s.slotUnsteady idx then Config.freeWord s.draws else s.register idx

/-! ### Arrays (R40) -/

/-- The content of an array. -/
def State.array (s : State) (a : ArrayName) : Mem :=
  match a with
  | .src => s.src
  | .pkt => s.pkt
  | .recData => s.recOut.data
  | .blkData => s.blkOut.data
  | .txr => s.frm.txr
  | .rxr => s.rx.rxr
  | .rxbuf => s.rx.rxbuf

/-- The size of an array (R40). -/
def State.arraySize (s : State) (a : ArrayName) : Nat :=
  match a with
  | .src => s.params.srcCap
  | .pkt => s.params.maxPacketLen
  | .recData => Config.maxRecData
  | .blkData => Config.blockSize
  | .txr => Config.reportSize
  | .rxr => Config.reportSize
  | .rxbuf => s.params.maxRxLen

/-- Whether an array is a result array of the command with OPC `opc` (R91; log 28). -/
def resultArray (opc : BitVec 4) (a : ArrayName) : Bool :=
  match a with
  | .src => false
  | .pkt => false
  | .recData => opc == 0x1 || opc == 0xF
  | .blkData => opc == 0x3 || opc == 0x4 || opc == 0xF
  | .txr => opc == 0x5 || opc == 0xF
  | .rxr => opc == 0x6 || opc == 0xF
  | .rxbuf => opc == 0x6 || opc == 0xF

/-- Whether an array's reads are steady at any time: TXR's while TX_WAIT = 1 (R72, R295), and those of
SRC and PKT, which no command writes (log 5). -/
def State.steadyArray (s : State) (a : ArrayName) : Bool :=
  match a with
  | .src => true
  | .pkt => true
  | .recData => false
  | .blkData => false
  | .txr => s.status.txWait
  | .rxr => false
  | .rxbuf => false

/-- Whether reads of an array are free draws, as for the registers (R72, R295; log 28). -/
def State.arrayUnsteady (s : State) (a : ArrayName) : Bool :=
  !s.steadyArray a && (s.status.busy || s.unseen.any (resultArray · a))

/-- The byte element `i` of an array holds; outside the array it is 0 (R47). -/
def State.element (s : State) (a : ArrayName) (i : Nat) : Byte :=
  if i < s.arraySize a then Mem.read (s.array a) i else 0

/-- What a host read of a byte returns (R47, R72, R295; log 5). -/
def State.readElement (s : State) (a : ArrayName) (i : Nat) : Byte :=
  if decide (i < s.arraySize a) && s.arrayUnsteady a then Config.freeByte s.draws
  else s.element a i

/-! ### Host actions -/

/-- A read changes nothing of the machine (R68); what it returned stands on the host port (log 6), and
one free value is counted as drawn (log 5). -/
def State.returnWord (s : State) (v : Word) : State := { s with portOut := v, draws := s.draws + 1 }

/-- What a read of slot `idx` lets the host rely on: once one of STATUS has returned BUSY = 0, every
result is visible (R72, "the only ordering point"; R295). No part of the machine changes (R68): `unseen` is
the model's record of that read (log 28). -/
def State.observe (s : State) (idx : BitVec 6) : State :=
  { s with unseen := if idx == Slot.STATUS && !s.status.busy then [] else s.unseen }

/-- The commands whose results await a read of STATUS, with that of OPC `opc` among them (R295). -/
def noteCommand (unseen : List (BitVec 4)) (opc : BitVec 4) : List (BitVec 4) :=
  if unseen.contains opc then unseen else opc :: unseen

/-- IllegalCommand, raised in the CMD write (R246). -/
def illegalCommand (s : State) : State := s.raise .illegalCommand {}

/-- A command is accepted: PENDING_CMD and BUSY (R241), and nothing else of the machine (R68); its
results now await a read of STATUS (R295; log 28). -/
def State.accept (s : State) (opc : BitVec 4) : State :=
  { s with
    pendingCmd := opc
    status := { s.status with busy := true }
    unseen := noteCommand s.unseen opc }

/-- Whether an instruction is a command that HEXLINK steps execute: OPC 0x1 to 0x8 (R25, R241). -/
def runsInSteps (i : Instr) : Bool :=
  match i with
  | .nop => false
  | .readRecord => true
  | .validate => true
  | .startAssembly => true
  | .nextBlock => true
  | .frame => true
  | .unframe => true
  | .rewind => true
  | .clearError => true
  | .softReset => false
  | .data _ => false
  | .eof _ => false
  | .esa _ => false
  | .ssa _ => false
  | .ela _ => false
  | .sla _ => false
  | .segSingle _ _ => false
  | .segFirst _ _ => false
  | .segMiddle _ => false
  | .segLast _ => false
  | .rxContinue _ _ => false

/-- `write(CMD, w)` (R241): while BUSY = 1 only SOFT_RESET is not dropped (R247); otherwise LAST_CMD is
written, an illegal word raises its error (R246), NOP and SOFT_RESET take effect at once, and any other
command is accepted. -/
def writeCommand (w : Word) (s : State) : Host.Outcome State Fault Refusal :=
  if s.status.busy then
    if w = 0x0000000F then exec .softReset s else .next s.drop
  else
    let s := { s with status := { s.status with lastCmd := w.extractLsb' 0 4 } }
    match decodeCommand w with
    | .error _ => .next (illegalCommand s)
    | .ok i => if runsInSteps i then .next (s.accept (w.extractLsb' 0 4)) else exec i s

/-- A write to a configuration register with BUSY = 0; a slot that is none ignores it (R26 to R29, R39). -/
def State.putConfig (s : State) (idx : BitVec 6) (v : Word) : State :=
  match idx.toNat with
  | 0x02 => { s.invalidate with cfg := { s.cfg with addrMode := v.extractLsb' 0 1 } }
  | 0x03 => { s.invalidate with cfg := { s.cfg with appStart := v } }
  | 0x04 => { s.invalidate with cfg := { s.cfg with blEnd := v } }
  | 0x05 => { s with cfg := { s.cfg with profile0 := v } }
  | 0x06 => { s with cfg := { s.cfg with opContinue := v.extractLsb' 0 8 } }
  | 0x07 => { s.invalidate with cfg := { s.cfg with srcLen := v } }
  | 0x08 => { s with cfg := { s.cfg with pktLen := v } }
  | _ => s

/-- The configuration registers' slots, 0x02 to 0x08 (R23). -/
def configSlot (idx : BitVec 6) : Bool := decide (0x02 ≤ idx.toNat) && decide (idx.toNat ≤ 0x08)

/-- A host write of a register slot (R241, R248, R249, R39). -/
def writeSlot (idx : BitVec 6) (v : Word) (s : State) : Host.Outcome State Fault Refusal :=
  if idx = Slot.CMD then writeCommand v s
  else if s.status.busy && configSlot idx then .next s.drop
  else .next (s.putConfig idx v)

/-- The array behind a host byte write. -/
def HostData.array (a : HostData) : ArrayName :=
  match a with
  | .src => .src
  | .pkt => .pkt

/-- A byte write to SRC or PKT with BUSY = 0; one to SRC invalidates (R249). -/
def State.putElement (s : State) (a : HostData) (i : Nat) (b : Byte) : State :=
  match a with
  | .src => { s.invalidate with src := Mem.write s.src i b }
  | .pkt => { s with pkt := Mem.write s.pkt i b }

/-- A host byte write (R47, R248): outside the array it is ignored (log 13). -/
def writeElement (a : HostData) (i : Nat) (b : Byte) (s : State) : State :=
  if s.arraySize a.array ≤ i then s
  else if s.status.busy then s.drop
  else s.putElement a i b

/-! ### Transport actions (R48, R240) -/

/-- The transport answers on TX: it consumes the wait and records the response; with no wait open it
is ignored. -/
def respondTx (r : TxResponse) (s : State) : State :=
  if s.status.txWait then
    { s with status := { s.status with txWait := false }, txIn := some r }
  else s

/-- The transport delivers on RX: it consumes the wait and records the delivery; with no wait open it
is ignored. -/
def deliverRx (d : RxDelivery) (s : State) : State :=
  if s.status.rxWait then
    { s with status := { s.status with rxWait := false }, rxIn := some d }
  else s

/-! ### HEXLINK steps -/

/-- When a HEXLINK step is enabled (R240). -/
def State.stepEnabled (s : State) : Bool :=
  s.status.busy && !s.status.txWait && !s.status.rxWait

/-- The pending command: PENDING_CMD is the OPC of the accepted command word (R45, R90). -/
def State.pending (s : State) : Except Reject Instr := decodeCommand (s.pendingCmd.setWidth 32)

/-- The command unit starts the pending command: the start of every NEXT_BLOCK clears BLK_VALID (R25),
its SequenceError, before which its own pseudocode changes nothing (R182, R264), included (R266; log 23).
The start of no other command writes anything its own pseudocode does not. -/
def State.startCommand (s : State) : State :=
  { s with status := { s.status with blkValid := s.status.blkValid && s.pendingCmd != 0x4 } }

/-- One HEXLINK step (R240): the pending command runs from where it stands. With no step enabled
nothing happens: the machine waits (log 2, 17). -/
def hexlinkStep (s : State) : Host.Outcome State Fault Refusal :=
  if s.stepEnabled then
    match s.pending with
    | .ok i => if runsInSteps i then exec i s.startCommand else .fault .noPendingCommand
    | .error _ => .fault .noPendingCommand
  else .next s

/-! ### Actions -/

/-- One action of the environment or of HEXLINK (R240), or the reset input (R49). -/
def perform (a : Action) (s : State) : Host.Outcome State Fault Refusal :=
  match a with
  | .read idx => .next ((s.observe idx).returnWord (s.readSlot idx))
  | .write idx v => writeSlot idx v s
  | .readb arr i => .next (s.returnWord ((s.readElement arr i).setWidth 32))
  | .writeb arr i b => .next (writeElement arr i b s)
  | .tx r => .next (respondTx r s)
  | .rx d => .next (deliverRx d s)
  | .hexlink => hexlinkStep s
  | .rst => .next (hardReset s)

/-- The next action: the first the environment has listed, or a HEXLINK step when it has listed none
(log 1). -/
def nextAction (s : State) : Host.Outcome State Fault Refusal :=
  match s.actions with
  | [] => hexlinkStep s
  | a :: rest => perform a { s with actions := rest }

/-! ### Placing one instruction for the next step (log 15) -/

/-- The command slot holds the accepted command `opc`, not yet begun, and a HEXLINK step comes next. -/
def State.withPending (s : State) (opc : BitVec 4) : State :=
  { s.accept opc with
    txIn := none
    rxIn := none
    status := { (s.accept opc).status with txWait := false, rxWait := false, lastCmd := opc }
    actions := .hexlink :: s.actions }

/-- A CMD write of `w` comes next, with no command running: how NOP, SOFT_RESET and illegal words run. -/
def State.withCommandWrite (s : State) (w : Word) : State :=
  { s with
    status := { s.status with busy := false, txWait := false, rxWait := false }
    actions := .write Slot.CMD w :: s.actions }

/-- The command word `w` is what the next step runs. -/
def State.withCommand (s : State) (w : Word) : State :=
  match decodeCommand w with
  | .ok i => if runsInSteps i then s.withPending (w.extractLsb' 0 4) else s.withCommandWrite w
  | .error _ => s.withCommandWrite w

/-- The record text is the whole source, CURSOR is at its start, and READ_RECORD is what the next
step runs. -/
def State.withRecord (s : State) (text : List Byte) : State :=
  State.withPending
    { s with
      src := Mem.ofBytes text
      cfg := { s.cfg with srcLen := BitVec.ofNat 32 text.length }
      rdr := { s.rdr with cursor := 0 } } 0x1

/-- A table row's word, 8 bits a record's TT byte and otherwise a CMD word, is what the next step
runs (log 15). -/
def State.withTableWord (s : State) (nbits w : Nat) : State :=
  if nbits = 8 then
    s.withRecord (encodeFields (BitVec.ofNat 8 w) (tableRecord (BitVec.ofNat 8 w)))
  else s.withCommand (BitVec.ofNat 32 w)

end Sys2Proof.Machine
end

