-- ==== Sys2Proof/Machine/Step.lean ====
section
/-! DEFINITION. One step of the machine, and how one instruction is placed so that the next step runs
it. Both call CommandUnit.lean. -/

namespace Sys2Proof.Machine

/-- One atomic action of R240: the next one the environment has listed, or a HEXLINK step. -/
def step (s : State) : Host.Outcome State Fault Refusal := nextAction s

/-- `s` with the instruction of a table row's word where the next step runs it (log 15). -/
def State.withFetchWord (s : State) (nbits w : Nat) : State := s.withTableWord nbits w

end Sys2Proof.Machine
end

