-- ==== Sys2Proof/Safety.lean ====
section
/-! DEFINITION. What a good state is, in the terms the claims use: the invariants the spec's rules give
the state between two actions, and a safe step. -/

namespace Sys2Proof.Machine

/-- Every array is in its canonical form. -/
def State.arraysCanonical (s : State) : Bool :=
  Mem.wf s.src && Mem.wf s.pkt && Mem.wf s.recOut.data && Mem.wf s.blkOut.data &&
  Mem.wf s.frm.txr && Mem.wf s.rx.rxr && Mem.wf s.rx.rxbuf && Mem.wf s.asm.buf &&
  Mem.wf s.asm.pendData

/-- Every array lists only indices it has (R40 to R42); REC_DATA beyond REC_INFO.LEN and BLK_DATA
beyond BLK_COUNT read 0 (R40). -/
def State.arraysSized (s : State) : Bool :=
  Mem.within s.params.srcCap s.src && Mem.within s.params.maxPacketLen s.pkt &&
  Mem.within s.recOut.len.toNat s.recOut.data && decide (s.recOut.len.toNat ≤ Config.maxRecData) &&
  Mem.within s.blkOut.count.toNat s.blkOut.data && decide (s.blkOut.count.toNat ≤ Config.blockSize) &&
  Mem.within Config.reportSize s.frm.txr && Mem.within Config.reportSize s.rx.rxr &&
  Mem.within s.params.maxRxLen s.rx.rxbuf && Mem.within Config.blockSize s.asm.buf &&
  Mem.within Config.maxRecData s.asm.pendData

/-- The command unit is in one of the four states of R250, with a pending command that runs in steps
while BUSY = 1 (R45); TX_WAIT belongs to FRAME and RX_WAIT to UNFRAME (R25); a recorded response or
delivery is one the next step resumes with (R240); and no value of `read_next` is in flight. -/
def State.unitLegal (s : State) : Bool :=
  (s.status.busy || (!s.status.txWait && !s.status.rxWait)) &&
  !(s.status.txWait && s.status.rxWait) &&
  (!s.status.busy || (decide (1 ≤ s.pendingCmd.toNat) && decide (s.pendingCmd.toNat ≤ 8))) &&
  (!s.status.txWait || s.pendingCmd == 5) && (!s.status.rxWait || s.pendingCmd == 6) &&
  (s.txIn.isNone || (s.status.busy && !s.status.txWait && s.pendingCmd == 5)) &&
  (s.rxIn.isNone || (s.status.busy && !s.status.rxWait && s.pendingCmd == 6)) &&
  s.ret == .idle

/-- SEG_BASE and LIN_BASE hold what R30 says: 0 or a multiple of 16 in 0x10000 to 0xF0000, and a
multiple of 0x10000. -/
def State.basesLegal (s : State) : Bool :=
  (s.rdr.segBase == 0 ||
    (decide (0x10000 ≤ s.rdr.segBase.toNat) && decide (s.rdr.segBase.toNat ≤ 0xF0000) &&
      decide (s.rdr.segBase.toNat % 16 = 0))) &&
  decide (s.rdr.linBase.toNat % 0x10000 = 0)

/-- The error registers are 0 while ERR = 0 and hold a code of R260 while ERR = 1 (R32, R265). -/
def State.errorsLegal (s : State) : Bool :=
  if s.status.err then decide (1 ≤ s.err.code.toNat) && decide (s.err.code.toNat ≤ 0x11)
  else s.err == {}

/-- VALIDATED and ASM_ACTIVE: at most one is set, and either means that the configuration VALIDATE
checked still stands (R181, R249); ASM_ACTIVE and ASM_DONE exclude each other (R25). -/
def State.runFlagsLegal (s : State) : Bool :=
  !(s.status.validated && s.status.asmActive) && !(s.status.asmActive && s.status.asmDone) &&
  (!(s.status.validated || s.status.asmActive) || s.configLegal)

/-- The Block Assembler's registers: their ranges (R35), and while a sequence runs, CURSOR within the
source (R22), the next block at APP_START + 32 * BLK_INDEX (R66, R193) with nothing placed, a pending
record that lies at or above it and below 2^32 (R188, R191), and the block just emitted, if any, full
and just below it (R193). -/
def State.assemblyLegal (s : State) : Bool :=
  decide (s.asm.p.toNat < Config.blockSize) && decide (s.asm.pendLen.toNat ≤ Config.maxRecData) &&
  (!s.asm.pendValid || decide (1 ≤ s.asm.pendLen.toNat)) &&
  (!s.status.blkValid || decide (1 ≤ s.blkOut.count.toNat)) &&
  (!s.status.asmActive ||
    (decide (s.rdr.cursor.toNat ≤ s.cfg.srcLen.toNat) && s.asm.p == 0 &&
      decide (s.asm.cbs.toNat = s.cfg.appStart.toNat + 32 * s.blkOut.index.toNat) &&
      decide (s.asm.cbs.toNat ≤ 4294967296) &&
      (!s.asm.pendValid ||
        (decide (s.asm.cbs.toNat ≤ s.asm.pendAddr.toNat) &&
          decide (s.asm.pendAddr.toNat + s.asm.pendLen.toNat ≤ 4294967296))) &&
      (!s.status.blkValid ||
        (decide (s.blkOut.count.toNat = Config.blockSize) &&
          decide (s.blkOut.start.toNat + 32 = s.asm.cbs.toNat)))))

/-- UNFRAME's counts (R38, R221): RX_COUNT ≤ RX_LEN ≤ MAX_RX_LEN, and nothing is counted before the
first report. -/
def State.reassemblyLegal (s : State) : Bool :=
  decide (s.rx.count.toNat ≤ s.rx.len.toNat) && decide (s.rx.len.toNat ≤ s.params.maxRxLen) &&
  (decide (s.rx.unfIndex ≠ 0) || s.rx.count == 0)

/-- While FRAME has a report out, or its answer, the packet and the markers are those FRAME accepted,
SEG_INDEX is below SEG_TOTAL = n(L), and TXR holds report SEG_INDEX (R211, R213). -/
def State.framingLegal (s : State) : Bool :=
  !(s.status.txWait || s.txIn.isSome) ||
    (markersDistinct s.cfg.markers && decide (s.cfg.pktLen.toNat ≤ s.params.maxPacketLen) &&
      decide (s.frm.segTotal.toNat = segmentCount s.cfg.pktLen.toNat) &&
      decide (s.frm.segIndex.toNat < s.frm.segTotal.toNat) &&
      (putReport s.frm.segIndex.toNat s.frm.segTotal.toNat s).frm.txr == s.frm.txr)

/-- The invariant of the machine. -/
def State.Inv (s : State) : Prop :=
  s.params.ok = true ∧ s.arraysCanonical = true ∧ s.arraysSized = true ∧ s.unitLegal = true ∧
  s.basesLegal = true ∧ s.errorsLegal = true ∧ s.runFlagsLegal = true ∧ s.assemblyLegal = true ∧
  s.reassemblyLegal = true ∧ s.framingLegal = true

/-- A step is safe when it answers a next state: no fault, no refusal. -/
def StepSafe (s : State) : Prop := ∃ t, step s = .next t

end Sys2Proof.Machine
end

