-- ==== Sys2Proof/Certificates/Slice0/Obligations.lean ====
section
/-! DEFINITION. The statements for the provers. A statement about a step writes `s0` for the state whose
first listed action has been taken. -/

open Sys2Proof Sys2Proof.Machine

namespace Sys2Proof.Machine

/-! ### Terms the statements use -/

/-- The state whose first listed action has been taken. -/
def State.popped (s : State) (rest : List Action) : State := { s with actions := rest }

/-- A byte array as a function: what the statements read. -/
def State.byteAt (s : State) (a : ArrayName) (i : Nat) : Byte := Mem.read (s.array a) i

/-- R91: the registers and arrays each command writes, by its OPC: its results. The ERR_* registers, 0x0D
to 0x11, stand in every row, since every command may write them. STATUS, SEG_INDEX and SEG_TOTAL, which
R295 exempts, are left out. -/
def commandResults : List (BitVec 4 × List (BitVec 6) × List ArrayName) :=
  [(0x1, [0x09, 0x0A, 0x0B, 0x0C, 0x0D, 0x0E, 0x0F, 0x10, 0x11, 0x12, 0x13], [.recData]),
   (0x2, [0x09, 0x0A, 0x0B, 0x0C, 0x0D, 0x0E, 0x0F, 0x10, 0x11, 0x14, 0x15, 0x16, 0x17], []),
   (0x3, [0x09, 0x0A, 0x0B, 0x0C, 0x0D, 0x0E, 0x0F, 0x10, 0x11, 0x18, 0x19, 0x1A, 0x1B, 0x1C, 0x1D],
    [.blkData]),
   (0x4, [0x09, 0x0A, 0x0B, 0x0C, 0x0D, 0x0E, 0x0F, 0x10, 0x11, 0x18, 0x19, 0x1A, 0x1B, 0x1C, 0x1D],
    [.blkData]),
   (0x5, [0x0D, 0x0E, 0x0F, 0x10, 0x11], [.txr]),
   (0x6, [0x0D, 0x0E, 0x0F, 0x10, 0x11, 0x20, 0x21], [.rxr, .rxbuf]),
   (0x7, [0x09, 0x0A, 0x0B, 0x0C, 0x0D, 0x0E, 0x0F, 0x10, 0x11], []),
   (0x8, [0x0D, 0x0E, 0x0F, 0x10, 0x11], []),
   (0xF, [0x09, 0x0A, 0x0B, 0x0C, 0x0D, 0x0E, 0x0F, 0x10, 0x11, 0x12, 0x13, 0x14, 0x15, 0x16, 0x17, 0x18,
      0x19, 0x1A, 0x1B, 0x1C, 0x1D, 0x20, 0x21], [.recData, .blkData, .txr, .rxr, .rxbuf])]

/-- Slot `idx` is a result of a command whose results await a read of STATUS (R295). -/
def State.AwaitedSlot (s : State) (idx : BitVec 6) : Prop :=
  ∃ row ∈ commandResults, row.1 ∈ s.unseen ∧ idx ∈ row.2.1

/-- Array `a` is a result of such a command. -/
def State.AwaitedArray (s : State) (a : ArrayName) : Prop :=
  ∃ row ∈ commandResults, row.1 ∈ s.unseen ∧ a ∈ row.2.2

/-- Whitespace, blank lines too (R121). -/
def White (ws : List Byte) : Prop := ∀ b ∈ ws, b = 0x20 ∨ b = 0x09 ∨ b = 0x0D ∨ b = 0x0A

/-- `line` starts with the text of record `x`, its digits of either case (R81), and what follows on the
line holds no line feed (R125). -/
def HoldsRecord (line : List Byte) (x : RecordType × Rec) : Prop :=
  decodeFields line = .ok (x.1.code, x.2) ∧ 0x0A ∉ line

/-- The source text `text` holds the records `xs` one a line, each behind whitespace (R121), and `rest`
is what stands behind their lines. A line ends with its line feed, the last also with the source
(R125). -/
inductive HoldsRecords : List Byte → List (RecordType × Rec) → List Byte → Prop
  | none (rest : List Byte) : HoldsRecords rest [] rest
  | line {ws line more rest : List Byte} {x : RecordType × Rec} {xs : List (RecordType × Rec)} :
      White ws → HoldsRecord line x → HoldsRecords more xs rest →
      HoldsRecords (ws ++ line ++ 0x0A :: more) (x :: xs) rest
  | last {ws line : List Byte} {x : RecordType × Rec} :
      White ws → HoldsRecord line x → HoldsRecords (ws ++ line) [x] []

/-- Why `read_next` rejects what stands at `text`, in addressing variant `mode`: the code of its error. -/
inductive Rejects (mode : BitVec 1) (text : List Byte) : Byte → Prop
  /-- the first byte is neither whitespace nor `:` (R121) -/
  | noColon {b : Byte} {more : List Byte} : text = b :: more → ¬ White [b] → b ≠ 0x3A →
      Rejects mode text 0x01
  /-- the record is cut or holds a character that is no hex digit (R122) -/
  | badText : decodeFields text = .error .truncated ∨ decodeFields text = .error .badHexDigit →
      Rejects mode text 0x01
  /-- the checksum is wrong, whatever the type (R126) -/
  | badChecksum {tt : Byte} {r : Rec} : decodeFields text = .ok (tt, r) →
      checksumGood tt r = false → Rejects mode text 0x02
  /-- the type is none of 0x00 to 0x05 (R127) -/
  | unknownType {tt : Byte} {r : Rec} : decodeFields text = .ok (tt, r) →
      checksumGood tt r = true → 5 < tt.toNat → Rejects mode text 0x03
  /-- LL is not legal for the type (R128) -/
  | badLength {t : RecordType} {r : Rec} : decodeFields text = .ok (t.code, r) →
      checksumGood t.code r = true →
      (64 < r.data.length ∨ (t = .eof ∧ r.data.length ≠ 0) ∨
        ((t = .esa ∨ t = .ela) ∧ r.data.length ≠ 2)) → Rejects mode text 0x04
  /-- an ESA value out of its range in variant A (R134) -/
  | badSegment {r : Rec} {d0 d1 : Byte} : decodeFields text = .ok (0x02, r) →
      checksumGood 0x02 r = true → r.data = [d0, d1] → mode = 0 →
      (d0.toNat * 256 + d1.toNat < 0x1000 ∨ 0xF000 < d0.toNat * 256 + d1.toNat) →
      Rejects mode text 0x05

/-- A record every check of R123 passes, in addressing variant `mode`. -/
def Passes (mode : BitVec 1) (x : RecordType × Rec) : Prop :=
  x.2.wf = true ∧ checksumGood x.1.code x.2 = true ∧ lengthLegal x.1 x.2.data.length = true ∧
  (x.1 = .esa → mode = 0 → Config.esaMin ≤ extValue x.2 ∧ extValue x.2 ≤ Config.esaMax)

/-- An end-of-file marker: a record of type 0x00 or 0x01 with no data (R120). -/
def IsMarker (x : RecordType × Rec) : Prop := x.2.data = [] ∧ (x.1 = .data ∨ x.1 = .eof)

/-- The bases after a record (R134, R136, R137), as a pair (SEG_BASE, LIN_BASE). -/
def basesAfter (mode : BitVec 1) (b : Word × Word) (x : RecordType × Rec) : Word × Word :=
  match x.1 with
  | .esa => if mode = 0 then (extValue x.2 <<< 4, b.2) else (b.1, extLow x.2 <<< 16)
  | .ela => if mode = 0 then (b.1, extValue x.2 <<< 16) else (b.1, extLow x.2 <<< 16)
  | .data => b
  | .eof => b
  | .ssa => b
  | .sla => b

/-- The records `read_next` returns from `xs`, with resolved addresses (R120, R131). -/
def returnedFrom (mode : BitVec 1) (b : Word × Word) (xs : List (RecordType × Rec)) :
    List (Word × List Byte) :=
  match xs with
  | [] => []
  | x :: rest =>
    if x.1 = .data ∨ x.1 = .eof then
      (b.1 + b.2 + lineAddress x.2, x.2.data) :: returnedFrom mode b rest
    else returnedFrom mode (basesAfter mode b x) rest

/-- An image every check of VALIDATE passes: records `body`, none an end-of-file marker, then the
marker `e`; the first record returned is at APP_START (R162), and every data record above BL_END
(R163). -/
structure GoodImage (mode : BitVec 1) (appStart blEnd : Word) (body : List (RecordType × Rec))
    (e : RecordType × Rec) : Prop where
  bodyPasses : ∀ x ∈ body, Passes mode x ∧ ¬ IsMarker x
  endPasses : Passes mode e ∧ IsMarker e
  startsAtAppStart : ((returnedFrom mode (0, 0) (body ++ [e])).head?).map Prod.fst = some appStart
  aboveBootloader : ∀ y ∈ returnedFrom mode (0, 0) body, blEnd < y.1

end Sys2Proof.Machine

/-! ### Encodings -/

/-- Every well-formed instruction is read back from its encoding (R80, R87, R88, R90). A Last report is
read with the number of packet bytes still to come (log 14). -/
def Obligations.DecodeOfEncodeIsTheInstruction : Prop :=
  ∀ (m : Markers) (remaining : Nat) (i : Instr),
    markersDistinct m = true → i.wf = true →
    (∀ chunk, i = .segLast chunk → remaining = chunk.length) →
    decode m remaining (encode m i) = .ok i

/-- Words written out from R80, R81, R82, R87, R88 and R90, a command, two records, an outbound and an
inbound report among them, decode to the instruction they stand for. -/
def Obligations.WrittenOutWordsDecode : Prop :=
  decodeCommand 0x00000004 = .ok .nextBlock ∧
  decodeCommand 0x0000000F = .ok .softReset ∧
  decodeRecord [0x3A, 0x30, 0x32, 0x30, 0x30, 0x30, 0x30, 0x30, 0x34, 0x30, 0x30, 0x30, 0x31, 0x46, 0x39]
    = .ok (.ela { ah := 0x00, al := 0x00, data := [0x00, 0x01], cc := 0xF9 }) ∧
  decodeRecord [0x3A, 0x30, 0x31, 0x46, 0x46, 0x46, 0x46, 0x30, 0x30, 0x42, 0x62, 0x34, 0x36]
    = .ok (.data { ah := 0xFF, al := 0xFF, data := [0xBB], cc := 0x46 }) ∧
  decodeOutbound { single := 0x11, first := 0x12, middle := 0x13, last := 0x14, cont := 0x15 } 0
      ([0x00, 0x11, 0x00, 0x00, 0x00, 0x03, 0xAA, 0xBB, 0xCC] ++ List.replicate 56 0)
    = .ok (.segSingle 3 [0xAA, 0xBB, 0xCC]) ∧
  decodeInbound { single := 0x11, first := 0x12, middle := 0x13, last := 0x14, cont := 0x15 }
      ([0x00, 0x15, 0xAA, 0xBB] ++ List.replicate 53 0 ++ [0xCC, 0xFF] ++ List.replicate 6 0)
    = .ok (.rxContinue ([0xAA, 0xBB] ++ List.replicate 53 0 ++ [0xCC]) 0xFF)

/-- R90, R246: the words that are no command are those with CMD[31:4] ≠ 0 and those with OPC 0x9 to
0xE. -/
def Obligations.IllegalCommandWordsAreRejected : Prop :=
  ∀ w : Word,
    decodeCommand w = .error .illegalCommand ↔
      (w.extractLsb' 4 28 ≠ 0 ∨
        (9 ≤ (w.extractLsb' 0 4).toNat ∧ (w.extractLsb' 0 4).toNat ≤ 14))

/-- R84: the check is that the bytes LL, AH, AL, TT, the data bytes and CC sum to 0 mod 256; equivalently
CC is the expected checksum `(256 - S mod 256) mod 256`, with which every record passes. -/
def Obligations.ChecksumIsTheByteSumMod256 : Prop :=
  ∀ (tt : Byte) (r : Rec), r.wf = true →
    (checksumGood tt r = true ↔
      (r.data.length + r.ah.toNat + r.al.toNat + tt.toNat + (r.data.map BitVec.toNat).sum +
        r.cc.toNat) % 256 = 0) ∧
    (r.expected tt).toNat =
      (256 - (r.data.length + r.ah.toNat + r.al.toNat + tt.toNat +
        (r.data.map BitVec.toNat).sum) % 256) % 256 ∧
    checksumGood tt { r with cc := r.expected tt } = true

/-! ### Command unit and host port -/

/-- A HEXLINK step runs the pending command (R240): when it is enabled and comes next, the step is exec
of the command that PENDING_CMD names, at the state whose listed action has been taken. Where that command
is NEXT_BLOCK the step clears BLK_VALID first (R25), the model's reading (log 23). -/
def Obligations.StepRunsThePendingCommand : Prop :=
  ∀ (s : State) (i : Instr),
    s.status.busy = true → s.status.txWait = false → s.status.rxWait = false →
    decodeCommand (s.pendingCmd.setWidth 32) = .ok i →
    1 ≤ s.pendingCmd.toNat → s.pendingCmd.toNat ≤ 8 →
    let s0 :=
      if i = .nextBlock then { s with status := { s.status with blkValid := false } } else s
    (s.actions = [] → step s = exec i s0) ∧
    (∀ rest, s.actions = .hexlink :: rest → step s = exec i (s0.popped rest))

/-- R241, R246, R247: a CMD write while BUSY = 1 is dropped unless it is SOFT_RESET; otherwise LAST_CMD
takes CMD[3:0], a word with CMD[31:4] ≠ 0 or OPC 0x9 to 0xE raises IllegalCommand, NOP and SOFT_RESET run at
once, and any other command is accepted (the model's own `unseen` aside, log 28). -/
def Obligations.CommandWriteRunsAcceptsOrDrops : Prop :=
  ∀ (s : State) (w : Word) (rest : List Action), s.actions = .write Slot.CMD w :: rest →
    let s0 := s.popped rest
    let s1 := { s0 with status := { s0.status with lastCmd := w.extractLsb' 0 4 } }
    (s.status.busy = true → w = 0x0000000F → step s = exec .softReset s0) ∧
    (s.status.busy = true → w ≠ 0x0000000F →
      step s = .next { s0 with status := { s0.status with cmdDropped := true } }) ∧
    (s.status.busy = false → w = 0x00000000 → step s = exec .nop s1) ∧
    (s.status.busy = false → w = 0x0000000F → step s = exec .softReset s1) ∧
    (s.status.busy = false → 1 ≤ w.toNat → w.toNat ≤ 8 →
      ∃ u, step s = .next { s1 with
        pendingCmd := w.extractLsb' 0 4, status := { s1.status with busy := true }, unseen := u }) ∧
    (s.status.busy = false →
      (w.extractLsb' 4 28 ≠ 0 ∨
        (9 ≤ (w.extractLsb' 0 4).toNat ∧ (w.extractLsb' 0 4).toNat ≤ 14)) →
      step s = .next { s1 with
        err := { code := 0x10 }
        status := { s1.status with
          err := true, asmActive := false, asmDone := false, txWait := false, rxWait := false,
          busy := false } })

/-- R248: while BUSY = 1 a write to a configuration register, or a byte write to SRC or PKT, is dropped
and sets CMD_DROPPED. That a byte write at or beyond the array's size, which R47 has ignored,
does not set it is the model's choice (log 13). -/
def Obligations.BusyHostWritesAreDropped : Prop :=
  ∀ (s : State) (rest : List Action), s.status.busy = true →
    (∀ idx v, s.actions = .write idx v :: rest → 2 ≤ idx.toNat → idx.toNat ≤ 8 →
      step s = .next { s.popped rest with status := { s.status with cmdDropped := true } }) ∧
    (∀ a i b, s.actions = .writeb a i b :: rest → i < s.arraySize a.array →
      step s = .next { s.popped rest with status := { s.status with cmdDropped := true } }) ∧
    (∀ a i b, s.actions = .writeb a i b :: rest → s.arraySize a.array ≤ i →
      step s = .next (s.popped rest))

/-- R248, R249: with BUSY = 0 a configuration write takes effect at once, reserved bits dropped, and a
write to MODE, APP_START, BL_END or SRC_LEN also clears VALIDATED, ASM_ACTIVE and ASM_DONE; one to
PROFILE0, PROFILE1 or PKT_LEN clears nothing. -/
def Obligations.ConfigurationWritesTakeEffect : Prop :=
  ∀ (s : State) (v : Word) (rest : List Action), s.status.busy = false →
    let s0 := s.popped rest
    let cleared : Status :=
      { s.status with validated := false, asmActive := false, asmDone := false }
    (s.actions = .write Slot.MODE v :: rest →
      step s = .next { s0 with status := cleared,
                               cfg := { s.cfg with addrMode := v.extractLsb' 0 1 } }) ∧
    (s.actions = .write Slot.APP_START v :: rest →
      step s = .next { s0 with status := cleared, cfg := { s.cfg with appStart := v } }) ∧
    (s.actions = .write Slot.BL_END v :: rest →
      step s = .next { s0 with status := cleared, cfg := { s.cfg with blEnd := v } }) ∧
    (s.actions = .write Slot.SRC_LEN v :: rest →
      step s = .next { s0 with status := cleared, cfg := { s.cfg with srcLen := v } }) ∧
    (s.actions = .write Slot.PKT_LEN v :: rest →
      step s = .next { s0 with cfg := { s.cfg with pktLen := v } }) ∧
    (s.actions = .write Slot.PROFILE0 v :: rest →
      step s = .next { s0 with cfg := { s.cfg with profile0 := v } }) ∧
    (s.actions = .write Slot.PROFILE1 v :: rest →
      step s = .next { s0 with cfg := { s.cfg with opContinue := v.extractLsb' 0 8 } })

/-- R39: a write to a read-only or reserved slot is ignored at all times and has no other effect. -/
def Obligations.ReadOnlyAndReservedWritesAreIgnored : Prop :=
  ∀ (s : State) (idx : BitVec 6) (v : Word) (rest : List Action),
    s.actions = .write idx v :: rest → (idx = Slot.STATUS ∨ 9 ≤ idx.toNat) →
    step s = .next (s.popped rest)

/-- R249, R68: a byte write to SRC with BUSY = 0 writes that byte and no other and clears VALIDATED,
ASM_ACTIVE and ASM_DONE; one to PKT writes that byte and no other and clears nothing. One at or beyond
the array's size writes nothing (R47); that one to SRC then clears none of the flags is the model's
choice (log 13). -/
def Obligations.ByteWritesWriteOneByte : Prop :=
  ∀ (s : State) (i : Nat) (b : Byte) (rest : List Action),
    s.arraysCanonical = true → s.status.busy = false →
    (s.actions = .writeb .src i b :: rest → i < s.params.srcCap →
      ∃ t, step s = .next t ∧
        t = { s.popped rest with
              src := t.src
              status := { s.status with validated := false, asmActive := false, asmDone := false } } ∧
        ∀ j, t.byteAt .src j = if j = i then b else s.byteAt .src j) ∧
    (s.actions = .writeb .pkt i b :: rest → i < s.params.maxPacketLen →
      ∃ t, step s = .next t ∧ t = { s.popped rest with pkt := t.pkt } ∧
        ∀ j, t.byteAt .pkt j = if j = i then b else s.byteAt .pkt j) ∧
    (∀ a, s.actions = .writeb a i b :: rest → s.arraySize a.array ≤ i →
      step s = .next (s.popped rest))

/-- R68, R72, R295: a host read changes no state of the machine (the model's port value, draw counter and
record `unseen` aside). STATUS, SEG_INDEX and SEG_TOTAL, and TXR while TX_WAIT = 1, read true at any time.
Any other register, and any other array than SRC and PKT, is drawn freely while BUSY = 1, and where it is a
result of a command also until a read of STATUS has returned BUSY = 0 after that command's CMD write; it
reads true otherwise. A CMD write that accepts a command, and SOFT_RESET, start that wait, and a read of
STATUS that returns BUSY = 0 ends it for all. What counts as a result, that of SOFT_RESET too, is the
model's reading (log 28). It is the model's choice (log 5) that while BUSY = 1 CMD and the reserved slots
read 0 (R24, R39), an index beyond an array reads 0 (R47), and SRC and PKT, which no command writes, read
true. -/
def Obligations.HostReadsChangeNothing : Prop :=
  ∀ (s : State) (rest : List Action),
    (∀ idx, s.actions = .read idx :: rest →
      ∃ v, step s = .next { s.popped rest with
          portOut := v, draws := s.draws + 1
          unseen := if idx = Slot.STATUS ∧ s.status.busy = false then [] else s.unseen } ∧
        (idx = Slot.STATUS ∨ idx = Slot.SEG_INDEX ∨ idx = Slot.SEG_TOTAL ∨
          (s.status.busy = false ∧ ¬ s.AwaitedSlot idx) → v = s.register idx) ∧
        (idx = Slot.CMD ∨ 0x22 ≤ idx.toNat → v = 0) ∧
        (idx ∉ [Slot.CMD, Slot.STATUS, Slot.SEG_INDEX, Slot.SEG_TOTAL] → idx.toNat < 0x22 →
          s.status.busy = true ∨ s.AwaitedSlot idx → v = Config.freeWord s.draws)) ∧
    (∀ a i, s.actions = .readb a i :: rest →
      ∃ b : Byte, step s = .next { s.popped rest with portOut := b.setWidth 32, draws := s.draws + 1 } ∧
        (s.arraySize a ≤ i → b = 0) ∧
        ((s.status.busy = false ∧ ¬ s.AwaitedArray a) ∨ (a = .txr ∧ s.status.txWait = true) ∨
          a = .src ∨ a = .pkt → i < s.arraySize a → b = s.byteAt a i) ∧
        (a ≠ .src → a ≠ .pkt → ¬ (a = .txr ∧ s.status.txWait = true) → i < s.arraySize a →
          s.status.busy = true ∨ s.AwaitedArray a → b = Config.freeByte s.draws)) ∧
    (∀ w, s.actions = .write Slot.CMD w :: rest → s.status.busy = false → 1 ≤ w.toNat → w.toNat ≤ 8 →
      ∃ t, step s = .next t ∧ ∀ c, c ∈ t.unseen ↔ c = w.extractLsb' 0 4 ∨ c ∈ s.unseen) ∧
    (∃ t, exec .softReset s = .next t ∧ t.unseen = [0xF])

/-- R23: the register that stands at each slot, 0x00 to 0x21, and the reserved slots behind them, which
hold 0 as write-only CMD does (R24, R39); and of the packed registers STATUS, ERR_CKS, REC_INFO and
ASM_STATE with ASM_CBS (R25, R32, R33, R35) each field as bits of the word, every other bit 0. -/
def Obligations.PackedRegisterLayout : Prop :=
  ∀ s : State,
    s.register 0x00 = 0 ∧
    s.register 0x02 = s.cfg.addrMode.setWidth 32 ∧
    s.register 0x03 = s.cfg.appStart ∧
    s.register 0x04 = s.cfg.blEnd ∧
    s.register 0x05 = s.cfg.profile0 ∧
    s.register 0x06 = s.cfg.opContinue.setWidth 32 ∧
    s.register 0x07 = s.cfg.srcLen ∧
    s.register 0x08 = s.cfg.pktLen ∧
    s.register 0x09 = s.rdr.cursor ∧
    s.register 0x0A = s.rdr.segBase ∧
    s.register 0x0B = s.rdr.linBase ∧
    s.register 0x0C = s.rdr.lines ∧
    s.register 0x0D = s.err.code.setWidth 32 ∧
    s.register 0x0E = s.err.line ∧
    s.register 0x0F = s.err.offset ∧
    s.register 0x10 = s.err.addr ∧
    s.register 0x12 = s.recOut.addr ∧
    s.register 0x14 = s.valOut.lines ∧
    s.register 0x15 = s.valOut.endAddr ∧
    s.register 0x16 = s.valOut.endCount.setWidth 32 ∧
    s.register 0x17 = s.valOut.xferSize ∧
    s.register 0x1A = s.asm.pendAddr ∧
    s.register 0x1B = s.blkOut.start ∧
    s.register 0x1C = s.blkOut.count.setWidth 32 ∧
    s.register 0x1D = s.blkOut.index ∧
    s.register 0x1E = s.frm.segIndex ∧
    s.register 0x1F = s.frm.segTotal ∧
    s.register 0x20 = s.rx.len ∧
    s.register 0x21 = s.rx.count ∧
    (∀ idx : BitVec 6, 0x22 ≤ idx.toNat → s.register idx = 0) ∧
    (s.register 0x01).getLsbD 0 = s.status.busy ∧
    (s.register 0x01).getLsbD 1 = s.status.err ∧
    (s.register 0x01).getLsbD 2 = s.status.cmdDropped ∧
    (s.register 0x01).getLsbD 3 = s.status.validated ∧
    (s.register 0x01).getLsbD 4 = s.status.asmActive ∧
    (s.register 0x01).getLsbD 5 = s.status.asmDone ∧
    (s.register 0x01).getLsbD 6 = s.status.blkValid ∧
    (s.register 0x01).getLsbD 7 = s.status.txWait ∧
    (s.register 0x01).getLsbD 8 = s.status.rxWait ∧
    (s.register 0x01).getLsbD 9 = s.status.xferDone ∧
    (s.register 0x01).extractLsb' 10 2 = s.status.recKind ∧
    (s.register 0x01).extractLsb' 12 4 = s.status.lastCmd ∧
    (s.register 0x01).extractLsb' 16 16 = 0 ∧
    (s.register 0x13).extractLsb' 0 8 = s.recOut.len ∧
    (s.register 0x13).extractLsb' 8 8 = s.recOut.type ∧
    (s.register 0x13).extractLsb' 16 8 = s.recOut.cks ∧
    (s.register 0x13).extractLsb' 24 8 = 0 ∧
    (s.register 0x19).extractLsb' 0 6 = s.asm.p ∧
    (s.register 0x19).extractLsb' 6 2 = 0 ∧
    (s.register 0x19).getLsbD 8 = s.asm.pendValid ∧
    (s.register 0x19).extractLsb' 9 7 = 0 ∧
    (s.register 0x19).extractLsb' 16 7 = s.asm.pendLen ∧
    (s.register 0x19).getLsbD 23 = false ∧
    (s.register 0x19).getLsbD 24 = s.asm.cbs.getLsbD 32 ∧
    (s.register 0x19).extractLsb' 25 7 = 0 ∧
    s.register 0x18 = s.asm.cbs.extractLsb' 0 32 ∧
    (s.register 0x11).extractLsb' 0 8 = s.err.expected ∧
    (s.register 0x11).extractLsb' 8 8 = s.err.actual ∧
    (s.register 0x11).extractLsb' 16 16 = 0

/-- R48, R240 (R250 is the spec's inference): a response or delivery that arrives while the matching
wait flag is 0 is ignored; otherwise it consumes the wait and is recorded for the next step (log 8), and
nothing else changes. It is the model's choice (log 1, log 17) that with no action listed and no step
enabled (BUSY = 0, or a wait open) the machine answers the same state. -/
def Obligations.TransportActionsAndWaiting : Prop :=
  ∀ s : State,
    (∀ r rest, s.actions = .tx r :: rest →
      step s = .next (if s.status.txWait
        then { s.popped rest with status := { s.status with txWait := false }, txIn := some r }
        else s.popped rest)) ∧
    (∀ d rest, s.actions = .rx d :: rest →
      step s = .next (if s.status.rxWait
        then { s.popped rest with status := { s.status with rxWait := false }, rxIn := some d }
        else s.popped rest)) ∧
    (s.actions = [] →
      (s.status.busy = false ∨ s.status.txWait = true ∨ s.status.rxWait = true) → step s = .next s)

/-- R290, R49: the reset input gives every register, flag and hidden field its reset value, whatever
runs; the parameters stay, and SRC and PKT hold bytes within their sizes that nothing constrains. -/
def Obligations.ResetInputResets : Prop :=
  ∀ (s : State) (rest : List Action), s.actions = .rst :: rest →
    ∃ t, step s = .next t ∧
      t = { State.reset with
            params := s.params, src := t.src, pkt := t.pkt
            actions := rest, portOut := s.portOut, draws := t.draws } ∧
      (∀ i, s.params.srcCap ≤ i → t.byteAt .src i = 0) ∧
      (∀ i, s.params.maxPacketLen ≤ i → t.byteAt .pkt i = 0)

/-! ### Errors and control commands -/

/-- R265: the error entry. ERR is set, ERR_CODE, by the code table of R260 for all 17 kinds, and the
context are recorded over any earlier ones, ASM_ACTIVE, ASM_DONE, TX_WAIT, RX_WAIT and BUSY are cleared,
and nothing else changes. -/
def Obligations.ErrorEntryRecordsTheError : Prop :=
  let codes : List (ErrKind × Byte) :=
    [(.syntaxError, 0x01), (.checksumError, 0x02), (.unknownRecordType, 0x03),
     (.recordLengthError, 0x04), (.segmentRangeError, 0x05), (.invalidStartAddress, 0x06),
     (.protectedAddressViolation, 0x07), (.noEndOfFile, 0x08), (.addressOrderError, 0x09),
     (.segmentRejected, 0x0A), (.transportTimeout, 0x0B), (.transportFailure, 0x0C),
     (.robotNoResponse, 0x0D), (.configError, 0x0E), (.sequenceError, 0x0F),
     (.illegalCommand, 0x10), (.packetLengthError, 0x11)]
  ∀ (k : ErrKind) (info : ErrInfo) (s : State), ∃ code, (k, code) ∈ codes ∧
    s.raise k info =
      { s with
        err := { code := code, line := info.line, offset := info.offset, addr := info.addr,
                 expected := info.expected, actual := info.actual }
        status := { s.status with
          err := true, asmActive := false, asmDone := false, txWait := false, rxWait := false,
          busy := false } }

/-- R242: NOP writes LAST_CMD and nothing else, at once; written while BUSY = 1 it is dropped. -/
def Obligations.NopWritesOnlyLastCmd : Prop :=
  ∀ s : State,
    exec .nop s = .next { s with status := { s.status with lastCmd := 0 } } ∧
    ∀ rest, s.actions = .write Slot.CMD 0x00000000 :: rest →
      step s = .next { s.popped rest with
        status := if s.status.busy then { s.status with cmdDropped := true }
          else { s.status with lastCmd := 0 } }

/-- R243: REWIND resets the Record Reader, clears REC_KIND, ASM_ACTIVE and ASM_DONE, and completes;
everything else stays. -/
def Obligations.RewindResetsTheReader : Prop :=
  ∀ s : State,
    exec .rewind s = .next { s with
      rdr := { cursor := 0, segBase := 0, linBase := 0, lines := 0 }
      status := { s.status with recKind := 0, asmActive := false, asmDone := false, busy := false } }

/-- R244: CLEAR_ERROR clears ERR, CMD_DROPPED, the error registers and the run flags, and completes;
everything else stays. -/
def Obligations.ClearErrorClearsErrorAndRunFlags : Prop :=
  ∀ s : State,
    exec .clearError s = .next { s with
      err := { code := 0, line := 0, offset := 0, addr := 0, expected := 0, actual := 0 }
      status := { s.status with
        err := false, cmdDropped := false, validated := false, asmActive := false, asmDone := false,
        blkValid := false, xferDone := false, busy := false } }

/-- R245, R291: SOFT_RESET, written whether BUSY is 0 or 1, gives every register, flag and hidden field
its reset value but the configuration, SRC and PKT, and sets LAST_CMD to 0xF. (The model's own `actions`,
`portOut` and `draws` stay, log 27; of its `unseen` this says nothing, log 28.) -/
def Obligations.SoftResetKeepsConfigurationAndHostData : Prop :=
  ∀ s : State,
    (∃ u, exec .softReset s = .next { State.reset with
      params := s.params, cfg := s.cfg, src := s.src, pkt := s.pkt
      status := { lastCmd := 0xF }
      actions := s.actions, portOut := s.portOut, draws := s.draws, unseen := u }) ∧
    ∀ rest, s.actions = .write Slot.CMD 0x0000000F :: rest →
      step s = exec .softReset (s.popped rest)

/-! ### Record types -/

/-- R125, R129: accepting a record at CURSOR moves CURSOR past its characters and its tail, up to and
including the next LF or to SRC_LEN, and counts it in LINES, which saturates; nothing else changes. -/
def Obligations.AcceptingARecordEndsItsLine : Prop :=
  ∀ (r : Rec) (s : State),
    s.rdr.cursor.toNat + (11 + 2 * r.data.length) ≤ s.cfg.srcLen.toNat →
    ∃ c l : Word,
      acceptRecord r s = { s with rdr := { s.rdr with cursor := c, lines := l } } ∧
      l.toNat = min (s.rdr.lines.toNat + 1) 0xFFFFFFFF ∧
      s.rdr.cursor.toNat + (11 + 2 * r.data.length) ≤ c.toNat ∧ c.toNat ≤ s.cfg.srcLen.toNat ∧
      (∀ i, s.rdr.cursor.toNat + (11 + 2 * r.data.length) ≤ i → i + 1 < c.toNat →
        s.byteAt .src i ≠ 0x0A) ∧
      (c.toNat = s.cfg.srcLen.toNat ∨
        (s.rdr.cursor.toNat + (11 + 2 * r.data.length) < c.toNat ∧
          s.byteAt .src (c.toNat - 1) = 0x0A))

/-- R132, R133, R131: a DATA record that passes its checks is accepted and returned at the address
`(SEG_BASE + LIN_BASE + 256*AH + AL) mod 2^32`, as an end-of-file marker when LL = 0; an EOF record is
accepted and returned as an end-of-file marker. Nothing else changes. (`ret` is the model's hand-off to
the calling command, log 7.) -/
def Obligations.DataAndEofRecordsAreReturned : Prop :=
  ∀ (r : Rec) (s : State),
    let addr := BitVec.ofNat 32
      (s.rdr.segBase.toNat + s.rdr.linBase.toNat + r.ah.toNat * 256 + r.al.toNat)
    (checksumGood 0x00 r = true → 1 ≤ r.data.length → r.data.length ≤ 64 →
      exec (.data r) s =
        .next { acceptRecord r s with ret := .data addr s.rdr.cursor r.data r.cc }) ∧
    (checksumGood 0x00 r = true → r.data = [] →
      exec (.data r) s = .next { acceptRecord r s with ret := .eof addr s.rdr.cursor 0x00 r.cc }) ∧
    (checksumGood 0x01 r = true → r.data = [] →
      exec (.eof r) s = .next { acceptRecord r s with ret := .eof addr s.rdr.cursor 0x01 r.cc })

/-- R134, R136: in variant A an ESA record of value v in [0x1000, 0xF000] sets SEG_BASE to 16*v and
leaves LIN_BASE, and another value raises SegmentRangeError with ERR_ADDR = v, the record not accepted;
an ELA record of any value v sets LIN_BASE to 65536*v and leaves SEG_BASE. -/
def Obligations.ExtendedRecordsInVariantA : Prop :=
  ∀ (r : Rec) (s : State) (d0 d1 : Byte), r.data = [d0, d1] → s.cfg.addrMode = 0 →
    let v := d0.toNat * 256 + d1.toNat
    (checksumGood 0x02 r = true → 0x1000 ≤ v → v ≤ 0xF000 →
      exec (.esa r) s = .next { acceptRecord r s with
        rdr := { (acceptRecord r s).rdr with segBase := BitVec.ofNat 32 (v * 16) } }) ∧
    (checksumGood 0x02 r = true → (v < 0x1000 ∨ 0xF000 < v) →
      exec (.esa r) s = .next
        { s.raise .segmentRangeError
            { line := s.rdr.lines + 1, offset := s.rdr.cursor, addr := BitVec.ofNat 32 v } with
          ret := .raised }) ∧
    (checksumGood 0x04 r = true →
      exec (.ela r) s = .next { acceptRecord r s with
        rdr := { (acceptRecord r s).rdr with linBase := BitVec.ofNat 32 (v * 65536) } })

/-- R137: in variant B an ESA or ELA record sets LIN_BASE to 65536 times the low byte d[1], with no
range check, and leaves SEG_BASE. -/
def Obligations.ExtendedRecordsInVariantB : Prop :=
  ∀ (r : Rec) (s : State) (d0 d1 : Byte), r.data = [d0, d1] → s.cfg.addrMode = 1 →
    let t := { acceptRecord r s with
      rdr := { (acceptRecord r s).rdr with linBase := BitVec.ofNat 32 (d1.toNat * 65536) } }
    (checksumGood 0x02 r = true → exec (.esa r) s = .next t) ∧
    (checksumGood 0x04 r = true → exec (.ela r) s = .next t)

/-- R135, R138: an SSA or SLA record that passes its checks is accepted and changes nothing else. -/
def Obligations.StartRecordsOnlyCount : Prop :=
  ∀ (r : Rec) (s : State), r.data.length ≤ 64 →
    (checksumGood 0x03 r = true → exec (.ssa r) s = .next (acceptRecord r s)) ∧
    (checksumGood 0x05 r = true → exec (.sla r) s = .next (acceptRecord r s))

/-- R126, R128, R140, R130: a record of any known type with a wrong checksum raises ChecksumError with
the expected and the actual checksum; one with a right checksum and an illegal LL raises
RecordLengthError; each with ERR_LINE = LINES + 1 and ERR_OFFSET at the record, which stays unread. (The
order of the checks, R140, is the spec's inference.) -/
def Obligations.RecordChecksRaiseTheirErrors : Prop :=
  ∀ (t : RecordType) (r : Rec) (s : State),
    (checksumGood t.code r = false →
      exec (t.instr r) s = .next
        { s.raise .checksumError
            { line := s.rdr.lines + 1, offset := s.rdr.cursor,
              expected := r.expected t.code, actual := r.cc } with ret := .raised }) ∧
    (checksumGood t.code r = true →
      (64 < r.data.length ∨ (t = .eof ∧ r.data.length ≠ 0) ∨
        ((t = .esa ∨ t = .ela) ∧ r.data.length ≠ 2)) →
      exec (t.instr r) s = .next
        { s.raise .recordLengthError { line := s.rdr.lines + 1, offset := s.rdr.cursor } with
          ret := .raised })

/-! ### read_next and READ_RECORD -/

/-- R121, R123: `read_next` skips whitespace; then the record whose text stands there, its hex digits of
either case (R81), takes its effect at its own offset, and if it was a control record the reading goes on
behind it; a record of type 0x06 to 0xFF raises ChecksumError or, its checksum being right, UnknownRecordType (R127; R140 is the spec's
inference). -/
def Obligations.ReadNextRunsTheRecordAtCursor : Prop :=
  ∀ (s : State) (ws text : List Byte) (tt : Byte) (r : Rec),
    (∀ b ∈ ws, b = 0x20 ∨ b = 0x09 ∨ b = 0x0D ∨ b = 0x0A) →
    decodeFields text = .ok (tt, r) →
    s.sourceFrom s.rdr.cursor.toNat = ws ++ text →
    let here := { s with
      ret := .idle
      rdr := { s.rdr with cursor := s.rdr.cursor + BitVec.ofNat 32 ws.length } }
    (∀ (t : RecordType) (u : State), tt = t.code → exec (t.instr r) here = .next u →
      readNext s = if u.ret = .idle then readNext u else u) ∧
    (5 < tt.toNat → checksumGood tt r = false →
      readNext s = { here.raise .checksumError
        { line := here.rdr.lines + 1, offset := here.rdr.cursor,
          expected := r.expected tt, actual := r.cc } with ret := .raised }) ∧
    (5 < tt.toNat → checksumGood tt r = true →
      readNext s = { here.raise .unknownRecordType
        { line := here.rdr.lines + 1, offset := here.rdr.cursor } with ret := .raised })

/-- R121, R122, R130: only whitespace up to SRC_LEN is END_OF_STREAM with CURSOR = SRC_LEN; a first
other byte that is not `:`, or a record text that is cut or holds a character that is no hex digit,
raises SyntaxError with CURSOR at that byte. -/
def Obligations.ReadNextEndsOrFindsNoRecord : Prop :=
  ∀ (s : State) (ws : List Byte), (∀ b ∈ ws, b = 0x20 ∨ b = 0x09 ∨ b = 0x0D ∨ b = 0x0A) →
    s.rdr.cursor.toNat ≤ s.cfg.srcLen.toNat →
    (s.sourceFrom s.rdr.cursor.toNat = ws →
      readNext s = { s with
        ret := .endOfStream, rdr := { s.rdr with cursor := s.cfg.srcLen } }) ∧
    (∀ b text,
      s.sourceFrom s.rdr.cursor.toNat = ws ++ b :: text →
      ¬ (b = 0x20 ∨ b = 0x09 ∨ b = 0x0D ∨ b = 0x0A) →
      (b ≠ 0x3A ∨ decodeFields (b :: text) = .error .truncated ∨
        decodeFields (b :: text) = .error .badHexDigit) →
      let here := { s with
        rdr := { s.rdr with cursor := s.rdr.cursor + BitVec.ofNat 32 ws.length } }
      readNext s = { here.raise .syntaxError
        { line := here.rdr.lines + 1, offset := here.rdr.cursor } with ret := .raised })

/-- The model's reading where R22 and R123 meet (log 10): with CURSOR above SRC_LEN, `read_next` raises
SyntaxError at CURSOR. -/
def Obligations.CursorAboveSourceLengthIsASyntaxError : Prop :=
  ∀ s : State, s.cfg.srcLen.toNat < s.rdr.cursor.toNat →
    readNext s = { s.raise .syntaxError
      { line := s.rdr.lines + 1, offset := s.rdr.cursor } with ret := .raised }

/-- R139: READ_RECORD of a source where, behind whitespace, a data record's text stands, its hex digits
of either case (R81): REC_KIND = 1,
the resolved address, LEN, TYPE 0, CKS, the data bytes with 0 behind them, and the record consumed;
everything else stays but ASM_ACTIVE, ASM_DONE and BUSY, which are cleared. -/
def Obligations.ReadRecordReadsADataRecord : Prop :=
  ∀ (s : State) (ws text : List Byte) (r : Rec),
    s.cfg.srcLen.toNat ≤ s.params.srcCap →
    (∀ b ∈ ws, b = 0x20 ∨ b = 0x09 ∨ b = 0x0D ∨ b = 0x0A) →
    decodeFields text = .ok (0x00, r) →
    s.sourceFrom s.rdr.cursor.toNat = ws ++ text →
    checksumGood 0x00 r = true → 1 ≤ r.data.length → r.data.length ≤ 64 →
    ∃ t, exec .readRecord s = .next t ∧
      t.recOut.addr = BitVec.ofNat 32
        (s.rdr.segBase.toNat + s.rdr.linBase.toNat + r.ah.toNat * 256 + r.al.toNat) ∧
      t.recOut.len.toNat = r.data.length ∧ t.recOut.type = 0x00 ∧ t.recOut.cks = r.cc ∧
      (∀ i, t.byteAt .recData i = r.data.getD i 0) ∧
      t.rdr = (acceptRecord r { s with
        rdr := { s.rdr with cursor := s.rdr.cursor + BitVec.ofNat 32 ws.length } }).rdr ∧
      t = { s with
            rdr := t.rdr, recOut := t.recOut, ret := .idle
            status := { s.status with
              recKind := 1, asmActive := false, asmDone := false, busy := false } }

/-- R139 (R266 is the spec's inference): READ_RECORD's outcomes in terms of what `read_next` returns from the state with
ASM_ACTIVE, ASM_DONE and REC_KIND cleared: a data record, an end-of-file marker, the end of the stream,
or an error, which leaves REC_* as they were and REC_KIND = 0. -/
def Obligations.ReadRecordReportsWhatReadNextReturns : Prop :=
  ∀ s : State, s.cfg.srcLen.toNat ≤ s.params.srcCap →
    let u := readNext { s with
      status := { s.status with asmActive := false, asmDone := false, recKind := 0 } }
    (∀ a st d c, u.ret = .data a st d c →
      exec .readRecord s = .next { u with
        ret := .idle
        recOut := { addr := a, len := BitVec.ofNat 8 d.length, type := 0x00, cks := c,
                    data := Mem.ofBytes d }
        status := { u.status with recKind := 1, busy := false } }) ∧
    (∀ a st ty c, u.ret = .eof a st ty c →
      exec .readRecord s = .next { u with
        ret := .idle
        recOut := { addr := a, len := 0, type := ty, cks := c, data := [] }
        status := { u.status with recKind := 2, busy := false } }) ∧
    (u.ret = .endOfStream →
      exec .readRecord s = .next { u with
        ret := .idle
        recOut := { addr := 0, len := 0, type := 0, cks := 0, data := [] }
        status := { u.status with recKind := 3, busy := false } }) ∧
    (u.ret = .raised → exec .readRecord s = .next { u with ret := .idle }) ∧
    (u.ret = .raised → u.status.recKind = 0 ∧ u.recOut = s.recOut)

/-- R263: the configurations that raise ConfigError, and the flags cleared before it: VALIDATED,
ASM_ACTIVE and ASM_DONE by VALIDATE, XFER_DONE by FRAME. That READ_RECORD has cleared REC_KIND before
it is the model's choice between R139's prose, R266 and D50 and the order of R139's pseudocode (log 24). -/
def Obligations.IllegalConfigurationsRaiseConfigError : Prop :=
  ∀ s : State,
    (s.params.srcCap < s.cfg.srcLen.toNat →
      exec .readRecord s = .next
        (State.raise .configError {} { s with status := { s.status with recKind := 0 } })) ∧
    (s.params.srcCap < s.cfg.srcLen.toNat ∨ s.cfg.appStart.toNat % 32 ≠ 0 ∨
        s.cfg.appStart.toNat ≤ s.cfg.blEnd.toNat →
      exec .validate s = .next
        (State.raise .configError {}
          { s with status :=
              { s.status with validated := false, asmActive := false, asmDone := false } })) ∧
    (s.txIn = none →
      (s.cfg.markers.single = s.cfg.markers.first ∨ s.cfg.markers.single = s.cfg.markers.middle ∨
        s.cfg.markers.single = s.cfg.markers.last ∨ s.cfg.markers.first = s.cfg.markers.middle ∨
        s.cfg.markers.first = s.cfg.markers.last ∨ s.cfg.markers.middle = s.cfg.markers.last) →
      exec .frame s = .next
        (State.raise .configError {} { s with status := { s.status with xferDone := false } }))

/-- The spec's inferences R301, R142 and R196: a step of READ_RECORD, VALIDATE or NEXT_BLOCK terminates its command: it answers a
next state with BUSY = 0. -/
def Obligations.ReaderCommandsAlwaysFinish : Prop :=
  ∀ (s : State) (i : Instr), i = .readRecord ∨ i = .validate ∨ i = .nextBlock →
    ∃ t, exec i s = .next t ∧ t.status.busy = false

/-- R91 (R266 is the spec's inference): what READ_RECORD, VALIDATE and NEXT_BLOCK leave unchanged, whether they complete or
raise: every register, flag and array but those R91 lists for the command, the error registers and the
flags of the error entry. -/
def Obligations.ReaderCommandsFrame : Prop :=
  ∀ s t : State,
    (exec .readRecord s = .next t →
      t = { s with
            rdr := t.rdr, recOut := t.recOut, err := t.err, ret := t.ret
            status := { t.status with
              cmdDropped := s.status.cmdDropped, validated := s.status.validated,
              blkValid := s.status.blkValid, xferDone := s.status.xferDone,
              lastCmd := s.status.lastCmd } }) ∧
    (exec .validate s = .next t →
      t = { s with
            rdr := t.rdr, valOut := t.valOut, err := t.err, ret := t.ret
            status := { t.status with
              cmdDropped := s.status.cmdDropped, blkValid := s.status.blkValid,
              xferDone := s.status.xferDone, recKind := s.status.recKind,
              lastCmd := s.status.lastCmd } }) ∧
    (exec .nextBlock s = .next t →
      t = { s with
            rdr := t.rdr, asm := t.asm, blkOut := t.blkOut, err := t.err, ret := t.ret
            status := { t.status with
              cmdDropped := s.status.cmdDropped, validated := s.status.validated,
              xferDone := s.status.xferDone, recKind := s.status.recKind,
              lastCmd := s.status.lastCmd } })

/-- R40 (R142 is the spec's inference): no byte of SRC at or beyond SRC_LEN is read: two states that differ only in such bytes
give the same result. -/
def Obligations.SourceBeyondItsLengthIsNeverRead : Prop :=
  ∀ (s : State) (m : Mem) (i : Instr),
    (∀ j, j < s.cfg.srcLen.toNat → Mem.read m j = Mem.read s.src j) →
    i = .readRecord ∨ i = .validate ∨ i = .nextBlock →
    ∀ t, exec i s = .next t → exec i { s with src := m } = .next { t with src := m }

/-! ### VALIDATE -/

/-- R161 to R164 (R165 and R167 are the spec's inferences): VALIDATE accepts a good image, one record a
line, its hex digits of either case, white or blank lines between, and whatever stands behind a record on
its line or behind the end-of-file line, which the end of the source may also end: VALIDATED = 1,
VAL_LINES counts every record, END_ADDR and END_COUNT are the last data record's address and byteCount
(0 if there is none), XFER_SIZE is their sum less APP_START (0 if there is none), CURSOR is past the
end-of-file line, and SEG_BASE and LIN_BASE are what the image's extended-address records make of 0.
Everything else stays but ASM_ACTIVE, ASM_DONE and BUSY, which are cleared. -/
def Obligations.ValidateAcceptsAGoodImage : Prop :=
  ∀ (s : State) (body : List (RecordType × Rec)) (e : RecordType × Rec) (rest : List Byte),
    s.cfg.srcLen.toNat ≤ s.params.srcCap → s.cfg.appStart.toNat % 32 = 0 →
    s.cfg.blEnd.toNat < s.cfg.appStart.toNat →
    GoodImage s.cfg.addrMode s.cfg.appStart s.cfg.blEnd body e →
    HoldsRecords (s.sourceFrom 0) (body ++ [e]) rest →
    let data := returnedFrom s.cfg.addrMode (0, 0) body
    ∃ t, exec .validate s = .next t ∧
      t.rdr.lines.toNat = body.length + 1 ∧
      t.rdr.cursor.toNat + rest.length = s.cfg.srcLen.toNat ∧
      (t.rdr.segBase, t.rdr.linBase) = body.foldl (basesAfter s.cfg.addrMode) (0, 0) ∧
      t.valOut.lines = t.rdr.lines ∧
      (∀ a d, data.getLast? = some (a, d) →
        t.valOut.endAddr = a ∧ t.valOut.endCount.toNat = d.length ∧
        t.valOut.xferSize = a + BitVec.ofNat 32 d.length - s.cfg.appStart) ∧
      (data = [] → t.valOut.endAddr = 0 ∧ t.valOut.endCount = 0 ∧ t.valOut.xferSize = 0) ∧
      t = { s with
            rdr := t.rdr, valOut := t.valOut, ret := .idle
            status := { s.status with
              validated := true, asmActive := false, asmDone := false, busy := false } }

/-- R161: VALIDATE either succeeds, with VALIDATED = 1, the configuration legal, VAL_LINES = LINES and
no error recorded, or raises an error, with VALIDATED = 0, ERR = 1 and its results as they were. -/
def Obligations.ValidateSucceedsOrRaises : Prop :=
  ∀ s t : State, exec .validate s = .next t →
    (t.status.validated = true ∧ s.configLegal = true ∧ t.valOut.lines = t.rdr.lines ∧
      t.status.err = s.status.err ∧ t.err = s.err) ∨
    (t.status.validated = false ∧ t.status.err = true ∧ t.err.code ≠ 0 ∧ t.valOut = s.valOut)

/-- R162, R163, R166: with the configuration legal, the first record returned from the start of the
source must be at APP_START (InvalidStartAddress otherwise, whatever else holds), and a source that
holds no record raises NoEndOfFile. ERR_LINE is LINES. -/
def Obligations.ValidateChecksTheFirstRecord : Prop :=
  ∀ s : State, s.configLegal = true →
    let u := readNext { s with
      rdr := { cursor := 0, segBase := 0, linBase := 0, lines := 0 }
      status := { s.status with validated := false, asmActive := false, asmDone := false } }
    (∀ a st d c, u.ret = .data a st d c → a ≠ s.cfg.appStart →
      exec .validate s = .next (State.raise .invalidStartAddress
        { line := u.rdr.lines, offset := st, addr := a } { u with ret := .idle })) ∧
    (∀ a st ty c, u.ret = .eof a st ty c → a ≠ s.cfg.appStart →
      exec .validate s = .next (State.raise .invalidStartAddress
        { line := u.rdr.lines, offset := st, addr := a } { u with ret := .idle })) ∧
    (u.ret = .endOfStream →
      exec .validate s = .next (State.raise .noEndOfFile
        { line := u.rdr.lines, offset := s.cfg.srcLen } { u with ret := .idle })) ∧
    (u.ret = .raised → exec .validate s = .next { u with ret := .idle })

/-- R161, R163, R166: behind a good beginning of an image, laid out as above, a data record at or below
BL_END raises ProtectedAddressViolation with its address and its offset; nothing but whitespace up to the
end of the source raises NoEndOfFile; ERR_LINE counts the records read. What the Record Reader rejects
there ends VALIDATE with the reader's error, at the next record's number and offset, where CURSOR stays
(R130). -/
def Obligations.ValidateChecksEveryDataRecord : Prop :=
  ∀ (s : State) (body : List (RecordType × Rec)) (r : Rec) (ws text : List Byte),
    s.configLegal = true →
    (∀ x ∈ body, Passes s.cfg.addrMode x ∧ ¬ IsMarker x) →
    ((returnedFrom s.cfg.addrMode (0, 0) body).head?).map Prod.fst = some s.cfg.appStart →
    (∀ y ∈ returnedFrom s.cfg.addrMode (0, 0) body, s.cfg.blEnd < y.1) →
    White ws →
    (∀ a, Passes s.cfg.addrMode (.data, r) → r.data ≠ [] →
      returnedFrom s.cfg.addrMode (0, 0) (body ++ [(.data, r)]) =
        returnedFrom s.cfg.addrMode (0, 0) body ++ [(a, r.data)] → a ≤ s.cfg.blEnd →
      decodeFields text = .ok (0x00, r) →
      HoldsRecords (s.sourceFrom 0) body (ws ++ text) →
      ∃ t, exec .validate s = .next t ∧ t.status.validated = false ∧ t.status.err = true ∧
        t.err.code = 0x07 ∧ t.err.addr = a ∧ t.err.line.toNat = body.length + 1 ∧
        t.err.offset.toNat + text.length = s.cfg.srcLen.toNat) ∧
    (HoldsRecords (s.sourceFrom 0) body ws →
      ∃ t, exec .validate s = .next t ∧ t.status.validated = false ∧ t.status.err = true ∧
        t.err.code = 0x08 ∧ t.err.line.toNat = body.length ∧ t.err.offset = s.cfg.srcLen) ∧
    (∀ code, Rejects s.cfg.addrMode text code →
      HoldsRecords (s.sourceFrom 0) body (ws ++ text) →
      ∃ t, exec .validate s = .next t ∧ t.status.validated = false ∧ t.status.err = true ∧
        t.err.code = code ∧ t.err.line.toNat = body.length + 1 ∧
        t.err.offset.toNat + text.length = s.cfg.srcLen.toNat ∧
        t.rdr.cursor = t.err.offset ∧ t.rdr.lines.toNat = body.length ∧ t.valOut = s.valOut)

/-- R168, the spec's inference from R161: two VALIDATE commands on the same source and configuration give
the same results or the same error, whatever ran between them, and with a legal configuration the same
reader state; with an illegal one each raises ConfigError and leaves the reader state it found. -/
def Obligations.ValidateIsIdempotent : Prop :=
  ∀ s s' t t' : State,
    s'.params = s.params → s'.cfg = s.cfg → s'.src = s.src →
    exec .validate s = .next t → exec .validate s' = .next t' →
    (s.configLegal = true → t'.rdr = t.rdr) ∧
    (s.configLegal = false → t.rdr = s.rdr ∧ t'.rdr = s'.rdr) ∧
    t'.status.validated = t.status.validated ∧
    (t.status.validated = true → t'.valOut = t.valOut) ∧
    (t.status.validated = false → t'.err = t.err)

/-! ### Block Assembler -/

/-- R181, R264: START_ASSEMBLY with VALIDATED = 1 consumes it and starts the sequence at APP_START with
the reader reset, nothing placed or pending, and the block output cleared; with VALIDATED = 0 it raises
SequenceError and changes nothing before. -/
def Obligations.StartAssemblyStartsARun : Prop :=
  ∀ s : State,
    (s.status.validated = true →
      exec .startAssembly s = .next { s with
        rdr := { cursor := 0, segBase := 0, linBase := 0, lines := 0 }
        asm := { s.asm with
          cbs := BitVec.ofNat 33 s.cfg.appStart.toNat, p := 0, pendValid := false, pendLen := 0,
          pendAddr := 0 }
        blkOut := { start := 0, count := 0, index := 0, data := [] }
        status := { s.status with
          validated := false, blkValid := false, asmActive := true, asmDone := false,
          busy := false } }) ∧
    (s.status.validated = false →
      exec .startAssembly s = .next (s.raise .sequenceError {}))

/-- R192: NEXT_BLOCK after the sequence has ended emits nothing, clears BLK_VALID and raises nothing;
with no sequence it raises SequenceError and changes nothing before (R264). By the model's reading of R25
(log 23) the step that starts the command has cleared BLK_VALID, so that it is 0 after that error
(R266). -/
def Obligations.NextBlockOutsideASequence : Prop :=
  ∀ s : State, s.status.asmActive = false →
    (s.status.asmDone = true →
      exec .nextBlock s = .next { s with
        status := { s.status with blkValid := false, busy := false } }) ∧
    (s.status.asmDone = false →
      exec .nextBlock s = .next (s.raise .sequenceError {})) ∧
    (s.status.asmDone = false → s.status.busy = true → s.status.txWait = false →
      s.status.rxWait = false → s.pendingCmd = 4 → s.actions = [] →
      step s = .next
        (State.raise .sequenceError {} { s with status := { s.status with blkValid := false } }))

/-- R185, R186: with the pending record at or beyond the next block, NEXT_BLOCK pads the current block
with NOP and emits it in full, and keeps the record pending; the block's bytes are those placed, then
0x00. -/
def Obligations.NextBlockPadsAGap : Prop :=
  ∀ s : State, s.arraysCanonical = true → s.status.asmActive = true → s.asm.pendValid = true →
    s.asm.p.toNat ≤ 32 → s.asm.cbs.toNat + 32 ≤ s.asm.pendAddr.toNat →
    ∃ t, exec .nextBlock s = .next t ∧
      (∀ i, Mem.read t.asm.buf i =
        if s.asm.p.toNat ≤ i ∧ i < 32 then 0 else Mem.read s.asm.buf i) ∧
      (∀ i, t.byteAt .blkData i = if i < 32 then Mem.read t.asm.buf i else 0) ∧
      t = { s with
            asm := { s.asm with cbs := s.asm.cbs + 32, p := 0, buf := t.asm.buf }
            blkOut := { start := s.asm.cbs.setWidth 32, count := 32, index := s.blkOut.index + 1,
                        data := t.blkOut.data }
            status := { s.status with blkValid := true, busy := false } }

/-- R187, R188, R189: with the pending record in the current block and reaching its end, NEXT_BLOCK pads
with NOP up to the record, copies what fits, emits the full block, and keeps the rest of the record, if
any, pending at the start of the next block. -/
def Obligations.NextBlockFillsABlock : Prop :=
  ∀ (s : State) (off : Nat),
    s.arraysCanonical = true → s.status.asmActive = true → s.asm.pendValid = true →
    s.asm.pendAddr.toNat = s.asm.cbs.toNat + off → s.asm.p.toNat ≤ off → off < 32 →
    32 ≤ off + s.asm.pendLen.toNat →
    let left := off + s.asm.pendLen.toNat - 32
    ∃ t, exec .nextBlock s = .next t ∧
      (∀ i, Mem.read t.asm.buf i =
        if i < s.asm.p.toNat then Mem.read s.asm.buf i
        else if i < off then 0
        else if i < 32 then Mem.read s.asm.pendData (i - off)
        else Mem.read s.asm.buf i) ∧
      (∀ i, t.byteAt .blkData i = if i < 32 then Mem.read t.asm.buf i else 0) ∧
      (∀ i, Mem.read t.asm.pendData i =
        if i < left then Mem.read s.asm.pendData (32 - off + i) else Mem.read s.asm.pendData i) ∧
      t.asm.cbs = s.asm.cbs + 32 ∧ t.asm.p = 0 ∧
      (left = 0 → t.asm.pendValid = false ∧ t.asm.pendLen = 0 ∧ t.asm.pendAddr = 0) ∧
      (0 < left → t.asm.pendValid = true ∧ t.asm.pendLen.toNat = left ∧
        t.asm.pendAddr = (s.asm.cbs + 32).setWidth 32) ∧
      t = { s with
            asm := t.asm
            blkOut := { start := s.asm.cbs.setWidth 32, count := 32, index := s.blkOut.index + 1,
                        data := t.blkOut.data }
            status := { s.status with blkValid := true, busy := false } }

/-- R187: with the pending record wholly inside the current block and not reaching its end, NEXT_BLOCK
places it behind NOP padding and goes on as if nothing were pending. -/
def Obligations.NextBlockPlacesAndGoesOn : Prop :=
  ∀ (s : State) (off : Nat),
    s.arraysCanonical = true → s.status.asmActive = true → s.asm.pendValid = true →
    s.asm.pendAddr.toNat = s.asm.cbs.toNat + off → s.asm.p.toNat ≤ off →
    off + s.asm.pendLen.toNat < 32 →
    ∃ buf : Mem,
      (∀ i, Mem.read buf i =
        if i < s.asm.p.toNat then Mem.read s.asm.buf i
        else if i < off then 0
        else if i < off + s.asm.pendLen.toNat then Mem.read s.asm.pendData (i - off)
        else Mem.read s.asm.buf i) ∧
      exec .nextBlock s = exec .nextBlock { s with
        asm := { s.asm with
          buf := buf, p := BitVec.ofNat 6 (off + s.asm.pendLen.toNat)
          pendValid := false, pendLen := 0, pendAddr := 0 } }

/-- R183, R190, R191: with nothing pending, NEXT_BLOCK fetches the next record; a data record becomes
the pending one and the command goes on with it, unless it runs past 2^32 or starts below what is
placed, which raises AddressOrderError; a reader error ends the command. -/
def Obligations.NextBlockFetchesARecord : Prop :=
  ∀ s : State, s.status.asmActive = true → s.asm.pendValid = false →
    let u := readNext { s with status := { s.status with blkValid := false } }
    (∀ a st d c, u.ret = .data a st d c →
      let held : AssemblerRegs := { s.asm with
        pendAddr := a, pendLen := BitVec.ofNat 7 d.length, pendValid := true
        pendData := Mem.writeBytes s.asm.pendData 0 d }
      (4294967296 < a.toNat + d.length →
        exec .nextBlock s = .next (State.raise .addressOrderError
          { addr := a, line := u.rdr.lines, offset := st } { u with ret := .idle })) ∧
      (a.toNat + d.length ≤ 4294967296 → a.toNat < s.asm.cbs.toNat + s.asm.p.toNat →
        a.toNat < s.asm.cbs.toNat + 32 →
        exec .nextBlock s = .next (State.raise .addressOrderError
          { addr := a, line := u.rdr.lines, offset := st }
          { u with ret := .idle, asm := held })) ∧
      (a.toNat + d.length ≤ 4294967296 → s.asm.cbs.toNat + s.asm.p.toNat ≤ a.toNat →
        exec .nextBlock s = exec .nextBlock { u with ret := .idle, asm := held })) ∧
    (u.ret = .raised → exec .nextBlock s = .next { u with ret := .idle }) ∧
    (u.ret = .endOfStream →
      exec .nextBlock s = .next (State.raise .noEndOfFile
        { line := u.rdr.lines, offset := s.cfg.srcLen } { u with ret := .idle }))

/-- R184: at the end-of-file marker the sequence ends: with P = 0 without a block, otherwise with one
short block of P bytes, those placed, and 0 behind them. -/
def Obligations.NextBlockEndsTheSequence : Prop :=
  ∀ s : State, s.status.asmActive = true → s.asm.pendValid = false →
    let u := readNext { s with status := { s.status with blkValid := false } }
    ∀ a st ty c, u.ret = .eof a st ty c →
      (s.asm.p = 0 →
        exec .nextBlock s = .next { u with
          ret := .idle
          status := { u.status with asmActive := false, asmDone := true, busy := false } }) ∧
      (s.asm.p ≠ 0 →
        ∃ t, exec .nextBlock s = .next t ∧
          (∀ i, t.byteAt .blkData i =
            if i < s.asm.p.toNat then Mem.read s.asm.buf i else 0) ∧
          t = { u with
                ret := .idle
                blkOut := { start := s.asm.cbs.setWidth 32, count := s.asm.p,
                            index := s.blkOut.index + 1, data := t.blkOut.data }
                status := { u.status with
                  blkValid := true, asmActive := false, asmDone := true, busy := false } })

/-- R193, the spec's inference: in a state of the machine's invariant, a block NEXT_BLOCK emits starts at
APP_START + 32 * k for the k-th block of the run, is a multiple of 32 (R66), and has 32 bytes unless it
is the last, which has 1 to 32. -/
def Obligations.EmittedBlocksAreAlignedAndContiguous : Prop :=
  ∀ s t : State, s.Inv → s.status.asmActive = true → exec .nextBlock s = .next t →
    t.status.blkValid = true →
    t.blkOut.index.toNat = s.blkOut.index.toNat + 1 ∧
    t.blkOut.start.toNat = s.cfg.appStart.toNat + 32 * s.blkOut.index.toNat ∧
    t.blkOut.start.toNat % 32 = 0 ∧
    1 ≤ t.blkOut.count.toNat ∧ t.blkOut.count.toNat ≤ 32 ∧
    (t.status.asmActive = true → t.blkOut.count.toNat = 32 ∧
      t.asm.cbs.toNat = s.asm.cbs.toNat + 32) ∧
    (t.status.asmActive = false → t.status.asmDone = true)

/-! ### Framer and Reassembler -/

/-- R214 to R217, R87: what the four segment instructions put into TXR, byte by byte; nothing else
changes. -/
def Obligations.SegmentReportsByteByByte : Prop :=
  ∀ (s : State) (len : Word) (chunk : List Byte), chunk.length ≤ 56 →
    let lengthByte : Nat → Byte := fun i => BitVec.ofNat 8 (len.toNat / 256 ^ (5 - i))
    let withLength : Byte → Nat → Byte := fun op i =>
      if i = 0 then 0 else if i = 1 then op else if i < 6 then lengthByte i
      else if i < 6 + chunk.length then chunk.getD (i - 6) 0 else 0
    let without : Byte → Nat → Byte := fun op i =>
      if i = 0 then 0 else if i = 1 then op
      else if i < 2 + chunk.length then chunk.getD (i - 2) 0 else 0
    (∃ t, exec (.segSingle len chunk) s = .next t ∧
      t = { s with frm := { s.frm with txr := t.frm.txr } } ∧
      ∀ i, t.byteAt .txr i = withLength (s.cfg.profile0.extractLsb' 0 8) i) ∧
    (∃ t, exec (.segFirst len chunk) s = .next t ∧
      t = { s with frm := { s.frm with txr := t.frm.txr } } ∧
      ∀ i, t.byteAt .txr i = withLength (s.cfg.profile0.extractLsb' 8 8) i) ∧
    (∃ t, exec (.segMiddle chunk) s = .next t ∧
      t = { s with frm := { s.frm with txr := t.frm.txr } } ∧
      ∀ i, t.byteAt .txr i = without (s.cfg.profile0.extractLsb' 16 8) i) ∧
    (∃ t, exec (.segLast chunk) s = .next t ∧
      t = { s with frm := { s.frm with txr := t.frm.txr } } ∧
      ∀ i, t.byteAt .txr i = without (s.cfg.profile0.extractLsb' 24 8) i)

/-- R210 and R228, the spec's inferences: a packet of L bytes has one report if L ≤ 56 and otherwise the n with
56(n-1) < L ≤ 56n; the chunks of its reports, in order, are PKT[0..L) with no byte repeated or missing,
and each is of at most 56 bytes. -/
def Obligations.ReportsCarryThePacketOnce : Prop :=
  ∀ s : State,
    let len := s.cfg.pktLen.toNat
    let n := segmentCount len
    (len ≤ 56 → n = 1) ∧ (56 < len → 56 * (n - 1) < len ∧ len ≤ 56 * n) ∧
    (∀ k, (s.packetChunk k).length ≤ 56) ∧
    (List.range n).flatMap s.packetChunk = Mem.slice s.pkt 0 len

/-- R211, R95: FRAME starts by presenting report 0, a Single if PKT_LEN ≤ 56 and a First otherwise, with
SEG_TOTAL = n(L), SEG_INDEX = 0, TX_WAIT = 1 and XFER_DONE = 0; a packet longer than MAX_PACKET_LEN
raises PacketLengthError. -/
def Obligations.FrameStartsWithReportZero : Prop :=
  ∀ s : State, s.txIn = none → markersDistinct s.cfg.markers = true →
    let s1 := { s with
      frm := { s.frm with
        segTotal := BitVec.ofNat 32 (segmentCount s.cfg.pktLen.toNat), segIndex := 0 }
      status := { s.status with xferDone := false } }
    (s.cfg.pktLen.toNat ≤ s.params.maxPacketLen →
      ∃ t u, exec (if s.cfg.pktLen.toNat ≤ 56 then .segSingle s.cfg.pktLen (s.packetChunk 0)
          else .segFirst s.cfg.pktLen (s.packetChunk 0)) s1 = .next u ∧
        exec .frame s = .next t ∧
        t = { u with status := { u.status with txWait := true } }) ∧
    (s.params.maxPacketLen < s.cfg.pktLen.toNat →
      exec .frame s = .next (State.raise .packetLengthError {}
        { s with status := { s.status with xferDone := false } }))

/-- R218, R219, R220, R95: a DONE answer to report k < n-1 makes FRAME present report k+1, a Middle, or
the Last if k+1 = n-1; a DONE answer to report n-1 completes FRAME with XFER_DONE = 1; a FAILED, TIMEOUT
or GARBLED answer aborts the packet with SegmentRejected, TransportTimeout or TransportFailure, ERR_ADDR
the report's index. -/
def Obligations.FrameActsOnTheAnswer : Prop :=
  ∀ s : State,
    let k := s.frm.segIndex.toNat
    let n := s.frm.segTotal.toNat
    let s0 := { s with txIn := none }
    let s1 := { s with txIn := none, frm := { s.frm with segIndex := s.frm.segIndex + 1 } }
    (s.txIn = some .done → k + 1 < n → ∃ t u,
      exec (if k + 2 < n then .segMiddle (s.packetChunk (k + 1))
        else .segLast (s.packetChunk (k + 1))) s1 = .next u ∧
      exec .frame s = .next t ∧ t = { u with status := { u.status with txWait := true } }) ∧
    (s.txIn = some .done → n ≤ k + 1 →
      exec .frame s =
        .next { s0 with status := { s.status with xferDone := true, busy := false } }) ∧
    (s.txIn = some .failed →
      exec .frame s = .next (s0.raise .segmentRejected { addr := s.frm.segIndex })) ∧
    (s.txIn = some .timeout →
      exec .frame s = .next (s0.raise .transportTimeout { addr := s.frm.segIndex })) ∧
    (s.txIn = some .garbled →
      exec .frame s = .next (s0.raise .transportFailure { addr := s.frm.segIndex }))

/-- R221, R222: UNFRAME starts by clearing XFER_DONE, RX_LEN, RX_COUNT and UNF_INDEX and awaiting a
report; an RX_TIMEOUT raises TransportTimeout with RX_COUNT = 0 and ERR_ADDR the index (R227). -/
def Obligations.UnframeWaitsAndTimesOut : Prop :=
  ∀ s : State,
    (s.rxIn = none →
      exec .unframe s = .next { s with
        rx := { s.rx with len := 0, count := 0, unfIndex := 0 }
        status := { s.status with xferDone := false, rxWait := true } }) ∧
    (s.rxIn = some .timeout →
      exec .unframe s = .next (State.raise .transportTimeout
        { addr := BitVec.ofNat 32 s.rx.unfIndex }
        { s with rxIn := none, rx := { s.rx with count := 0 } }))

/-- R224, R225, R226: RX_CONTINUE with its flag byte set raises RobotNoResponse and abandons the buffer;
otherwise it appends min(56, RX_LEN - RX_COUNT) bytes of its window to RXBUF and no others, counts them
and the report, and completes the transfer when RX_LEN is reached. -/
def Obligations.ContinuationAppendsItsWindow : Prop :=
  ∀ (s : State) (window : List Byte) (flag : Byte),
    s.arraysCanonical = true → window.length = 56 → s.rx.count.toNat ≤ s.rx.len.toNat →
    (flag ≠ 0 →
      exec (.rxContinue window flag) s = .next (State.raise .robotNoResponse
        { addr := BitVec.ofNat 32 s.rx.unfIndex } { s with rx := { s.rx with count := 0 } })) ∧
    (flag = 0 →
      let n := min 56 (s.rx.len.toNat - s.rx.count.toNat)
      ∃ t, exec (.rxContinue window flag) s = .next t ∧
        t.rx.count.toNat = s.rx.count.toNat + n ∧
        (∀ i, t.byteAt .rxbuf i =
          if s.rx.count.toNat ≤ i ∧ i < s.rx.count.toNat + n then
            window.getD (i - s.rx.count.toNat) 0
          else s.byteAt .rxbuf i) ∧
        t = { s with
              rx := { s.rx with
                rxbuf := t.rx.rxbuf, count := t.rx.count, unfIndex := s.rx.unfIndex + 1 }
              status := if t.rx.count = s.rx.len
                then { s.status with xferDone := true, busy := false } else s.status })

/-- R221, R223, R227, R267: the first inbound report, of 65 bytes, goes to RXR; its flag, byte 62, is
tested before its declared length, bytes 2-5 big-endian, and the length against MAX_RX_LEN; then its
window, bytes 6-61, is appended as a continuation's would be, and UNFRAME awaits the next report if the
length is not reached. -/
def Obligations.FirstReportDeclaresTheLength : Prop :=
  ∀ (s : State) (r : List Byte), s.rxIn = some (.report r) → r.length = 65 → s.rx.unfIndex = 0 →
    let len := (((r.getD 2 0).toNat * 256 + (r.getD 3 0).toNat) * 256 + (r.getD 4 0).toNat) * 256 +
      (r.getD 5 0).toNat
    let s1 := { s with rxIn := none, rx := { s.rx with rxr := Mem.ofBytes r } }
    (r.getD 62 0 ≠ 0 →
      exec .unframe s = .next (State.raise .robotNoResponse { addr := 0 }
        { s1 with rx := { s1.rx with count := 0 } })) ∧
    (r.getD 62 0 = 0 → s.params.maxRxLen < len →
      exec .unframe s = .next (State.raise .transportFailure { addr := 0 }
        { s1 with rx := { s1.rx with count := 0 } })) ∧
    (r.getD 62 0 = 0 → len ≤ s.params.maxRxLen →
      ∃ t u, exec (.rxContinue ((r.drop 6).take 56) 0)
          { s1 with rx := { s1.rx with len := BitVec.ofNat 32 len } } = .next u ∧
        exec .unframe s = .next t ∧
        t = if u.rx.count = u.rx.len then u
            else { u with status := { u.status with rxWait := true } })

/-- R221, R224, R267: a later inbound report, of 65 bytes, goes to RXR; its flag, byte 58, is tested
before its tag, byte 1, which must be OP_CONTINUE; then it is the RX_CONTINUE of its window, bytes 2-57,
and UNFRAME awaits the next report if the length is not reached. -/
def Obligations.LaterReportsMustBeContinuations : Prop :=
  ∀ (s : State) (r : List Byte), s.rxIn = some (.report r) → r.length = 65 → s.rx.unfIndex ≠ 0 →
    let s1 := { s with rxIn := none, rx := { s.rx with rxr := Mem.ofBytes r } }
    (r.getD 58 0 ≠ 0 →
      exec .unframe s = .next (State.raise .robotNoResponse
        { addr := BitVec.ofNat 32 s.rx.unfIndex }
        { s1 with rx := { s1.rx with count := 0 } })) ∧
    (r.getD 58 0 = 0 → r.getD 1 0 ≠ s.cfg.opContinue →
      exec .unframe s = .next (State.raise .transportFailure
        { addr := BitVec.ofNat 32 s.rx.unfIndex }
        { s1 with rx := { s1.rx with count := 0 } })) ∧
    (r.getD 58 0 = 0 → r.getD 1 0 = s.cfg.opContinue →
      ∃ t u, exec (.rxContinue ((r.drop 2).take 56) 0) s1 = .next u ∧
        exec .unframe s = .next t ∧
        t = if u.rx.count = u.rx.len then u
            else { u with status := { u.status with rxWait := true } })

/-! ### The whole machine -/

/-- The state after reset meets the machine's invariant, and R290's values: no command pending, every
register 0, and every byte 0 of each array R290 gives a value: REC_DATA, BLK_DATA, TXR, RXR and RXBUF,
and the hidden ASM_BUF and PEND_DATA (SRC and PKT it leaves unspecified). -/
def Obligations.ResetMeetsTheInvariant : Prop :=
  State.reset.Inv ∧ (∀ idx, State.reset.register idx = 0) ∧ State.reset.pendingCmd = 0 ∧
    State.reset.frPhase = .idle ∧ State.reset.rx.unfIndex = 0 ∧
    (∀ i, State.reset.byteAt .recData i = 0 ∧ State.reset.byteAt .blkData i = 0 ∧
      State.reset.byteAt .txr i = 0 ∧ State.reset.byteAt .rxr i = 0 ∧
      State.reset.byteAt .rxbuf i = 0 ∧ Mem.read State.reset.asm.buf i = 0 ∧
      Mem.read State.reset.asm.pendData i = 0)

/-- From every state of the machine's invariant (R22, R25, R30, R32, R35, R40, R213, R249, and the
spec's inferences R193 and R250) a step, whatever the next action, answers a next state, and that state
meets the invariant: no run of the machine stops. -/
def Obligations.EveryStepKeepsTheInvariant : Prop :=
  ∀ s : State, s.Inv → ∃ t, step s = .next t ∧ t.Inv

/-- Every action keeps every array in its canonical form, in every state. -/
def Obligations.EveryStepKeepsArraysCanonical : Prop :=
  ∀ s t : State, s.arraysCanonical = true → step s = .next t → t.arraysCanonical = true

/-- R25: VALIDATED is set only by VALIDATE, ASM_ACTIVE only by START_ASSEMBLY and only from VALIDATED,
XFER_DONE only by FRAME and UNFRAME, and BUSY only by a CMD write. -/
def Obligations.FlagsAreSetOnlyByTheirCommands : Prop :=
  ∀ s t : State, step s = .next t →
    (s.status.validated = false → t.status.validated = true →
      s.status.busy = true ∧ s.pendingCmd = 2) ∧
    (s.status.asmActive = false → t.status.asmActive = true →
      s.status.busy = true ∧ s.pendingCmd = 3 ∧ s.status.validated = true) ∧
    (s.status.xferDone = false → t.status.xferDone = true →
      s.status.busy = true ∧ (s.pendingCmd = 5 ∨ s.pendingCmd = 6)) ∧
    (s.status.busy = false → t.status.busy = true →
      ∃ w rest, s.actions = .write Slot.CMD w :: rest ∧ 1 ≤ w.toNat ∧ w.toNat ≤ 8)

/-- R248, R20 (R73 is the spec's inference): while BUSY = 1 no step but the reset input changes the source, the packet or the
configuration; and no step ever changes the parameters. -/
def Obligations.CommandsRunAgainstFixedInputs : Prop :=
  ∀ s t : State, step s = .next t →
    t.params = s.params ∧
    (s.status.busy = true → (∀ rest, s.actions ≠ .rst :: rest) →
      t.cfg = s.cfg ∧ t.src = s.src ∧ t.pkt = s.pkt)
end

