-- ==== Sys2Proof/Laws/Memory.lean ====
section
/-! SUPPORT. The laws of byte arrays: reading back what was written, leaving every other index alone,
keeping the canonical form and the size, and equality of arrays that read the same. -/

namespace Sys2Proof.Machine

@[simp] theorem Mem.unlisted_eq : Mem.unlisted = 0#8 := rfl

@[simp] theorem Mem.read_nil (i : Nat) : Mem.read [] i = 0#8 := rfl

theorem Mem.read_cons (a : Nat) (b : Byte) (m : Mem) (i : Nat) :
    Mem.read ((a, b) :: m) i = if i = a then b else Mem.read m i := rfl

theorem Mem.canonicalFrom_cons (lo a : Nat) (b : Byte) (m : Mem) :
    Mem.canonicalFrom lo ((a, b) :: m) = true ↔
      lo ≤ a ∧ b ≠ 0#8 ∧ Mem.canonicalFrom (a + 1) m = true := by
  simp [Mem.canonicalFrom, and_assoc]

/-! ### The canonical form -/

theorem Mem.canonicalFrom_weaken {lo lo' : Nat} {m : Mem} (h : lo ≤ lo')
    (hm : Mem.canonicalFrom lo' m = true) : Mem.canonicalFrom lo m = true := by
  cases m with
  | nil => rfl
  | cons c m =>
    obtain ⟨a, b⟩ := c
    rw [Mem.canonicalFrom_cons] at hm ⊢
    exact ⟨by omega, hm.2⟩

theorem Mem.read_below {lo i : Nat} {m : Mem} (hm : Mem.canonicalFrom lo m = true) (hi : i < lo) :
    Mem.read m i = 0#8 := by
  induction m generalizing lo with
  | nil => rfl
  | cons c m ih =>
    obtain ⟨a, b⟩ := c
    rw [Mem.canonicalFrom_cons] at hm
    rw [Mem.read_cons, if_neg (by omega)]
    exact ih hm.2.2 (by omega)

theorem Mem.write_canonicalFrom {lo i : Nat} {m : Mem} (b : Byte)
    (hm : Mem.canonicalFrom lo m = true) (hi : lo ≤ i) :
    Mem.canonicalFrom lo (Mem.write m i b) = true := by
  induction m generalizing lo with
  | nil => by_cases hb : b = 0#8 <;> simp [Mem.write, Mem.canonicalFrom, hb, hi]
  | cons c m ih =>
    obtain ⟨a, c⟩ := c
    have hm' := (Mem.canonicalFrom_cons lo a c m).1 hm
    unfold Mem.write
    split
    · split
      · exact hm
      · rw [Mem.canonicalFrom_cons, Mem.canonicalFrom_cons]
        exact ⟨hi, by simpa using ‹_›, by omega, hm'.2⟩
    · split
      · split
        · exact Mem.canonicalFrom_weaken (by omega) hm'.2.2
        · rw [Mem.canonicalFrom_cons]
          exact ⟨hi, by simpa using ‹_›, by simp [*]⟩
      · rw [Mem.canonicalFrom_cons]
        exact ⟨hm'.1, hm'.2.1, ih hm'.2.2 (by omega)⟩

theorem Mem.write_wf {m : Mem} (i : Nat) (b : Byte) (hm : m.wf = true) :
    (Mem.write m i b).wf = true :=
  Mem.write_canonicalFrom b hm (Nat.zero_le i)

theorem Mem.writeBytes_wf {m : Mem} (i : Nat) (bs : List Byte) (hm : m.wf = true) :
    (Mem.writeBytes m i bs).wf = true := by
  induction bs generalizing m i with
  | nil => exact hm
  | cons b bs ih => exact ih _ (Mem.write_wf i b hm)

theorem Mem.cells_canonicalFrom (i : Nat) (bs : List Byte) :
    Mem.canonicalFrom i (Mem.cells i bs) = true := by
  induction bs generalizing i with
  | nil => rfl
  | cons b bs ih =>
    unfold Mem.cells
    split
    · exact Mem.canonicalFrom_weaken (Nat.le_succ i) (ih _)
    · rw [Mem.canonicalFrom_cons]
      exact ⟨le_rfl, by simpa using ‹_›, ih _⟩

theorem Mem.ofBytes_wf (bs : List Byte) : (Mem.ofBytes bs).wf = true :=
  Mem.cells_canonicalFrom 0 bs

/-! ### The size -/

theorem Mem.within_cons (n a : Nat) (b : Byte) (m : Mem) :
    Mem.within n ((a, b) :: m) = true ↔ a < n ∧ Mem.within n m = true := by
  simp [Mem.within]

theorem Mem.within_weaken {n n' : Nat} {m : Mem} (h : n ≤ n') (hm : Mem.within n m = true) :
    Mem.within n' m = true := by
  induction m with
  | nil => rfl
  | cons c m ih =>
    obtain ⟨a, b⟩ := c
    rw [Mem.within_cons] at hm ⊢
    exact ⟨by omega, ih hm.2⟩

theorem Mem.write_within {n i : Nat} {m : Mem} (b : Byte) (hm : Mem.within n m = true)
    (hi : i < n) : Mem.within n (Mem.write m i b) = true := by
  induction m with
  | nil => by_cases hb : b = 0#8 <;> simp [Mem.write, Mem.within, hb, hi]
  | cons c m ih =>
    obtain ⟨a, c⟩ := c
    have hm' := (Mem.within_cons n a c m).1 hm
    unfold Mem.write
    split <;> split
    · exact hm
    · simp [Mem.within_cons, hi, hm']
    · split <;> simp [Mem.within_cons, hi, hm']
    · rw [Mem.within_cons]
      exact ⟨hm'.1, ih hm'.2⟩

theorem Mem.writeBytes_within {n i : Nat} {m : Mem} (bs : List Byte) (hm : Mem.within n m = true)
    (hi : i + bs.length ≤ n) : Mem.within n (Mem.writeBytes m i bs) = true := by
  induction bs generalizing m i with
  | nil => exact hm
  | cons b bs ih =>
    simp only [List.length_cons] at hi
    exact ih (Mem.write_within b hm (by omega)) (by omega)

theorem Mem.cells_within {n i : Nat} (bs : List Byte) (h : i + bs.length ≤ n) :
    Mem.within n (Mem.cells i bs) = true := by
  induction bs generalizing i with
  | nil => rfl
  | cons b bs ih =>
    simp only [List.length_cons] at h
    unfold Mem.cells
    split
    · exact ih (by omega)
    · rw [Mem.within_cons]
      exact ⟨by omega, ih (by omega)⟩

theorem Mem.ofBytes_within {n : Nat} (bs : List Byte) (h : bs.length ≤ n) :
    Mem.within n (Mem.ofBytes bs) = true :=
  Mem.cells_within bs (by omega)

theorem Mem.read_beyond {n i : Nat} {m : Mem} (hm : Mem.within n m = true) (hi : n ≤ i) :
    Mem.read m i = 0#8 := by
  induction m with
  | nil => rfl
  | cons c m ih =>
    obtain ⟨a, b⟩ := c
    rw [Mem.within_cons] at hm
    rw [Mem.read_cons, if_neg (by omega)]
    exact ih hm.2

/-! ### Reading back -/

theorem Mem.read_write_from {lo : Nat} {m : Mem} (i : Nat) (b : Byte) (j : Nat)
    (hm : Mem.canonicalFrom lo m = true) :
    Mem.read (Mem.write m i b) j = if j = i then b else Mem.read m j := by
  induction m generalizing lo with
  | nil =>
    by_cases hb : b = 0#8
    · simp [Mem.write, hb]
    · simp [Mem.write, hb, Mem.read_cons]
  | cons c m ih =>
    obtain ⟨a, c⟩ := c
    have hm' := (Mem.canonicalFrom_cons lo a c m).1 hm
    have hlow : ∀ k, k < a + 1 → Mem.read m k = 0#8 := fun k hk => Mem.read_below hm'.2.2 hk
    unfold Mem.write
    split
    · split
      · next hb =>
        by_cases hj : j = i
        · subst hj
          rw [if_pos rfl, Mem.read_cons, if_neg (by omega), hlow _ (by omega)]
          exact hb.symm
        · rw [if_neg hj]
      · rw [Mem.read_cons]
    · split
      · next hia =>
        split
        · next hb =>
          by_cases hj : j = i
          · rw [if_pos hj, hj, hlow _ (by omega)]
            exact hb.symm
          · rw [if_neg hj, Mem.read_cons, if_neg (by omega)]
        · by_cases hj : j = i
          · rw [Mem.read_cons, if_pos hj, if_pos hj]
          · rw [Mem.read_cons, Mem.read_cons, if_neg hj, if_neg hj, if_neg (by omega)]
      · rw [Mem.read_cons, Mem.read_cons, ih hm'.2.2]
        by_cases hj : j = a
        · rw [if_pos hj, if_pos hj, if_neg (by omega)]
        · rw [if_neg hj, if_neg hj]

/-- A read after a write to the same index gives the byte written. -/
theorem Mem.read_write_same {m : Mem} (i : Nat) (b : Byte) (hm : m.wf = true) :
    Mem.read (Mem.write m i b) i = b := by
  rw [Mem.read_write_from i b i hm, if_pos rfl]

/-- A write leaves every other index alone. -/
theorem Mem.read_write_other {m : Mem} {i j : Nat} (b : Byte) (hm : m.wf = true) (h : j ≠ i) :
    Mem.read (Mem.write m i b) j = Mem.read m j := by
  rw [Mem.read_write_from i b j hm, if_neg h]

/-- What a write of several bytes leaves at each index. -/
theorem Mem.read_writeBytes {m : Mem} (i : Nat) (bs : List Byte) (j : Nat) (hm : m.wf = true) :
    Mem.read (Mem.writeBytes m i bs) j =
      if i ≤ j ∧ j < i + bs.length then bs.getD (j - i) 0#8 else Mem.read m j := by
  induction bs generalizing m i with
  | nil => simp [Mem.writeBytes]
  | cons b bs ih =>
    simp only [Mem.writeBytes, List.length_cons]
    rw [ih (i + 1) (Mem.write_wf i b hm), Mem.read_write_from i b j hm]
    by_cases hj : j = i
    · subst hj
      simp
    · by_cases h : i + 1 ≤ j ∧ j < i + 1 + bs.length
      · rw [if_pos h, if_pos (by omega)]
        have : j - i = (j - (i + 1)) + 1 := by omega
        rw [this, List.getD_cons_succ]
      · rw [if_neg h, if_neg hj, if_neg (by omega)]

theorem Mem.read_cells (i : Nat) (bs : List Byte) (j : Nat) :
    Mem.read (Mem.cells i bs) j = if i ≤ j then bs.getD (j - i) 0#8 else 0#8 := by
  induction bs generalizing i with
  | nil => simp [Mem.cells]
  | cons b bs ih =>
    have hcells : Mem.read (Mem.cells i (b :: bs)) j =
        if j = i then b else Mem.read (Mem.cells (i + 1) bs) j := by
      rw [Mem.cells]
      split
      · next hb =>
        by_cases hj : j = i
        · rw [if_pos hj, ih, if_neg (by omega)]
          exact hb.symm
        · rw [if_neg hj]
      · rw [Mem.read_cons]
    rw [hcells, ih]
    by_cases hj : j = i
    · subst hj
      simp
    · by_cases h : i + 1 ≤ j
      · rw [if_neg hj, if_pos h, if_pos (by omega)]
        have : j - i = (j - (i + 1)) + 1 := by omega
        rw [this, List.getD_cons_succ]
      · rw [if_neg hj, if_neg h, if_neg (by omega)]

/-- The array made from bytes reads as those bytes, and 0 beyond them. -/
theorem Mem.read_ofBytes (bs : List Byte) (j : Nat) :
    Mem.read (Mem.ofBytes bs) j = bs.getD j 0#8 := by
  simp [Mem.ofBytes, Mem.read_cells]

@[simp] theorem Mem.slice_length (m : Mem) (i n : Nat) : (Mem.slice m i n).length = n := by
  induction n generalizing i with
  | zero => rfl
  | succ n ih => simp [Mem.slice, ih]

theorem Mem.slice_getD (m : Mem) (i n j : Nat) :
    (Mem.slice m i n).getD j 0#8 = if j < n then Mem.read m (i + j) else 0#8 := by
  induction n generalizing i j with
  | zero => simp [Mem.slice]
  | succ n ih =>
    cases j with
    | zero => simp [Mem.slice]
    | succ j =>
      rw [Mem.slice, List.getD_cons_succ, ih]
      have : i + 1 + j = i + (j + 1) := by omega
      simp [this]

theorem Mem.slice_append (m : Mem) (i n k : Nat) :
    Mem.slice m i (n + k) = Mem.slice m i n ++ Mem.slice m (i + n) k := by
  induction n generalizing i with
  | zero => simp [Mem.slice]
  | succ n ih =>
    have h1 : n + 1 + k = (n + k) + 1 := by omega
    have h2 : i + (n + 1) = i + 1 + n := by omega
    rw [h1, h2, Mem.slice, Mem.slice, ih, List.cons_append]

theorem Mem.slice_drop (m : Mem) (i n k : Nat) (h : k ≤ n) :
    (Mem.slice m i n).drop k = Mem.slice m (i + k) (n - k) := by
  have : n = k + (n - k) := by omega
  rw [this, Mem.slice_append, List.drop_left' (Mem.slice_length m i k), Nat.add_sub_cancel_left]

/-! ### Equality -/

theorem Mem.eq_of_read_eq_from {lo : Nat} {m m' : Mem} (hm : Mem.canonicalFrom lo m = true)
    (hm' : Mem.canonicalFrom lo m' = true) (h : ∀ i, Mem.read m i = Mem.read m' i) : m = m' := by
  induction m generalizing lo m' with
  | nil =>
    cases m' with
    | nil => rfl
    | cons c m' =>
      obtain ⟨a, b⟩ := c
      have hb := ((Mem.canonicalFrom_cons lo a b m').1 hm').2.1
      have := h a
      rw [Mem.read_cons, if_pos rfl] at this
      exact absurd this.symm hb
  | cons c m ih =>
    obtain ⟨a, b⟩ := c
    have hc := (Mem.canonicalFrom_cons lo a b m).1 hm
    cases m' with
    | nil =>
      have := h a
      rw [Mem.read_cons, if_pos rfl] at this
      exact absurd this hc.2.1
    | cons c' m' =>
      obtain ⟨a', b'⟩ := c'
      have hc' := (Mem.canonicalFrom_cons lo a' b' m').1 hm'
      have haa : a = a' := by
        rcases Nat.lt_trichotomy a a' with hlt | heq | hgt
        · have := h a
          rw [Mem.read_cons, if_pos rfl, Mem.read_cons, if_neg (by omega),
            Mem.read_below hc'.2.2 (by omega)] at this
          exact absurd this hc.2.1
        · exact heq
        · have := h a'
          rw [Mem.read_cons, if_neg (by omega), Mem.read_below hc.2.2 (by omega),
            Mem.read_cons, if_pos rfl] at this
          exact absurd this.symm hc'.2.1
      subst haa
      have hbb : b = b' := by
        have := h a
        rwa [Mem.read_cons, if_pos rfl, Mem.read_cons, if_pos rfl] at this
      subst hbb
      have hrest : m = m' := by
        refine ih hc.2.2 hc'.2.2 fun i => ?_
        by_cases hi : i = a
        · rw [Mem.read_below hc.2.2 (by omega), Mem.read_below hc'.2.2 (by omega)]
        · have := h i
          rwa [Mem.read_cons, if_neg hi, Mem.read_cons, if_neg hi] at this
      rw [hrest]

/-- Canonical arrays that read the same everywhere are equal data. -/
theorem Mem.eq_of_read_eq {m m' : Mem} (hm : m.wf = true) (hm' : m'.wf = true)
    (h : ∀ i, Mem.read m i = Mem.read m' i) : m = m' :=
  Mem.eq_of_read_eq_from hm hm' h

end Sys2Proof.Machine
end

