-- ==== Sys2Proof/Laws/Decode.lean ====
section
/-! SUPPORT. What the decoder's building blocks do: how many characters each consumes, and that each
reads back what the encoder writes. -/

namespace Sys2Proof

/-! ### What is consumed -/

theorem hexByte_length {text rest : List Byte} {b : Byte} (h : hexByte text = .ok (b, rest)) :
    text.length = rest.length + 2 := by
  unfold hexByte at h
  split at h
  · split at h
    · cases h
      simp
    · cases h
  · cases h

theorem hexBytes_length {n : Nat} {text bs rest : List Byte}
    (h : hexBytes n text = .ok (bs, rest)) :
    bs.length = n ∧ text.length = rest.length + 2 * n := by
  induction n generalizing text bs rest with
  | zero =>
    cases h
    simp
  | succ n ih =>
    unfold hexBytes at h
    split at h
    · cases h
    · next hb =>
      split at h
      · cases h
      · next hbs =>
        cases h
        have h1 := hexByte_length hb
        have h2 := ih hbs
        simp only [List.length_cons]
        omega

/-- A decoded record has LL data bytes, and its `11 + 2*LL` characters are all there (R86). -/
theorem decodeFields_length {text : List Byte} {tt : Byte} {r : Rec}
    (h : decodeFields text = .ok (tt, r)) :
    r.data.length ≤ 255 ∧ 11 + 2 * r.data.length ≤ text.length := by
  unfold decodeFields at h
  split at h
  · cases h
  · split at h
    · split at h
      · cases h
      · next ll rest hll =>
        split at h
        · cases h
        · next bs rest' hbs =>
          cases h
          have h1 := hexByte_length hll
          have h2 := hexBytes_length hbs
          have h3 : ll.toNat < 256 := ll.isLt
          simp only [List.length_take, List.length_drop, List.length_cons]
          omega
    · cases h

theorem decodeFields_colon {text : List Byte} {tt : Byte} {r : Rec}
    (h : decodeFields text = .ok (tt, r)) : text.head? = some 0x3A := by
  unfold decodeFields at h
  split at h
  · cases h
  · split at h
    · next hc => simp [hc]
    · cases h

/-! ### What follows is not looked at -/

theorem hexByte_append {text rest : List Byte} {b : Byte} (h : hexByte text = .ok (b, rest))
    (more : List Byte) : hexByte (text ++ more) = .ok (b, rest ++ more) := by
  unfold hexByte at h
  split at h
  · split at h
    · next hhi hlo =>
      cases h
      simp only [List.cons_append, hexByte, hhi, hlo]
    · cases h
  · cases h

theorem hexBytes_append {n : Nat} {text bs rest : List Byte} (h : hexBytes n text = .ok (bs, rest))
    (more : List Byte) : hexBytes n (text ++ more) = .ok (bs, rest ++ more) := by
  induction n generalizing text bs rest with
  | zero =>
    cases h
    rfl
  | succ n ih =>
    unfold hexBytes at h
    split at h
    · cases h
    · next hb =>
      split at h
      · cases h
      · next hbs =>
        cases h
        simp only [hexBytes, hexByte_append hb, ih hbs]

/-- A record's text is read the same whatever follows it (R122, R125). -/
theorem decodeFields_append {text : List Byte} {tt : Byte} {r : Rec}
    (h : decodeFields text = .ok (tt, r)) (more : List Byte) :
    decodeFields (text ++ more) = .ok (tt, r) := by
  unfold decodeFields at h
  split at h
  · cases h
  · split at h
    · next hc =>
      split at h
      · cases h
      · next hll =>
        split at h
        · cases h
        · next hbs =>
          cases h
          simp only [List.cons_append, decodeFields, hc, if_true, hexByte_append hll,
            hexBytes_append hbs]
    · cases h

/-! ### Reading back what was written -/

theorem hexVal_hexDigit (n : Byte) (h : n < 16) : hexVal (hexDigit n) = some n := by
  revert n
  decide

/-- A byte's two characters read back as the byte. -/
theorem hexByte_hexText (b : Byte) (rest : List Byte) :
    hexByte (hexText b ++ rest) = .ok (b, rest) := by
  have hhi : b / 16 < 16 := by
    have := b.isLt
    rw [BitVec.lt_def, BitVec.toNat_udiv]
    simp
    omega
  have hlo : b % 16 < 16 := by
    rw [BitVec.lt_def, BitVec.toNat_umod]
    simp
    omega
  have hsum : 16 * (b / 16) + b % 16 = b := by
    apply BitVec.eq_of_toNat_eq
    have := b.isLt
    simp [BitVec.toNat_add, BitVec.toNat_mul, BitVec.toNat_udiv, BitVec.toNat_umod]
    omega
  simp only [hexText, List.cons_append, List.nil_append, hexByte, hexVal_hexDigit _ hhi,
    hexVal_hexDigit _ hlo, hsum]

/-- The characters of bytes read back as the bytes. -/
theorem hexBytes_hexText (bs rest : List Byte) :
    hexBytes bs.length (bs.flatMap hexText ++ rest) = .ok (bs, rest) := by
  induction bs with
  | nil => rfl
  | cons b bs ih =>
    simp only [List.length_cons, List.flatMap_cons, List.append_assoc, hexBytes, hexByte_hexText,
      ih]

@[simp] theorem recordType_code (t : RecordType) : recordType t.code = some t := by
  cases t <;> rfl

@[simp] theorem be32_length (w : Word) : (be32 w).length = 4 := rfl

@[simp] theorem padReport_length (bs : List Byte) : (padReport bs).length = 65 := by
  simp [padReport, Config.reportSize]

theorem getD_take_pad (n : Nat) (bs : List Byte) (i : Nat) :
    ((bs ++ List.replicate n 0#8).take n).getD i 0#8 = if i < n then bs.getD i 0#8 else 0#8 := by
  simp only [List.getD_eq_getElem?_getD, List.getElem?_take]
  by_cases hi : i < n
  · rw [if_pos hi, if_pos hi]
    by_cases hb : i < bs.length
    · rw [List.getElem?_append_left hb]
    · rw [List.getElem?_append_right (by omega), List.getElem?_replicate, if_pos (by omega),
        List.getElem?_eq_none (by omega)]
      rfl
  · rw [if_neg hi, if_neg hi]
    rfl

/-- The byte at each place of a padded report. -/
theorem padReport_getD (bs : List Byte) (i : Nat) :
    (padReport bs).getD i 0#8 = if i < 65 then bs.getD i 0#8 else 0#8 :=
  getD_take_pad 65 bs i

/-! ### Reading back what the encoder wrote -/

/-- A record's fields read back from its text, whatever bytes follow (R86). -/
theorem decodeFields_encodeFields (tt : Byte) (r : Rec) (rest : List Byte) (h : r.wf = true) :
    decodeFields (encodeFields tt r ++ rest) = .ok (tt, r) := by
  simp only [Rec.wf, decide_eq_true_eq] at h
  have hl : (BitVec.ofNat 8 r.data.length).toNat = r.data.length := by simp; omega
  have hb := hexBytes_hexText (r.ah :: r.al :: tt :: (r.data ++ [r.cc])) rest
  simp only [List.length_cons, List.length_append, List.length_nil, List.flatMap_cons,
    List.append_assoc] at hb
  rw [show r.data.length + (0 + 1) + 1 + 1 + 1 = r.data.length + 4 by omega] at hb
  simp only [encodeFields, decodeFields, List.flatMap_cons, List.append_assoc, List.cons_append,
    if_true, hexByte_hexText, hl, hb]
  cases r
  simp

theorem encodeFields_length (tt : Byte) (r : Rec) :
    (encodeFields tt r).length = 11 + 2 * r.data.length := by
  have : ∀ bs : List Byte, (bs.flatMap hexText).length = 2 * bs.length := by
    intro bs
    induction bs with
    | nil => rfl
    | cons b bs ih => simp only [List.flatMap_cons, List.length_append, ih, hexText,
        List.length_cons, List.length_nil]; omega
  simp only [encodeFields, List.length_cons, this, List.length_append, List.length_nil]
  omega

/-- A word reads back from its four bytes. -/
theorem ofBe32_be32 (w : Word) (rest : List Byte) : ofBe32 (be32 w ++ rest) = w := by
  have := w.isLt
  apply BitVec.eq_of_toNat_eq
  simp only [ofBe32, be32, List.cons_append, List.getD_cons_zero, List.getD_cons_succ,
    BitVec.toNat_ofNat, BitVec.extractLsb'_toNat, Nat.shiftRight_eq_div_pow]
  omega

/-- Bytes of a report that lie within what was written are what was written. -/
theorem padReport_slice (bs : List Byte) (j k : Nat) (hk : j + k ≤ bs.length) (h : j + k ≤ 65) :
    ((padReport bs).drop j).take k = (bs.drop j).take k := by
  have hd : ∀ l : List Byte, (l.drop j).take k = (l.take (j + k)).drop j := by
    intro l
    rw [List.drop_take, Nat.add_sub_cancel_left]
  rw [hd, hd, padReport, Config.reportSize, List.take_take, Nat.min_eq_left h,
    List.take_append_of_le_length hk]

/-- A report that was 65 bytes to begin with is itself. -/
theorem padReport_eq {bs : List Byte} (h : bs.length = 65) : padReport bs = bs := by
  unfold padReport Config.reportSize
  rw [List.take_append_of_le_length (by omega), List.take_of_length_le (by omega)]

/-- The length field reads back from a report that has one (R63). -/
theorem ofBe32_lengthReport (marker : Byte) (len : Word) (chunk : List Byte) :
    ofBe32 ((lengthReport marker len chunk).drop 2) = len := by
  have he := ofBe32_be32 len chunk
  have hk : ∀ k, k < 4 →
      ((lengthReport marker len chunk).drop 2).getD k 0#8 = (be32 len ++ chunk).getD k 0#8 := by
    intro k hk
    have := padReport_getD (0 :: marker :: (be32 len ++ chunk)) (2 + k)
    rw [if_pos (by omega), show 2 + k = k + 1 + 1 by omega, List.getD_cons_succ,
      List.getD_cons_succ] at this
    rw [← this]
    simp only [lengthReport, List.getD_eq_getElem?_getD, List.getElem?_drop]
    rw [show 2 + k = k + 1 + 1 by omega]
  unfold ofBe32 at he ⊢
  simp only [BitVec.ofNat_eq_ofNat] at he ⊢
  rw [hk 0 (by omega), hk 1 (by omega), hk 2 (by omega), hk 3 (by omega)]
  exact he

/-! ### The checksum -/

theorem foldr_add_toNat (bs : List Byte) :
    (bs.foldr (· + ·) 0).toNat = (bs.map BitVec.toNat).sum % 256 := by
  induction bs with
  | nil => rfl
  | cons b bs ih =>
    rw [List.foldr_cons, BitVec.toNat_add, ih, List.map_cons, List.sum_cons]
    omega

/-- The byte sum as a number (R84). -/
theorem Rec.sum_toNat (tt : Byte) (r : Rec) :
    (r.sum tt).toNat =
      (r.data.length + r.ah.toNat + r.al.toNat + tt.toNat + (r.data.map BitVec.toNat).sum) % 256 := by
  simp only [Rec.sum, BitVec.toNat_add, foldr_add_toNat, BitVec.toNat_ofNat]
  omega

end Sys2Proof
end

