-- ==== Sys2Proof/Laws/State.lean ====
section
/-! SUPPORT. What each field is after each named update of State: one lemma for each field and update,
true by definition, so that no proof unfolds a record update. -/

namespace Sys2Proof.Machine

variable (s : State)

/-! ### `State.raise` -/

@[simp] theorem State.raise_params (k : ErrKind) (info : ErrInfo) :
    (s.raise k info).params = s.params := rfl
@[simp] theorem State.raise_cfg (k : ErrKind) (info : ErrInfo) : (s.raise k info).cfg = s.cfg := rfl
@[simp] theorem State.raise_status (k : ErrKind) (info : ErrInfo) :
    (s.raise k info).status =
      { s.status with
        err := true, asmActive := false, asmDone := false,
        txWait := false, rxWait := false, busy := false } :=
    rfl
@[simp] theorem State.raise_rdr (k : ErrKind) (info : ErrInfo) : (s.raise k info).rdr = s.rdr := rfl
@[simp] theorem State.raise_err (k : ErrKind) (info : ErrInfo) :
    (s.raise k info).err =
      { code := k.code, line := info.line, offset := info.offset,
        addr := info.addr, expected := info.expected, actual := info.actual } :=
    rfl
@[simp] theorem State.raise_recOut (k : ErrKind) (info : ErrInfo) :
    (s.raise k info).recOut = s.recOut := rfl
@[simp] theorem State.raise_valOut (k : ErrKind) (info : ErrInfo) :
    (s.raise k info).valOut = s.valOut := rfl
@[simp] theorem State.raise_asm (k : ErrKind) (info : ErrInfo) : (s.raise k info).asm = s.asm := rfl
@[simp] theorem State.raise_blkOut (k : ErrKind) (info : ErrInfo) :
    (s.raise k info).blkOut = s.blkOut := rfl
@[simp] theorem State.raise_frm (k : ErrKind) (info : ErrInfo) : (s.raise k info).frm = s.frm := rfl
@[simp] theorem State.raise_rx (k : ErrKind) (info : ErrInfo) : (s.raise k info).rx = s.rx := rfl
@[simp] theorem State.raise_src (k : ErrKind) (info : ErrInfo) : (s.raise k info).src = s.src := rfl
@[simp] theorem State.raise_pkt (k : ErrKind) (info : ErrInfo) : (s.raise k info).pkt = s.pkt := rfl
@[simp] theorem State.raise_pendingCmd (k : ErrKind) (info : ErrInfo) :
    (s.raise k info).pendingCmd = s.pendingCmd := rfl
@[simp] theorem State.raise_txIn (k : ErrKind) (info : ErrInfo) :
    (s.raise k info).txIn = s.txIn := rfl
@[simp] theorem State.raise_rxIn (k : ErrKind) (info : ErrInfo) :
    (s.raise k info).rxIn = s.rxIn := rfl
@[simp] theorem State.raise_ret (k : ErrKind) (info : ErrInfo) : (s.raise k info).ret = s.ret := rfl
@[simp] theorem State.raise_actions (k : ErrKind) (info : ErrInfo) :
    (s.raise k info).actions = s.actions := rfl
@[simp] theorem State.raise_portOut (k : ErrKind) (info : ErrInfo) :
    (s.raise k info).portOut = s.portOut := rfl
@[simp] theorem State.raise_draws (k : ErrKind) (info : ErrInfo) :
    (s.raise k info).draws = s.draws := rfl
@[simp] theorem State.raise_unseen (k : ErrKind) (info : ErrInfo) :
    (s.raise k info).unseen = s.unseen := rfl

/-! ### `State.complete` -/

@[simp] theorem State.complete_params : s.complete.params = s.params := rfl
@[simp] theorem State.complete_cfg : s.complete.cfg = s.cfg := rfl
@[simp] theorem State.complete_status : s.complete.status = { s.status with busy := false } := rfl
@[simp] theorem State.complete_rdr : s.complete.rdr = s.rdr := rfl
@[simp] theorem State.complete_err : s.complete.err = s.err := rfl
@[simp] theorem State.complete_recOut : s.complete.recOut = s.recOut := rfl
@[simp] theorem State.complete_valOut : s.complete.valOut = s.valOut := rfl
@[simp] theorem State.complete_asm : s.complete.asm = s.asm := rfl
@[simp] theorem State.complete_blkOut : s.complete.blkOut = s.blkOut := rfl
@[simp] theorem State.complete_frm : s.complete.frm = s.frm := rfl
@[simp] theorem State.complete_rx : s.complete.rx = s.rx := rfl
@[simp] theorem State.complete_src : s.complete.src = s.src := rfl
@[simp] theorem State.complete_pkt : s.complete.pkt = s.pkt := rfl
@[simp] theorem State.complete_pendingCmd : s.complete.pendingCmd = s.pendingCmd := rfl
@[simp] theorem State.complete_txIn : s.complete.txIn = s.txIn := rfl
@[simp] theorem State.complete_rxIn : s.complete.rxIn = s.rxIn := rfl
@[simp] theorem State.complete_ret : s.complete.ret = s.ret := rfl
@[simp] theorem State.complete_actions : s.complete.actions = s.actions := rfl
@[simp] theorem State.complete_portOut : s.complete.portOut = s.portOut := rfl
@[simp] theorem State.complete_draws : s.complete.draws = s.draws := rfl
@[simp] theorem State.complete_unseen : s.complete.unseen = s.unseen := rfl

/-! ### `State.resetReader` -/

@[simp] theorem State.resetReader_params : s.resetReader.params = s.params := rfl
@[simp] theorem State.resetReader_cfg : s.resetReader.cfg = s.cfg := rfl
@[simp] theorem State.resetReader_status : s.resetReader.status = s.status := rfl
@[simp] theorem State.resetReader_rdr : s.resetReader.rdr = {} := rfl
@[simp] theorem State.resetReader_err : s.resetReader.err = s.err := rfl
@[simp] theorem State.resetReader_recOut : s.resetReader.recOut = s.recOut := rfl
@[simp] theorem State.resetReader_valOut : s.resetReader.valOut = s.valOut := rfl
@[simp] theorem State.resetReader_asm : s.resetReader.asm = s.asm := rfl
@[simp] theorem State.resetReader_blkOut : s.resetReader.blkOut = s.blkOut := rfl
@[simp] theorem State.resetReader_frm : s.resetReader.frm = s.frm := rfl
@[simp] theorem State.resetReader_rx : s.resetReader.rx = s.rx := rfl
@[simp] theorem State.resetReader_src : s.resetReader.src = s.src := rfl
@[simp] theorem State.resetReader_pkt : s.resetReader.pkt = s.pkt := rfl
@[simp] theorem State.resetReader_pendingCmd : s.resetReader.pendingCmd = s.pendingCmd := rfl
@[simp] theorem State.resetReader_txIn : s.resetReader.txIn = s.txIn := rfl
@[simp] theorem State.resetReader_rxIn : s.resetReader.rxIn = s.rxIn := rfl
@[simp] theorem State.resetReader_ret : s.resetReader.ret = s.ret := rfl
@[simp] theorem State.resetReader_actions : s.resetReader.actions = s.actions := rfl
@[simp] theorem State.resetReader_portOut : s.resetReader.portOut = s.portOut := rfl
@[simp] theorem State.resetReader_draws : s.resetReader.draws = s.draws := rfl
@[simp] theorem State.resetReader_unseen : s.resetReader.unseen = s.unseen := rfl

/-! ### `State.endAssembly` -/

@[simp] theorem State.endAssembly_params : s.endAssembly.params = s.params := rfl
@[simp] theorem State.endAssembly_cfg : s.endAssembly.cfg = s.cfg := rfl
@[simp] theorem State.endAssembly_status :
    s.endAssembly.status = { s.status with asmActive := false, asmDone := false } := rfl
@[simp] theorem State.endAssembly_rdr : s.endAssembly.rdr = s.rdr := rfl
@[simp] theorem State.endAssembly_err : s.endAssembly.err = s.err := rfl
@[simp] theorem State.endAssembly_recOut : s.endAssembly.recOut = s.recOut := rfl
@[simp] theorem State.endAssembly_valOut : s.endAssembly.valOut = s.valOut := rfl
@[simp] theorem State.endAssembly_asm : s.endAssembly.asm = s.asm := rfl
@[simp] theorem State.endAssembly_blkOut : s.endAssembly.blkOut = s.blkOut := rfl
@[simp] theorem State.endAssembly_frm : s.endAssembly.frm = s.frm := rfl
@[simp] theorem State.endAssembly_rx : s.endAssembly.rx = s.rx := rfl
@[simp] theorem State.endAssembly_src : s.endAssembly.src = s.src := rfl
@[simp] theorem State.endAssembly_pkt : s.endAssembly.pkt = s.pkt := rfl
@[simp] theorem State.endAssembly_pendingCmd : s.endAssembly.pendingCmd = s.pendingCmd := rfl
@[simp] theorem State.endAssembly_txIn : s.endAssembly.txIn = s.txIn := rfl
@[simp] theorem State.endAssembly_rxIn : s.endAssembly.rxIn = s.rxIn := rfl
@[simp] theorem State.endAssembly_ret : s.endAssembly.ret = s.ret := rfl
@[simp] theorem State.endAssembly_actions : s.endAssembly.actions = s.actions := rfl
@[simp] theorem State.endAssembly_portOut : s.endAssembly.portOut = s.portOut := rfl
@[simp] theorem State.endAssembly_draws : s.endAssembly.draws = s.draws := rfl
@[simp] theorem State.endAssembly_unseen : s.endAssembly.unseen = s.unseen := rfl

/-! ### `State.invalidate` -/

@[simp] theorem State.invalidate_params : s.invalidate.params = s.params := rfl
@[simp] theorem State.invalidate_cfg : s.invalidate.cfg = s.cfg := rfl
@[simp] theorem State.invalidate_status :
    s.invalidate.status = { s.status with validated := false, asmActive := false, asmDone := false } :=
    rfl
@[simp] theorem State.invalidate_rdr : s.invalidate.rdr = s.rdr := rfl
@[simp] theorem State.invalidate_err : s.invalidate.err = s.err := rfl
@[simp] theorem State.invalidate_recOut : s.invalidate.recOut = s.recOut := rfl
@[simp] theorem State.invalidate_valOut : s.invalidate.valOut = s.valOut := rfl
@[simp] theorem State.invalidate_asm : s.invalidate.asm = s.asm := rfl
@[simp] theorem State.invalidate_blkOut : s.invalidate.blkOut = s.blkOut := rfl
@[simp] theorem State.invalidate_frm : s.invalidate.frm = s.frm := rfl
@[simp] theorem State.invalidate_rx : s.invalidate.rx = s.rx := rfl
@[simp] theorem State.invalidate_src : s.invalidate.src = s.src := rfl
@[simp] theorem State.invalidate_pkt : s.invalidate.pkt = s.pkt := rfl
@[simp] theorem State.invalidate_pendingCmd : s.invalidate.pendingCmd = s.pendingCmd := rfl
@[simp] theorem State.invalidate_txIn : s.invalidate.txIn = s.txIn := rfl
@[simp] theorem State.invalidate_rxIn : s.invalidate.rxIn = s.rxIn := rfl
@[simp] theorem State.invalidate_ret : s.invalidate.ret = s.ret := rfl
@[simp] theorem State.invalidate_actions : s.invalidate.actions = s.actions := rfl
@[simp] theorem State.invalidate_portOut : s.invalidate.portOut = s.portOut := rfl
@[simp] theorem State.invalidate_draws : s.invalidate.draws = s.draws := rfl
@[simp] theorem State.invalidate_unseen : s.invalidate.unseen = s.unseen := rfl

/-! ### `State.drop` -/

@[simp] theorem State.drop_params : s.drop.params = s.params := rfl
@[simp] theorem State.drop_cfg : s.drop.cfg = s.cfg := rfl
@[simp] theorem State.drop_status : s.drop.status = { s.status with cmdDropped := true } := rfl
@[simp] theorem State.drop_rdr : s.drop.rdr = s.rdr := rfl
@[simp] theorem State.drop_err : s.drop.err = s.err := rfl
@[simp] theorem State.drop_recOut : s.drop.recOut = s.recOut := rfl
@[simp] theorem State.drop_valOut : s.drop.valOut = s.valOut := rfl
@[simp] theorem State.drop_asm : s.drop.asm = s.asm := rfl
@[simp] theorem State.drop_blkOut : s.drop.blkOut = s.blkOut := rfl
@[simp] theorem State.drop_frm : s.drop.frm = s.frm := rfl
@[simp] theorem State.drop_rx : s.drop.rx = s.rx := rfl
@[simp] theorem State.drop_src : s.drop.src = s.src := rfl
@[simp] theorem State.drop_pkt : s.drop.pkt = s.pkt := rfl
@[simp] theorem State.drop_pendingCmd : s.drop.pendingCmd = s.pendingCmd := rfl
@[simp] theorem State.drop_txIn : s.drop.txIn = s.txIn := rfl
@[simp] theorem State.drop_rxIn : s.drop.rxIn = s.rxIn := rfl
@[simp] theorem State.drop_ret : s.drop.ret = s.ret := rfl
@[simp] theorem State.drop_actions : s.drop.actions = s.actions := rfl
@[simp] theorem State.drop_portOut : s.drop.portOut = s.portOut := rfl
@[simp] theorem State.drop_draws : s.drop.draws = s.draws := rfl
@[simp] theorem State.drop_unseen : s.drop.unseen = s.unseen := rfl

/-! ### `State.atCursor` -/

@[simp] theorem State.atCursor_params (n : Nat) : (s.atCursor n).params = s.params := rfl
@[simp] theorem State.atCursor_cfg (n : Nat) : (s.atCursor n).cfg = s.cfg := rfl
@[simp] theorem State.atCursor_status (n : Nat) : (s.atCursor n).status = s.status := rfl
@[simp] theorem State.atCursor_rdr (n : Nat) :
    (s.atCursor n).rdr = { s.rdr with cursor := BitVec.ofNat 32 n } := rfl
@[simp] theorem State.atCursor_err (n : Nat) : (s.atCursor n).err = s.err := rfl
@[simp] theorem State.atCursor_recOut (n : Nat) : (s.atCursor n).recOut = s.recOut := rfl
@[simp] theorem State.atCursor_valOut (n : Nat) : (s.atCursor n).valOut = s.valOut := rfl
@[simp] theorem State.atCursor_asm (n : Nat) : (s.atCursor n).asm = s.asm := rfl
@[simp] theorem State.atCursor_blkOut (n : Nat) : (s.atCursor n).blkOut = s.blkOut := rfl
@[simp] theorem State.atCursor_frm (n : Nat) : (s.atCursor n).frm = s.frm := rfl
@[simp] theorem State.atCursor_rx (n : Nat) : (s.atCursor n).rx = s.rx := rfl
@[simp] theorem State.atCursor_src (n : Nat) : (s.atCursor n).src = s.src := rfl
@[simp] theorem State.atCursor_pkt (n : Nat) : (s.atCursor n).pkt = s.pkt := rfl
@[simp] theorem State.atCursor_pendingCmd (n : Nat) :
    (s.atCursor n).pendingCmd = s.pendingCmd := rfl
@[simp] theorem State.atCursor_txIn (n : Nat) : (s.atCursor n).txIn = s.txIn := rfl
@[simp] theorem State.atCursor_rxIn (n : Nat) : (s.atCursor n).rxIn = s.rxIn := rfl
@[simp] theorem State.atCursor_ret (n : Nat) : (s.atCursor n).ret = s.ret := rfl
@[simp] theorem State.atCursor_actions (n : Nat) : (s.atCursor n).actions = s.actions := rfl
@[simp] theorem State.atCursor_portOut (n : Nat) : (s.atCursor n).portOut = s.portOut := rfl
@[simp] theorem State.atCursor_draws (n : Nat) : (s.atCursor n).draws = s.draws := rfl
@[simp] theorem State.atCursor_unseen (n : Nat) : (s.atCursor n).unseen = s.unseen := rfl

/-! ### `State.taken` -/

@[simp] theorem State.taken_params : s.taken.params = s.params := rfl
@[simp] theorem State.taken_cfg : s.taken.cfg = s.cfg := rfl
@[simp] theorem State.taken_status : s.taken.status = s.status := rfl
@[simp] theorem State.taken_rdr : s.taken.rdr = s.rdr := rfl
@[simp] theorem State.taken_err : s.taken.err = s.err := rfl
@[simp] theorem State.taken_recOut : s.taken.recOut = s.recOut := rfl
@[simp] theorem State.taken_valOut : s.taken.valOut = s.valOut := rfl
@[simp] theorem State.taken_asm : s.taken.asm = s.asm := rfl
@[simp] theorem State.taken_blkOut : s.taken.blkOut = s.blkOut := rfl
@[simp] theorem State.taken_frm : s.taken.frm = s.frm := rfl
@[simp] theorem State.taken_rx : s.taken.rx = s.rx := rfl
@[simp] theorem State.taken_src : s.taken.src = s.src := rfl
@[simp] theorem State.taken_pkt : s.taken.pkt = s.pkt := rfl
@[simp] theorem State.taken_pendingCmd : s.taken.pendingCmd = s.pendingCmd := rfl
@[simp] theorem State.taken_txIn : s.taken.txIn = s.txIn := rfl
@[simp] theorem State.taken_rxIn : s.taken.rxIn = s.rxIn := rfl
@[simp] theorem State.taken_ret : s.taken.ret = .idle := rfl
@[simp] theorem State.taken_actions : s.taken.actions = s.actions := rfl
@[simp] theorem State.taken_portOut : s.taken.portOut = s.portOut := rfl
@[simp] theorem State.taken_draws : s.taken.draws = s.draws := rfl
@[simp] theorem State.taken_unseen : s.taken.unseen = s.unseen := rfl

/-! ### `State.putRecord` -/

@[simp] theorem State.putRecord_params (k : BitVec 2) (out : RecordRegs) :
    (s.putRecord k out).params = s.params := rfl
@[simp] theorem State.putRecord_cfg (k : BitVec 2) (out : RecordRegs) :
    (s.putRecord k out).cfg = s.cfg := rfl
@[simp] theorem State.putRecord_status (k : BitVec 2) (out : RecordRegs) :
    (s.putRecord k out).status = { s.status with recKind := k } := rfl
@[simp] theorem State.putRecord_rdr (k : BitVec 2) (out : RecordRegs) :
    (s.putRecord k out).rdr = s.rdr := rfl
@[simp] theorem State.putRecord_err (k : BitVec 2) (out : RecordRegs) :
    (s.putRecord k out).err = s.err := rfl
@[simp] theorem State.putRecord_recOut (k : BitVec 2) (out : RecordRegs) :
    (s.putRecord k out).recOut = out := rfl
@[simp] theorem State.putRecord_valOut (k : BitVec 2) (out : RecordRegs) :
    (s.putRecord k out).valOut = s.valOut := rfl
@[simp] theorem State.putRecord_asm (k : BitVec 2) (out : RecordRegs) :
    (s.putRecord k out).asm = s.asm := rfl
@[simp] theorem State.putRecord_blkOut (k : BitVec 2) (out : RecordRegs) :
    (s.putRecord k out).blkOut = s.blkOut := rfl
@[simp] theorem State.putRecord_frm (k : BitVec 2) (out : RecordRegs) :
    (s.putRecord k out).frm = s.frm := rfl
@[simp] theorem State.putRecord_rx (k : BitVec 2) (out : RecordRegs) :
    (s.putRecord k out).rx = s.rx := rfl
@[simp] theorem State.putRecord_src (k : BitVec 2) (out : RecordRegs) :
    (s.putRecord k out).src = s.src := rfl
@[simp] theorem State.putRecord_pkt (k : BitVec 2) (out : RecordRegs) :
    (s.putRecord k out).pkt = s.pkt := rfl
@[simp] theorem State.putRecord_pendingCmd (k : BitVec 2) (out : RecordRegs) :
    (s.putRecord k out).pendingCmd = s.pendingCmd := rfl
@[simp] theorem State.putRecord_txIn (k : BitVec 2) (out : RecordRegs) :
    (s.putRecord k out).txIn = s.txIn := rfl
@[simp] theorem State.putRecord_rxIn (k : BitVec 2) (out : RecordRegs) :
    (s.putRecord k out).rxIn = s.rxIn := rfl
@[simp] theorem State.putRecord_ret (k : BitVec 2) (out : RecordRegs) :
    (s.putRecord k out).ret = s.ret := rfl
@[simp] theorem State.putRecord_actions (k : BitVec 2) (out : RecordRegs) :
    (s.putRecord k out).actions = s.actions := rfl
@[simp] theorem State.putRecord_portOut (k : BitVec 2) (out : RecordRegs) :
    (s.putRecord k out).portOut = s.portOut := rfl
@[simp] theorem State.putRecord_draws (k : BitVec 2) (out : RecordRegs) :
    (s.putRecord k out).draws = s.draws := rfl
@[simp] theorem State.putRecord_unseen (k : BitVec 2) (out : RecordRegs) :
    (s.putRecord k out).unseen = s.unseen := rfl

/-! ### `State.dropBlock` -/

@[simp] theorem State.dropBlock_params : s.dropBlock.params = s.params := rfl
@[simp] theorem State.dropBlock_cfg : s.dropBlock.cfg = s.cfg := rfl
@[simp] theorem State.dropBlock_status :
    s.dropBlock.status = { s.status with blkValid := false } := rfl
@[simp] theorem State.dropBlock_rdr : s.dropBlock.rdr = s.rdr := rfl
@[simp] theorem State.dropBlock_err : s.dropBlock.err = s.err := rfl
@[simp] theorem State.dropBlock_recOut : s.dropBlock.recOut = s.recOut := rfl
@[simp] theorem State.dropBlock_valOut : s.dropBlock.valOut = s.valOut := rfl
@[simp] theorem State.dropBlock_asm : s.dropBlock.asm = s.asm := rfl
@[simp] theorem State.dropBlock_blkOut : s.dropBlock.blkOut = s.blkOut := rfl
@[simp] theorem State.dropBlock_frm : s.dropBlock.frm = s.frm := rfl
@[simp] theorem State.dropBlock_rx : s.dropBlock.rx = s.rx := rfl
@[simp] theorem State.dropBlock_src : s.dropBlock.src = s.src := rfl
@[simp] theorem State.dropBlock_pkt : s.dropBlock.pkt = s.pkt := rfl
@[simp] theorem State.dropBlock_pendingCmd : s.dropBlock.pendingCmd = s.pendingCmd := rfl
@[simp] theorem State.dropBlock_txIn : s.dropBlock.txIn = s.txIn := rfl
@[simp] theorem State.dropBlock_rxIn : s.dropBlock.rxIn = s.rxIn := rfl
@[simp] theorem State.dropBlock_ret : s.dropBlock.ret = s.ret := rfl
@[simp] theorem State.dropBlock_actions : s.dropBlock.actions = s.actions := rfl
@[simp] theorem State.dropBlock_portOut : s.dropBlock.portOut = s.portOut := rfl
@[simp] theorem State.dropBlock_draws : s.dropBlock.draws = s.draws := rfl
@[simp] theorem State.dropBlock_unseen : s.dropBlock.unseen = s.unseen := rfl

/-! ### `State.putTxr` -/

@[simp] theorem State.putTxr_params (r : List Byte) : (s.putTxr r).params = s.params := rfl
@[simp] theorem State.putTxr_cfg (r : List Byte) : (s.putTxr r).cfg = s.cfg := rfl
@[simp] theorem State.putTxr_status (r : List Byte) : (s.putTxr r).status = s.status := rfl
@[simp] theorem State.putTxr_rdr (r : List Byte) : (s.putTxr r).rdr = s.rdr := rfl
@[simp] theorem State.putTxr_err (r : List Byte) : (s.putTxr r).err = s.err := rfl
@[simp] theorem State.putTxr_recOut (r : List Byte) : (s.putTxr r).recOut = s.recOut := rfl
@[simp] theorem State.putTxr_valOut (r : List Byte) : (s.putTxr r).valOut = s.valOut := rfl
@[simp] theorem State.putTxr_asm (r : List Byte) : (s.putTxr r).asm = s.asm := rfl
@[simp] theorem State.putTxr_blkOut (r : List Byte) : (s.putTxr r).blkOut = s.blkOut := rfl
@[simp] theorem State.putTxr_frm (r : List Byte) :
    (s.putTxr r).frm = { s.frm with txr := Mem.ofBytes r } := rfl
@[simp] theorem State.putTxr_rx (r : List Byte) : (s.putTxr r).rx = s.rx := rfl
@[simp] theorem State.putTxr_src (r : List Byte) : (s.putTxr r).src = s.src := rfl
@[simp] theorem State.putTxr_pkt (r : List Byte) : (s.putTxr r).pkt = s.pkt := rfl
@[simp] theorem State.putTxr_pendingCmd (r : List Byte) :
    (s.putTxr r).pendingCmd = s.pendingCmd := rfl
@[simp] theorem State.putTxr_txIn (r : List Byte) : (s.putTxr r).txIn = s.txIn := rfl
@[simp] theorem State.putTxr_rxIn (r : List Byte) : (s.putTxr r).rxIn = s.rxIn := rfl
@[simp] theorem State.putTxr_ret (r : List Byte) : (s.putTxr r).ret = s.ret := rfl
@[simp] theorem State.putTxr_actions (r : List Byte) : (s.putTxr r).actions = s.actions := rfl
@[simp] theorem State.putTxr_portOut (r : List Byte) : (s.putTxr r).portOut = s.portOut := rfl
@[simp] theorem State.putTxr_draws (r : List Byte) : (s.putTxr r).draws = s.draws := rfl
@[simp] theorem State.putTxr_unseen (r : List Byte) : (s.putTxr r).unseen = s.unseen := rfl

/-! ### `State.transferDone` -/

@[simp] theorem State.transferDone_params : s.transferDone.params = s.params := rfl
@[simp] theorem State.transferDone_cfg : s.transferDone.cfg = s.cfg := rfl
@[simp] theorem State.transferDone_status :
    s.transferDone.status = { s.status with xferDone := true, busy := false } := rfl
@[simp] theorem State.transferDone_rdr : s.transferDone.rdr = s.rdr := rfl
@[simp] theorem State.transferDone_err : s.transferDone.err = s.err := rfl
@[simp] theorem State.transferDone_recOut : s.transferDone.recOut = s.recOut := rfl
@[simp] theorem State.transferDone_valOut : s.transferDone.valOut = s.valOut := rfl
@[simp] theorem State.transferDone_asm : s.transferDone.asm = s.asm := rfl
@[simp] theorem State.transferDone_blkOut : s.transferDone.blkOut = s.blkOut := rfl
@[simp] theorem State.transferDone_frm : s.transferDone.frm = s.frm := rfl
@[simp] theorem State.transferDone_rx : s.transferDone.rx = s.rx := rfl
@[simp] theorem State.transferDone_src : s.transferDone.src = s.src := rfl
@[simp] theorem State.transferDone_pkt : s.transferDone.pkt = s.pkt := rfl
@[simp] theorem State.transferDone_pendingCmd : s.transferDone.pendingCmd = s.pendingCmd := rfl
@[simp] theorem State.transferDone_txIn : s.transferDone.txIn = s.txIn := rfl
@[simp] theorem State.transferDone_rxIn : s.transferDone.rxIn = s.rxIn := rfl
@[simp] theorem State.transferDone_ret : s.transferDone.ret = s.ret := rfl
@[simp] theorem State.transferDone_actions : s.transferDone.actions = s.actions := rfl
@[simp] theorem State.transferDone_portOut : s.transferDone.portOut = s.portOut := rfl
@[simp] theorem State.transferDone_draws : s.transferDone.draws = s.draws := rfl
@[simp] theorem State.transferDone_unseen : s.transferDone.unseen = s.unseen := rfl

/-! ### `State.awaitRx` -/

@[simp] theorem State.awaitRx_params : s.awaitRx.params = s.params := rfl
@[simp] theorem State.awaitRx_cfg : s.awaitRx.cfg = s.cfg := rfl
@[simp] theorem State.awaitRx_status : s.awaitRx.status = { s.status with rxWait := true } := rfl
@[simp] theorem State.awaitRx_rdr : s.awaitRx.rdr = s.rdr := rfl
@[simp] theorem State.awaitRx_err : s.awaitRx.err = s.err := rfl
@[simp] theorem State.awaitRx_recOut : s.awaitRx.recOut = s.recOut := rfl
@[simp] theorem State.awaitRx_valOut : s.awaitRx.valOut = s.valOut := rfl
@[simp] theorem State.awaitRx_asm : s.awaitRx.asm = s.asm := rfl
@[simp] theorem State.awaitRx_blkOut : s.awaitRx.blkOut = s.blkOut := rfl
@[simp] theorem State.awaitRx_frm : s.awaitRx.frm = s.frm := rfl
@[simp] theorem State.awaitRx_rx : s.awaitRx.rx = s.rx := rfl
@[simp] theorem State.awaitRx_src : s.awaitRx.src = s.src := rfl
@[simp] theorem State.awaitRx_pkt : s.awaitRx.pkt = s.pkt := rfl
@[simp] theorem State.awaitRx_pendingCmd : s.awaitRx.pendingCmd = s.pendingCmd := rfl
@[simp] theorem State.awaitRx_txIn : s.awaitRx.txIn = s.txIn := rfl
@[simp] theorem State.awaitRx_rxIn : s.awaitRx.rxIn = s.rxIn := rfl
@[simp] theorem State.awaitRx_ret : s.awaitRx.ret = s.ret := rfl
@[simp] theorem State.awaitRx_actions : s.awaitRx.actions = s.actions := rfl
@[simp] theorem State.awaitRx_portOut : s.awaitRx.portOut = s.portOut := rfl
@[simp] theorem State.awaitRx_draws : s.awaitRx.draws = s.draws := rfl
@[simp] theorem State.awaitRx_unseen : s.awaitRx.unseen = s.unseen := rfl

/-! ### `State.returnWord` -/

@[simp] theorem State.returnWord_params (v : Word) : (s.returnWord v).params = s.params := rfl
@[simp] theorem State.returnWord_cfg (v : Word) : (s.returnWord v).cfg = s.cfg := rfl
@[simp] theorem State.returnWord_status (v : Word) : (s.returnWord v).status = s.status := rfl
@[simp] theorem State.returnWord_rdr (v : Word) : (s.returnWord v).rdr = s.rdr := rfl
@[simp] theorem State.returnWord_err (v : Word) : (s.returnWord v).err = s.err := rfl
@[simp] theorem State.returnWord_recOut (v : Word) : (s.returnWord v).recOut = s.recOut := rfl
@[simp] theorem State.returnWord_valOut (v : Word) : (s.returnWord v).valOut = s.valOut := rfl
@[simp] theorem State.returnWord_asm (v : Word) : (s.returnWord v).asm = s.asm := rfl
@[simp] theorem State.returnWord_blkOut (v : Word) : (s.returnWord v).blkOut = s.blkOut := rfl
@[simp] theorem State.returnWord_frm (v : Word) : (s.returnWord v).frm = s.frm := rfl
@[simp] theorem State.returnWord_rx (v : Word) : (s.returnWord v).rx = s.rx := rfl
@[simp] theorem State.returnWord_src (v : Word) : (s.returnWord v).src = s.src := rfl
@[simp] theorem State.returnWord_pkt (v : Word) : (s.returnWord v).pkt = s.pkt := rfl
@[simp] theorem State.returnWord_pendingCmd (v : Word) :
    (s.returnWord v).pendingCmd = s.pendingCmd := rfl
@[simp] theorem State.returnWord_txIn (v : Word) : (s.returnWord v).txIn = s.txIn := rfl
@[simp] theorem State.returnWord_rxIn (v : Word) : (s.returnWord v).rxIn = s.rxIn := rfl
@[simp] theorem State.returnWord_ret (v : Word) : (s.returnWord v).ret = s.ret := rfl
@[simp] theorem State.returnWord_actions (v : Word) : (s.returnWord v).actions = s.actions := rfl
@[simp] theorem State.returnWord_portOut (v : Word) : (s.returnWord v).portOut = v := rfl
@[simp] theorem State.returnWord_draws (v : Word) : (s.returnWord v).draws = s.draws + 1 := rfl
@[simp] theorem State.returnWord_unseen (v : Word) : (s.returnWord v).unseen = s.unseen := rfl

/-! ### `State.observe` -/

@[simp] theorem State.observe_params (idx : BitVec 6) : (s.observe idx).params = s.params := rfl
@[simp] theorem State.observe_cfg (idx : BitVec 6) : (s.observe idx).cfg = s.cfg := rfl
@[simp] theorem State.observe_status (idx : BitVec 6) : (s.observe idx).status = s.status := rfl
@[simp] theorem State.observe_rdr (idx : BitVec 6) : (s.observe idx).rdr = s.rdr := rfl
@[simp] theorem State.observe_err (idx : BitVec 6) : (s.observe idx).err = s.err := rfl
@[simp] theorem State.observe_recOut (idx : BitVec 6) : (s.observe idx).recOut = s.recOut := rfl
@[simp] theorem State.observe_valOut (idx : BitVec 6) : (s.observe idx).valOut = s.valOut := rfl
@[simp] theorem State.observe_asm (idx : BitVec 6) : (s.observe idx).asm = s.asm := rfl
@[simp] theorem State.observe_blkOut (idx : BitVec 6) : (s.observe idx).blkOut = s.blkOut := rfl
@[simp] theorem State.observe_frm (idx : BitVec 6) : (s.observe idx).frm = s.frm := rfl
@[simp] theorem State.observe_rx (idx : BitVec 6) : (s.observe idx).rx = s.rx := rfl
@[simp] theorem State.observe_src (idx : BitVec 6) : (s.observe idx).src = s.src := rfl
@[simp] theorem State.observe_pkt (idx : BitVec 6) : (s.observe idx).pkt = s.pkt := rfl
@[simp] theorem State.observe_pendingCmd (idx : BitVec 6) : (s.observe idx).pendingCmd = s.pendingCmd := rfl
@[simp] theorem State.observe_txIn (idx : BitVec 6) : (s.observe idx).txIn = s.txIn := rfl
@[simp] theorem State.observe_rxIn (idx : BitVec 6) : (s.observe idx).rxIn = s.rxIn := rfl
@[simp] theorem State.observe_ret (idx : BitVec 6) : (s.observe idx).ret = s.ret := rfl
@[simp] theorem State.observe_actions (idx : BitVec 6) : (s.observe idx).actions = s.actions := rfl
@[simp] theorem State.observe_portOut (idx : BitVec 6) : (s.observe idx).portOut = s.portOut := rfl
@[simp] theorem State.observe_draws (idx : BitVec 6) : (s.observe idx).draws = s.draws := rfl
@[simp] theorem State.observe_unseen (idx : BitVec 6) :
    (s.observe idx).unseen =
      if idx == Slot.STATUS && !s.status.busy then [] else s.unseen := rfl

/-- Accepting a command adds it to those whose results await a read of STATUS, and takes none away. -/
@[simp] theorem mem_noteCommand (l : List (BitVec 4)) (c opc : BitVec 4) :
    c ∈ noteCommand l opc ↔ c = opc ∨ c ∈ l := by
  unfold noteCommand
  split
  · next h => exact ⟨.inr, fun h' => h'.elim (fun e => e ▸ by simpa using h) id⟩
  · simp

/-! ### `State.accept` -/

@[simp] theorem State.accept_params (opc : BitVec 4) : (s.accept opc).params = s.params := rfl
@[simp] theorem State.accept_cfg (opc : BitVec 4) : (s.accept opc).cfg = s.cfg := rfl
@[simp] theorem State.accept_status (opc : BitVec 4) :
    (s.accept opc).status = { s.status with busy := true } := rfl
@[simp] theorem State.accept_rdr (opc : BitVec 4) : (s.accept opc).rdr = s.rdr := rfl
@[simp] theorem State.accept_err (opc : BitVec 4) : (s.accept opc).err = s.err := rfl
@[simp] theorem State.accept_recOut (opc : BitVec 4) : (s.accept opc).recOut = s.recOut := rfl
@[simp] theorem State.accept_valOut (opc : BitVec 4) : (s.accept opc).valOut = s.valOut := rfl
@[simp] theorem State.accept_asm (opc : BitVec 4) : (s.accept opc).asm = s.asm := rfl
@[simp] theorem State.accept_blkOut (opc : BitVec 4) : (s.accept opc).blkOut = s.blkOut := rfl
@[simp] theorem State.accept_frm (opc : BitVec 4) : (s.accept opc).frm = s.frm := rfl
@[simp] theorem State.accept_rx (opc : BitVec 4) : (s.accept opc).rx = s.rx := rfl
@[simp] theorem State.accept_src (opc : BitVec 4) : (s.accept opc).src = s.src := rfl
@[simp] theorem State.accept_pkt (opc : BitVec 4) : (s.accept opc).pkt = s.pkt := rfl
@[simp] theorem State.accept_pendingCmd (opc : BitVec 4) : (s.accept opc).pendingCmd = opc := rfl
@[simp] theorem State.accept_txIn (opc : BitVec 4) : (s.accept opc).txIn = s.txIn := rfl
@[simp] theorem State.accept_rxIn (opc : BitVec 4) : (s.accept opc).rxIn = s.rxIn := rfl
@[simp] theorem State.accept_ret (opc : BitVec 4) : (s.accept opc).ret = s.ret := rfl
@[simp] theorem State.accept_actions (opc : BitVec 4) : (s.accept opc).actions = s.actions := rfl
@[simp] theorem State.accept_portOut (opc : BitVec 4) : (s.accept opc).portOut = s.portOut := rfl
@[simp] theorem State.accept_draws (opc : BitVec 4) : (s.accept opc).draws = s.draws := rfl
@[simp] theorem State.accept_unseen (opc : BitVec 4) :
    (s.accept opc).unseen = noteCommand s.unseen opc := rfl

/-! ### `State.startCommand` -/

@[simp] theorem State.startCommand_params : s.startCommand.params = s.params := rfl
@[simp] theorem State.startCommand_cfg : s.startCommand.cfg = s.cfg := rfl
@[simp] theorem State.startCommand_status :
    s.startCommand.status =
      { s.status with blkValid := s.status.blkValid && s.pendingCmd != 0x4 } := rfl
@[simp] theorem State.startCommand_rdr : s.startCommand.rdr = s.rdr := rfl
@[simp] theorem State.startCommand_err : s.startCommand.err = s.err := rfl
@[simp] theorem State.startCommand_recOut : s.startCommand.recOut = s.recOut := rfl
@[simp] theorem State.startCommand_valOut : s.startCommand.valOut = s.valOut := rfl
@[simp] theorem State.startCommand_asm : s.startCommand.asm = s.asm := rfl
@[simp] theorem State.startCommand_blkOut : s.startCommand.blkOut = s.blkOut := rfl
@[simp] theorem State.startCommand_frm : s.startCommand.frm = s.frm := rfl
@[simp] theorem State.startCommand_rx : s.startCommand.rx = s.rx := rfl
@[simp] theorem State.startCommand_src : s.startCommand.src = s.src := rfl
@[simp] theorem State.startCommand_pkt : s.startCommand.pkt = s.pkt := rfl
@[simp] theorem State.startCommand_pendingCmd : s.startCommand.pendingCmd = s.pendingCmd := rfl
@[simp] theorem State.startCommand_txIn : s.startCommand.txIn = s.txIn := rfl
@[simp] theorem State.startCommand_rxIn : s.startCommand.rxIn = s.rxIn := rfl
@[simp] theorem State.startCommand_ret : s.startCommand.ret = s.ret := rfl
@[simp] theorem State.startCommand_actions : s.startCommand.actions = s.actions := rfl
@[simp] theorem State.startCommand_portOut : s.startCommand.portOut = s.portOut := rfl
@[simp] theorem State.startCommand_draws : s.startCommand.draws = s.draws := rfl
@[simp] theorem State.startCommand_unseen : s.startCommand.unseen = s.unseen := rfl

/-- The start of a command other than NEXT_BLOCK changes nothing. -/
theorem State.startCommand_of_ne (h : s.pendingCmd ≠ 0x4) : s.startCommand = s := by
  rw [State.startCommand, bne_iff_ne.2 h, Bool.and_true]

/-- The start of NEXT_BLOCK clears BLK_VALID (R25; log 23). -/
theorem State.startCommand_of_nextBlock (h : s.pendingCmd = 0x4) : s.startCommand = s.dropBlock := by
  simp [State.startCommand, State.dropBlock, h]

/-! ### `recordError` -/

@[simp] theorem recordError_params (k : ErrKind) (info : ErrInfo) :
    (recordError k info s).params = s.params := rfl
@[simp] theorem recordError_cfg (k : ErrKind) (info : ErrInfo) :
    (recordError k info s).cfg = s.cfg := rfl
@[simp] theorem recordError_status (k : ErrKind) (info : ErrInfo) :
    (recordError k info s).status =
      { s.status with
        err := true, asmActive := false, asmDone := false,
        txWait := false, rxWait := false, busy := false } :=
    rfl
@[simp] theorem recordError_rdr (k : ErrKind) (info : ErrInfo) :
    (recordError k info s).rdr = s.rdr := rfl
@[simp] theorem recordError_err (k : ErrKind) (info : ErrInfo) :
    (recordError k info s).err =
      { code := k.code, line := s.rdr.lines + 1, offset := s.rdr.cursor,
        addr := info.addr, expected := info.expected, actual := info.actual } :=
    rfl
@[simp] theorem recordError_recOut (k : ErrKind) (info : ErrInfo) :
    (recordError k info s).recOut = s.recOut := rfl
@[simp] theorem recordError_valOut (k : ErrKind) (info : ErrInfo) :
    (recordError k info s).valOut = s.valOut := rfl
@[simp] theorem recordError_asm (k : ErrKind) (info : ErrInfo) :
    (recordError k info s).asm = s.asm := rfl
@[simp] theorem recordError_blkOut (k : ErrKind) (info : ErrInfo) :
    (recordError k info s).blkOut = s.blkOut := rfl
@[simp] theorem recordError_frm (k : ErrKind) (info : ErrInfo) :
    (recordError k info s).frm = s.frm := rfl
@[simp] theorem recordError_rx (k : ErrKind) (info : ErrInfo) :
    (recordError k info s).rx = s.rx := rfl
@[simp] theorem recordError_src (k : ErrKind) (info : ErrInfo) :
    (recordError k info s).src = s.src := rfl
@[simp] theorem recordError_pkt (k : ErrKind) (info : ErrInfo) :
    (recordError k info s).pkt = s.pkt := rfl
@[simp] theorem recordError_pendingCmd (k : ErrKind) (info : ErrInfo) :
    (recordError k info s).pendingCmd = s.pendingCmd := rfl
@[simp] theorem recordError_txIn (k : ErrKind) (info : ErrInfo) :
    (recordError k info s).txIn = s.txIn := rfl
@[simp] theorem recordError_rxIn (k : ErrKind) (info : ErrInfo) :
    (recordError k info s).rxIn = s.rxIn := rfl
@[simp] theorem recordError_ret (k : ErrKind) (info : ErrInfo) :
    (recordError k info s).ret = .raised := rfl
@[simp] theorem recordError_actions (k : ErrKind) (info : ErrInfo) :
    (recordError k info s).actions = s.actions := rfl
@[simp] theorem recordError_portOut (k : ErrKind) (info : ErrInfo) :
    (recordError k info s).portOut = s.portOut := rfl
@[simp] theorem recordError_draws (k : ErrKind) (info : ErrInfo) :
    (recordError k info s).draws = s.draws := rfl
@[simp] theorem recordError_unseen (k : ErrKind) (info : ErrInfo) :
    (recordError k info s).unseen = s.unseen := rfl

/-! ### `rxError` -/

@[simp] theorem rxError_params (k : ErrKind) : (rxError k s).params = s.params := rfl
@[simp] theorem rxError_cfg (k : ErrKind) : (rxError k s).cfg = s.cfg := rfl
@[simp] theorem rxError_status (k : ErrKind) :
    (rxError k s).status =
      { s.status with
        err := true, asmActive := false, asmDone := false,
        txWait := false, rxWait := false, busy := false } :=
    rfl
@[simp] theorem rxError_rdr (k : ErrKind) : (rxError k s).rdr = s.rdr := rfl
@[simp] theorem rxError_err (k : ErrKind) :
    (rxError k s).err = { code := k.code, addr := BitVec.ofNat 32 s.rx.unfIndex } := rfl
@[simp] theorem rxError_recOut (k : ErrKind) : (rxError k s).recOut = s.recOut := rfl
@[simp] theorem rxError_valOut (k : ErrKind) : (rxError k s).valOut = s.valOut := rfl
@[simp] theorem rxError_asm (k : ErrKind) : (rxError k s).asm = s.asm := rfl
@[simp] theorem rxError_blkOut (k : ErrKind) : (rxError k s).blkOut = s.blkOut := rfl
@[simp] theorem rxError_frm (k : ErrKind) : (rxError k s).frm = s.frm := rfl
@[simp] theorem rxError_rx (k : ErrKind) : (rxError k s).rx = { s.rx with count := 0 } := rfl
@[simp] theorem rxError_src (k : ErrKind) : (rxError k s).src = s.src := rfl
@[simp] theorem rxError_pkt (k : ErrKind) : (rxError k s).pkt = s.pkt := rfl
@[simp] theorem rxError_pendingCmd (k : ErrKind) : (rxError k s).pendingCmd = s.pendingCmd := rfl
@[simp] theorem rxError_txIn (k : ErrKind) : (rxError k s).txIn = s.txIn := rfl
@[simp] theorem rxError_rxIn (k : ErrKind) : (rxError k s).rxIn = s.rxIn := rfl
@[simp] theorem rxError_ret (k : ErrKind) : (rxError k s).ret = s.ret := rfl
@[simp] theorem rxError_actions (k : ErrKind) : (rxError k s).actions = s.actions := rfl
@[simp] theorem rxError_portOut (k : ErrKind) : (rxError k s).portOut = s.portOut := rfl
@[simp] theorem rxError_draws (k : ErrKind) : (rxError k s).draws = s.draws := rfl
@[simp] theorem rxError_unseen (k : ErrKind) : (rxError k s).unseen = s.unseen := rfl

end Sys2Proof.Machine
end

