-- ==== Sys2Proof/Laws/Reader.lean ====
section
/-! SUPPORT. What the Record Reader does: what one pass of `read_next` can change, that a pass that
goes on moves CURSOR, that `read_next` always returns (R142), and its one-pass equation. -/

namespace Sys2Proof.Machine

/-! ### The source text -/

theorem spaces_le (text : List Byte) : spaces text ≤ text.length := by
  induction text with
  | nil => exact le_rfl
  | cons b text ih =>
    unfold spaces
    split <;> simp only [List.length_cons] <;> omega

theorem tailLength_le (text : List Byte) : tailLength text ≤ text.length := by
  induction text with
  | nil => exact le_rfl
  | cons b text ih =>
    unfold tailLength
    split <;> simp only [List.length_cons] <;> omega

@[simp] theorem State.sourceFrom_length (s : State) (i : Nat) :
    (s.sourceFrom i).length = s.cfg.srcLen.toNat - i := by
  simp [State.sourceFrom]

/-! ### Frames -/

/-- `read_next` and what it calls write the reader's registers, and on an error the error entry's;
nothing else (R91, R130, R265). -/
def SameOutsideReader (s t : State) : Prop :=
  t = { s with rdr := t.rdr, ret := t.ret, err := t.err,
               status := { s.status with
                 err := t.status.err, asmActive := t.status.asmActive, asmDone := t.status.asmDone,
                 txWait := t.status.txWait, rxWait := t.status.rxWait, busy := t.status.busy } }

theorem SameOutsideReader.refl (s : State) : SameOutsideReader s s := rfl

theorem SameOutsideReader.trans {s t u : State} (h1 : SameOutsideReader s t)
    (h2 : SameOutsideReader t u) : SameOutsideReader s u := by
  unfold SameOutsideReader at *
  rw [h2, h1]

/-- An error, or only the reader's registers and the returned value: the two ways a pass ends. -/
structure ReaderOutcome (s t : State) : Prop where
  /-- what is outside the reader and the error entry stays -/
  frame : SameOutsideReader s t
  /-- without an error, status and error registers stay -/
  quiet : t.ret ≠ .raised → t.status = s.status ∧ t.err = s.err
  /-- an error is the error entry of R265, with ERR_OFFSET at CURSOR (R130) -/
  loud : t.ret = .raised →
    ∃ k info, t = { s.raise k info with rdr := t.rdr, ret := .raised } ∧
      info.line = t.rdr.lines + 1 ∧ info.offset = t.rdr.cursor

theorem recordError_outcome (k : ErrKind) (info : ErrInfo) (s : State) :
    ReaderOutcome s (recordError k info s) where
  frame := rfl
  quiet h := absurd rfl h
  loud _ := ⟨k, { info with line := s.rdr.lines + 1, offset := s.rdr.cursor }, rfl, rfl, rfl⟩

/-- A state that differs from `s` in the reader's registers and a returned value only. -/
theorem ReaderOutcome.of_reader {s : State} (x : ReaderRegs) (v : ReadResult) (hv : v ≠ .raised) :
    ReaderOutcome s { s with rdr := x, ret := v } where
  frame := rfl
  quiet _ := ⟨rfl, rfl⟩
  loud h := absurd h hv

theorem checkRecord_outcome {t : RecordType} {r : Rec} {effect : State → State} {s : State}
    (h : ReaderOutcome s (effect s)) : ReaderOutcome s (checkRecord t r effect s) := by
  unfold checkRecord checksumError
  split
  · exact recordError_outcome _ _ _
  · split
    · exact recordError_outcome _ _ _
    · exact h

theorem acceptRecord_outcome (r : Rec) (s : State) (h : s.ret ≠ .raised) :
    ReaderOutcome s (acceptRecord r s) :=
  ReaderOutcome.of_reader _ s.ret h

/-- What a record of any type does (R132 to R138): its effect, or one of its errors. -/
theorem recordEffect_outcome (t : RecordType) (r : Rec) (s : State) (h : s.ret ≠ .raised) :
    ReaderOutcome s (recordEffect t r s) := by
  cases t
  case data =>
    unfold recordEffect dataEffect
    apply checkRecord_outcome
    apply ReaderOutcome.of_reader
    split <;> exact ReadResult.noConfusion
  case eof =>
    unfold recordEffect eofEffect
    apply checkRecord_outcome
    apply ReaderOutcome.of_reader
    exact ReadResult.noConfusion
  case esa =>
    unfold recordEffect esaEffect
    apply checkRecord_outcome
    split
    · split
      · exact recordError_outcome _ _ _
      · exact ReaderOutcome.of_reader _ s.ret h
    · exact ReaderOutcome.of_reader _ s.ret h
  case ssa => exact checkRecord_outcome (acceptRecord_outcome r s h)
  case ela =>
    unfold recordEffect elaEffect
    apply checkRecord_outcome
    split <;> exact ReaderOutcome.of_reader _ s.ret h
  case sla => exact checkRecord_outcome (acceptRecord_outcome r s h)

theorem unknownTypeEffect_outcome (tt : Byte) (r : Rec) (s : State) :
    ReaderOutcome s (unknownTypeEffect tt r s) := by
  unfold unknownTypeEffect checksumError
  split <;> exact recordError_outcome _ _ _

theorem ReaderOutcome.from_atCursor {s t : State} {n : Nat} (h : ReaderOutcome (s.atCursor n) t) :
    ReaderOutcome s t where
  frame := by
    have := h.frame
    unfold SameOutsideReader at *
    rw [this]
    rfl
  quiet hr := h.quiet hr
  loud hr := by
    obtain ⟨k, info, he, h1⟩ := h.loud hr
    exact ⟨k, info, by rw [he]; rfl, h1⟩

/-- What one pass of `read_next` can change. -/
theorem readPass_outcome (s : State) (h : s.ret ≠ .raised) : ReaderOutcome s (readPass s) := by
  unfold readPass
  split
  · exact ReaderOutcome.of_reader _ _ ReadResult.noConfusion
  · exact (recordError_outcome _ _ _).from_atCursor
  · exact (unknownTypeEffect_outcome _ _ _).from_atCursor
  · next start _ _ _ =>
    exact ReaderOutcome.from_atCursor (n := start) (recordEffect_outcome _ _ _ h)

theorem ReaderOutcome.trans {s t u : State} (h1 : ReaderOutcome s t) (hr : t.ret ≠ .raised)
    (h2 : ReaderOutcome t u) : ReaderOutcome s u where
  frame := h1.frame.trans h2.frame
  quiet hu := by
    obtain ⟨ha, hb⟩ := h2.quiet hu
    obtain ⟨hc, hd⟩ := h1.quiet hr
    exact ⟨ha.trans hc, hb.trans hd⟩
  loud hu := by
    obtain ⟨k, info, he, hinfo⟩ := h2.loud hu
    obtain ⟨hc, hd⟩ := h1.quiet hr
    refine ⟨k, info, ?_, hinfo⟩
    have hf := h1.frame
    unfold SameOutsideReader at hf
    rw [hc, hd] at hf
    rw [he, hf]
    rfl

/-- What `read_next`'s loop can change. -/
theorem readLoop_outcome (fuel : Nat) (s : State) (h : s.ret ≠ .raised) :
    ReaderOutcome s (readLoop fuel s) := by
  induction fuel generalizing s with
  | zero => exact ReaderOutcome.of_reader s.rdr s.ret h
  | succ fuel ih =>
    unfold readLoop
    have hp := readPass_outcome s h
    dsimp only
    split
    · next hidle =>
      have hr : (readPass s).ret ≠ .raised := by rw [hidle]; exact ReadResult.noConfusion
      exact hp.trans hr (ih _ hr)
    · exact hp

/-- What `read_next` can change (R91, R130). -/
theorem readNext_outcome (s : State) : ReaderOutcome s (readNext s) := by
  have h := readLoop_outcome (s.sourceLeft + 1) s.taken ReadResult.noConfusion
  exact
    { frame := by
        have := h.frame
        unfold SameOutsideReader at *
        exact this
      quiet := h.quiet
      loud := h.loud }

/-! ### Progress -/

theorem scanRecord_record {start n : Nat} {text : List Byte} {t : RecordType} {r : Rec}
    (h : scanRecord start text = .record n t r) :
    n = start ∧ decodeFields text = .ok (t.code, r) := by
  unfold scanRecord at h
  split at h
  · cases h
  · next tt r' hd =>
    split at h
    · next t' ht =>
      cases h
      refine ⟨rfl, ?_⟩
      rw [hd]
      have : tt = t.code := by
        unfold recordType at ht
        repeat' split at ht
        all_goals first
          | (cases ht; assumption)
          | cases ht
      rw [this]
    · cases h

/-- A record found at `start` lies between CURSOR and SRC_LEN, all of its characters. -/
theorem State.scan_record {s : State} {start : Nat} {t : RecordType} {r : Rec}
    (h : s.scan = .record start t r) :
    s.rdr.cursor.toNat ≤ start ∧ start + recordChars r ≤ s.cfg.srcLen.toNat ∧
      r.data.length ≤ 255 := by
  unfold State.scan at h
  dsimp only at h
  split at h
  · cases h
  · split at h
    · cases h
    · next b rest hdrop =>
      obtain ⟨hs, hd⟩ := scanRecord_record h
      have hlen := decodeFields_length hd
      have hdl : (b :: rest).length =
          s.cfg.srcLen.toNat - s.rdr.cursor.toNat - spaces (s.sourceFrom s.rdr.cursor.toNat) := by
        rw [← hdrop, List.length_drop, State.sourceFrom_length]
      unfold recordChars
      omega

/-- CURSOR after a record at CURSOR is accepted. -/
theorem acceptRecord_cursor (r : Rec) (s : State)
    (h : s.rdr.cursor.toNat + recordChars r ≤ s.cfg.srcLen.toNat) :
    s.rdr.cursor.toNat + recordChars r ≤ (acceptRecord r s).rdr.cursor.toNat ∧
      (acceptRecord r s).rdr.cursor.toNat ≤ s.cfg.srcLen.toNat := by
  have ht := tailLength_le (s.sourceFrom (s.rdr.cursor.toNat + recordChars r))
  rw [State.sourceFrom_length] at ht
  have hl := s.cfg.srcLen.isLt
  simp only [acceptRecord, BitVec.toNat_ofNat]
  rw [Nat.mod_eq_of_lt (by omega)]
  omega

theorem checkRecord_cursor {t : RecordType} {r : Rec} {effect : State → State} {s : State}
    (h : (checkRecord t r effect s).ret ≠ .raised) : checkRecord t r effect s = effect s := by
  unfold checkRecord checksumError at h ⊢
  split at h
  · exact absurd rfl h
  · split at h
    · exact absurd rfl h
    · rw [if_neg ‹_›, if_neg ‹_›]

/-- A record that raises no error has been accepted: CURSOR and LINES are past it. -/
theorem recordEffect_accepted {t : RecordType} {r : Rec} {s : State}
    (h : (recordEffect t r s).ret ≠ .raised) :
    (recordEffect t r s).rdr.cursor = (acceptRecord r s).rdr.cursor ∧
      (recordEffect t r s).rdr.lines = (acceptRecord r s).rdr.lines := by
  cases t
  case data =>
    unfold recordEffect dataEffect at h ⊢
    rw [checkRecord_cursor h]
    exact ⟨rfl, rfl⟩
  case eof =>
    unfold recordEffect eofEffect at h ⊢
    rw [checkRecord_cursor h]
    exact ⟨rfl, rfl⟩
  case esa =>
    change (esaEffect r s).ret ≠ .raised at h
    change (esaEffect r s).rdr.cursor = _ ∧ (esaEffect r s).rdr.lines = _
    unfold esaEffect at h ⊢
    have hc := checkRecord_cursor h
    rw [hc] at h ⊢
    split at h
    · next hmode =>
      split at h
      · exact absurd rfl h
      · next hrange =>
        rw [if_pos hmode, if_neg hrange]
        exact ⟨rfl, rfl⟩
    · next hmode =>
      rw [if_neg hmode]
      exact ⟨rfl, rfl⟩
  case ssa =>
    unfold recordEffect ssaEffect at h ⊢
    rw [checkRecord_cursor h]
    exact ⟨rfl, rfl⟩
  case ela =>
    change (elaEffect r s).ret ≠ .raised at h
    change (elaEffect r s).rdr.cursor = _ ∧ (elaEffect r s).rdr.lines = _
    unfold elaEffect at h ⊢
    rw [checkRecord_cursor h]
    split <;> exact ⟨rfl, rfl⟩
  case sla =>
    unfold recordEffect slaEffect at h ⊢
    rw [checkRecord_cursor h]
    exact ⟨rfl, rfl⟩

/-- A record that is not returned and raises no error moves CURSOR past at least its 11 characters;
one that is returned does too (R142). -/
theorem readPass_progress {s : State} {start : Nat} {t : RecordType} {r : Rec}
    (hscan : s.scan = .record start t r) (h : (readPass s).ret ≠ .raised) :
    s.rdr.cursor.toNat + 11 ≤ (readPass s).rdr.cursor.toNat ∧
      (readPass s).rdr.cursor.toNat ≤ s.cfg.srcLen.toNat := by
  have hs := State.scan_record hscan
  have hl := s.cfg.srcLen.isLt
  unfold readPass at h ⊢
  rw [hscan] at h ⊢
  dsimp only at h ⊢
  have hstart : (s.atCursor start).rdr.cursor.toNat = start := by
    simp only [State.atCursor_rdr, BitVec.toNat_ofNat]
    exact Nat.mod_eq_of_lt (by omega)
  have ha := acceptRecord_cursor r (s.atCursor start) (by rw [hstart]; exact hs.2.1)
  rw [(recordEffect_accepted h).1]
  rw [hstart] at ha
  have h11 : 11 ≤ recordChars r := by unfold recordChars; omega
  exact ⟨by omega, ha.2⟩

/-- A pass that goes on has read a control record. -/
theorem readPass_idle {s : State} (h : (readPass s).ret = .idle) :
    ∃ start t r, s.scan = .record start t r := by
  unfold readPass at h
  split at h
  · cases h
  · cases h
  · unfold unknownTypeEffect checksumError at h
    split at h <;> cases h
  · next start t r hscan => exact ⟨start, t, r, hscan⟩

@[simp] theorem readPass_cfg {s : State} (h : s.ret ≠ .raised) : (readPass s).cfg = s.cfg := by
  have := (readPass_outcome s h).frame
  unfold SameOutsideReader at this
  rw [this]

/-- Each pass that goes on leaves at least 11 bytes less of the source (R142). -/
theorem readPass_sourceLeft {s : State} (h : (readPass s).ret = .idle) (hs : s.ret ≠ .raised) :
    (readPass s).sourceLeft + 11 ≤ s.sourceLeft := by
  obtain ⟨start, t, r, hscan⟩ := readPass_idle h
  have hp := readPass_progress hscan (by rw [h]; exact ReadResult.noConfusion)
  unfold State.sourceLeft
  rw [readPass_cfg hs]
  omega

/-- With enough fuel, `read_next`'s loop ends with something returned or an error. -/
theorem readLoop_returns {fuel : Nat} {s : State} (hs : s.ret ≠ .raised)
    (hf : s.sourceLeft < fuel) : (readLoop fuel s).ret ≠ .idle := by
  induction fuel generalizing s with
  | zero => omega
  | succ fuel ih =>
    unfold readLoop
    dsimp only
    split
    · next hidle =>
      have := readPass_sourceLeft hidle hs
      exact ih (by rw [hidle]; exact ReadResult.noConfusion) (by omega)
    · assumption

/-- `read_next` always returns, or raises (R120, R142). -/
theorem readNext_returns (s : State) : (readNext s).ret ≠ .idle :=
  readLoop_returns (s := s.taken) ReadResult.noConfusion
    (Nat.lt_succ_self _)

/-- More fuel than the source needs changes nothing. -/
theorem readLoop_enough {fuel fuel' : Nat} {s : State} (hs : s.ret ≠ .raised)
    (hf : s.sourceLeft < fuel) (hf' : s.sourceLeft < fuel') :
    readLoop fuel s = readLoop fuel' s := by
  induction fuel generalizing s fuel' with
  | zero => omega
  | succ fuel ih =>
    cases fuel' with
    | zero => omega
    | succ fuel' =>
      unfold readLoop
      dsimp only
      split
      · next hidle =>
        have := readPass_sourceLeft hidle hs
        exact ih (by rw [hidle]; exact ReadResult.noConfusion) (by omega) (by omega)
      · rfl

theorem State.taken_of_idle {s : State} (h : s.ret = .idle) : s.taken = s := by
  cases s
  cases h
  rfl

/-- `read_next` as one pass, then the rest if the pass read a control record (R123). -/
theorem readNext_eq (s : State) :
    readNext s =
      if (readPass s.taken).ret = .idle then readNext (readPass s.taken) else readPass s.taken := by
  rw [readNext, readLoop]
  split
  · next hidle =>
    have hleft : (readPass s.taken).sourceLeft + 11 ≤ s.sourceLeft :=
      readPass_sourceLeft hidle ReadResult.noConfusion
    rw [readNext, State.taken_of_idle hidle]
    exact readLoop_enough (by rw [hidle]; exact ReadResult.noConfusion) (by omega) (by omega)
  · rfl

end Sys2Proof.Machine
end

