-- ==== Sys2Proof/Laws/ReadNext.lean ====
section
/-! SUPPORT. What `read_next` answers: an induction principle over its passes, how far CURSOR moves, what
a returned record looks like, the bases it leaves, and that it depends on nothing but the source, the
configuration and the reader's registers. -/

namespace Sys2Proof.Machine

/-! ### Scanning -/

theorem isSpace_iff (b : Byte) : isSpace b = true ↔ (b = 0x20 ∨ b = 0x09 ∨ b = 0x0D ∨ b = 0x0A) := by
  simp [isSpace, or_assoc]

/-- Whitespace in front of a byte that is none, or of nothing, is skipped to that byte (R121). -/
theorem spaces_append (ws rest : List Byte) (h : ∀ b ∈ ws, isSpace b = true)
    (hr : ∀ b, rest.head? = some b → isSpace b = false) : spaces (ws ++ rest) = ws.length := by
  induction ws with
  | nil =>
    cases rest with
    | nil => rfl
    | cons b rest => simp [spaces, hr b rfl]
  | cons b ws ih =>
    simp only [List.cons_append, spaces, h b (by simp), if_true, List.length_cons,
      ih (fun c hc => h c (by simp [hc]))]

theorem State.scan_nonspace {s : State} {ws : List Byte} {b : Byte} {text : List Byte}
    (h : ∀ b ∈ ws, isSpace b = true) (hb : isSpace b = false)
    (hs : s.sourceFrom s.rdr.cursor.toNat = ws ++ b :: text) :
    s.scan = scanRecord (s.rdr.cursor.toNat + ws.length) (b :: text) := by
  have hl := congrArg List.length hs
  have sp := spaces_append ws (b :: text) h (by rintro c ⟨⟩; exact hb)
  simp only [State.sourceFrom_length, List.length_append, List.length_cons] at hl
  unfold State.scan
  rw [if_neg (by omega), hs]
  simp only [sp, List.drop_left]

/-- A record's text behind whitespace, in digits of either case, is scanned as that record (R121, R122). -/
theorem State.scan_text {s : State} {ws text : List Byte} {tt : Byte} {r : Rec}
    (h : ∀ b ∈ ws, isSpace b = true) (hd : decodeFields text = .ok (tt, r))
    (hs : s.sourceFrom s.rdr.cursor.toNat = ws ++ text) :
    s.scan =
      match recordType tt with
      | some t => .record (s.rdr.cursor.toNat + ws.length) t r
      | none => .unknown (s.rdr.cursor.toNat + ws.length) tt r := by
  have hc := decodeFields_colon hd
  cases text with
  | nil => cases hc
  | cons b rest =>
    injection hc with hc
    subst hc
    refine (State.scan_nonspace h (by decide) hs).trans ?_
    cases ht : recordType tt <;> simp only [scanRecord, hd, ht]

/-! ### Induction over the passes -/

/-- What holds of a pass that ends `read_next`, and carries over a control record, holds of
`read_next`. -/
theorem readNext_induction {motive : State → State → Prop}
    (last : ∀ s, s.ret = .idle → (readPass s).ret ≠ .idle → motive s (readPass s))
    (control : ∀ s t, s.ret = .idle → (readPass s).ret = .idle → motive (readPass s) t → motive s t)
    (s : State) : motive s.taken (readNext s) := by
  generalize hn : s.sourceLeft = n
  induction n using Nat.strongRecOn generalizing s with
  | _ n ih =>
    subst hn
    rw [readNext_eq]
    split
    · next hidle =>
      have hleft : (readPass s.taken).sourceLeft + 11 ≤ s.sourceLeft :=
        readPass_sourceLeft hidle ReadResult.noConfusion
      have := ih _ (by omega) (readPass s.taken) rfl
      rw [State.taken_of_idle hidle] at this
      exact control _ _ rfl hidle this
    · next hidle => exact last _ rfl hidle

/-! ### How far CURSOR moves -/

theorem readPass_srcLen {s : State} (h : s.ret = .idle) :
    (readPass s).cfg.srcLen = s.cfg.srcLen := by
  rw [readPass_cfg (by rw [h]; exact ReadResult.noConfusion)]

/-- A record that is returned has been read: CURSOR is past at least 11 characters more (R142). -/
theorem readNext_progress (s : State) (hr : (readNext s).ret ≠ .raised)
    (he : (readNext s).ret ≠ .endOfStream) :
    s.rdr.cursor.toNat + 11 ≤ (readNext s).rdr.cursor.toNat ∧
      (readNext s).rdr.cursor.toNat ≤ s.cfg.srcLen.toNat := by
  refine readNext_induction
    (motive := fun s t => t.ret ≠ .raised → t.ret ≠ .endOfStream →
      s.rdr.cursor.toNat + 11 ≤ t.rdr.cursor.toNat ∧ t.rdr.cursor.toNat ≤ s.cfg.srcLen.toNat)
    ?_ ?_ s hr he
  · intro s hs hret hraised hend
    match hscan : s.scan with
    | .record start t r => exact readPass_progress hscan hraised
    | .endOfStream c => simp [readPass, hscan] at hend
    | .syntaxError n => simp [readPass, hscan, recordError] at hraised
    | .unknown n tt r =>
      exfalso
      apply hraised
      simp only [readPass, hscan, unknownTypeEffect, checksumError]
      split <;> rfl
  · intro s t hs hidle ih hraised hend
    obtain ⟨start, ty, r, hscan⟩ := readPass_idle hidle
    have hp := readPass_progress hscan (by rw [hidle]; exact ReadResult.noConfusion)
    have := ih hraised hend
    rw [readPass_srcLen hs] at this
    omega

theorem readNext_sourceLeft (s : State) (hr : (readNext s).ret ≠ .raised)
    (he : (readNext s).ret ≠ .endOfStream) : (readNext s).sourceLeft + 11 ≤ s.sourceLeft := by
  have hf := (readNext_outcome s).frame
  have hp := readNext_progress s hr he
  unfold SameOutsideReader at hf
  have hc : (readNext s).cfg = s.cfg := by rw [hf]
  unfold State.sourceLeft
  rw [hc]
  omega

/-! ### What is returned -/

/-- A returned data record has 1 to 64 data bytes (R132, R128). -/
theorem recordEffect_data {t : RecordType} {r : Rec} {s : State} {a st : Word} {d : List Byte}
    {c : Byte} (hs : s.ret = .idle) (h : (recordEffect t r s).ret = .data a st d c) :
    1 ≤ d.length ∧ d.length ≤ 64 := by
  have hne : (recordEffect t r s).ret ≠ .raised := by rw [h]; exact ReadResult.noConfusion
  cases t
  case data =>
    simp only [recordEffect, dataEffect] at h hne
    have hl : lengthLegal .data r.data.length = true := by
      by_contra hl
      simp only [Bool.not_eq_true] at hl
      apply hne
      unfold checkRecord checksumError
      split
      · rfl
      · rfl
    rw [checkRecord_cursor hne] at h
    simp only [lengthLegal, decide_eq_true_eq] at hl
    simp only at h
    split at h
    · cases h
    · injection h with _ _ hd _
      subst hd
      exact ⟨by omega, hl⟩
  case eof =>
    simp only [recordEffect, eofEffect] at h hne
    rw [checkRecord_cursor hne] at h
    cases h
  case esa =>
    simp only [recordEffect, esaEffect] at h hne
    rw [checkRecord_cursor hne] at h
    split at h
    · split at h
      · cases h
      · have : s.ret = .data a st d c := h
        rw [hs] at this
        cases this
    · have : s.ret = .data a st d c := h
      rw [hs] at this
      cases this
  case ssa =>
    simp only [recordEffect, ssaEffect] at h hne
    rw [checkRecord_cursor hne] at h
    have : s.ret = .data a st d c := h
    rw [hs] at this
    cases this
  case ela =>
    simp only [recordEffect, elaEffect] at h hne
    rw [checkRecord_cursor hne] at h
    split at h <;>
    · have : s.ret = .data a st d c := h
      rw [hs] at this
      cases this
  case sla =>
    simp only [recordEffect, slaEffect] at h hne
    rw [checkRecord_cursor hne] at h
    have : s.ret = .data a st d c := h
    rw [hs] at this
    cases this

theorem readPass_data {s : State} {a st : Word} {d : List Byte} {c : Byte} (hs : s.ret = .idle)
    (h : (readPass s).ret = .data a st d c) : 1 ≤ d.length ∧ d.length ≤ 64 := by
  unfold readPass at h
  split at h
  · cases h
  · cases h
  · unfold unknownTypeEffect checksumError at h
    split at h <;> cases h
  · next start _ _ _ => exact recordEffect_data (s := s.atCursor start) hs h

theorem readNext_data (s : State) {a st : Word} {d : List Byte} {c : Byte}
    (h : (readNext s).ret = .data a st d c) : 1 ≤ d.length ∧ d.length ≤ 64 :=
  readNext_induction (motive := fun _ t => t.ret = .data a st d c → 1 ≤ d.length ∧ d.length ≤ 64)
    (fun _ hs _ h => readPass_data hs h) (fun _ _ _ _ ih h => ih h) s h

/-! ### The bases (R30) -/

theorem checkRecord_cases {motive : State → Prop} (t : RecordType) (r : Rec) (effect : State → State)
    (s : State) (error : ∀ k info, motive (recordError k info s))
    (accepted : checksumGood t.code r = true → lengthLegal t r.data.length = true →
      motive (effect s)) : motive (checkRecord t r effect s) := by
  unfold checkRecord checksumError
  cases hc : checksumGood t.code r
  · exact error _ _
  · cases hl : lengthLegal t r.data.length
    · exact error _ _
    · exact accepted hc hl

theorem extValue_lt (r : Rec) : (extValue r).toNat < 65536 := by
  have h0 := (r.data.getD 0 0).isLt
  have h1 := (r.data.getD 1 0).isLt
  unfold extValue
  rw [BitVec.toNat_or, BitVec.toNat_shiftLeft, Nat.shiftLeft_eq]
  simp only [BitVec.toNat_setWidth]
  exact Nat.or_lt_two_pow (n := 16) (by omega) (by omega)

theorem segBase_legal {v : Word} (hlow : 0x1000 ≤ v.toNat) (hhigh : v.toNat ≤ 0xF000) :
    0x10000 ≤ (v <<< 4).toNat ∧ (v <<< 4).toNat ≤ 0xF0000 ∧ (v <<< 4).toNat % 16 = 0 := by
  rw [BitVec.toNat_shiftLeft, Nat.shiftLeft_eq]
  omega

theorem linBase_legal {v : Word} : (v <<< 16).toNat % 0x10000 = 0 := by
  rw [BitVec.toNat_shiftLeft, Nat.shiftLeft_eq]
  omega

theorem State.basesLegal_iff (s : State) :
    s.basesLegal = true ↔
      (s.rdr.segBase = 0 ∨
        (0x10000 ≤ s.rdr.segBase.toNat ∧ s.rdr.segBase.toNat ≤ 0xF0000 ∧
          s.rdr.segBase.toNat % 16 = 0)) ∧
      s.rdr.linBase.toNat % 0x10000 = 0 := by
  simp [State.basesLegal, and_assoc]

theorem recordEffect_basesLegal (t : RecordType) (r : Rec) {s : State} (h : s.basesLegal = true) :
    (recordEffect t r s).basesLegal = true := by
  have hb := (State.basesLegal_iff s).1 h
  cases t <;> simp only [recordEffect, dataEffect, eofEffect, esaEffect, ssaEffect, elaEffect,
    slaEffect] <;> refine
      checkRecord_cases (motive := fun u => u.basesLegal = true) _ r _ s (fun _ _ => h) (fun _ _ => ?_)
  case data => exact h
  case eof => exact h
  case ssa => exact h
  case sla => exact h
  case esa =>
    split
    · split
      · exact h
      · next hr =>
        rw [not_or, BitVec.not_lt, BitVec.not_lt] at hr
        exact (State.basesLegal_iff _).2 ⟨.inr (segBase_legal hr.1 hr.2), hb.2⟩
    · exact (State.basesLegal_iff _).2 ⟨hb.1, linBase_legal⟩
  case ela =>
    split
    · exact (State.basesLegal_iff _).2 ⟨hb.1, linBase_legal⟩
    · exact (State.basesLegal_iff _).2 ⟨hb.1, linBase_legal⟩

/-- `read_next` keeps SEG_BASE and LIN_BASE at the values R30 allows. -/
theorem readNext_basesLegal {s : State} (h : s.basesLegal = true) :
    (readNext s).basesLegal = true := by
  have hpass : ∀ s : State, s.basesLegal = true → (readPass s).basesLegal = true := by
    intro s h
    unfold readPass
    split
    · exact h
    · exact h
    · unfold unknownTypeEffect checksumError
      split <;> exact h
    · exact recordEffect_basesLegal _ _ h
  exact readNext_induction (motive := fun s t => s.basesLegal = true → t.basesLegal = true)
    (fun s _ _ h => hpass s h) (fun s t _ _ ih h => ih (hpass s h)) s h

/-! ### What `read_next` depends on -/

/-- The states look the same to the Record Reader: same configuration and reader registers, and the
same source bytes below SRC_LEN. -/
structure SameInput (s s' : State) : Prop where
  cfg : s'.cfg = s.cfg
  rdr : s'.rdr = s.rdr
  ret : s'.ret = s.ret
  src : ∀ j, j < s.cfg.srcLen.toNat → Mem.read s'.src j = Mem.read s.src j

theorem Mem.slice_congr {m m' : Mem} (i n : Nat) (h : ∀ j, j < i + n → Mem.read m' j = Mem.read m j) :
    Mem.slice m' i n = Mem.slice m i n := by
  induction n generalizing i with
  | zero => rfl
  | succ n ih => simp only [Mem.slice, h i (by omega), ih (i + 1) (fun j hj => h j (by omega))]

theorem SameInput.sourceFrom {s s' : State} (h : SameInput s s') (i : Nat)
    (hi : i ≤ s.cfg.srcLen.toNat) : s'.sourceFrom i = s.sourceFrom i := by
  unfold State.sourceFrom
  rw [h.cfg]
  exact Mem.slice_congr _ _ (fun j hj => h.src j (by omega))

theorem SameInput.scan {s s' : State} (h : SameInput s s') : s'.scan = s.scan := by
  unfold State.scan
  rw [h.cfg, h.rdr]
  dsimp only
  split
  · rfl
  · rw [h.sourceFrom _ (by omega)]

/-- The two states ended alike: same reader registers and returned value, and the same error entry if
one was taken. -/
structure SameAnswer (t t' : State) : Prop where
  rdr : t'.rdr = t.rdr
  ret : t'.ret = t.ret
  err : t.ret = .raised → t'.err = t.err

theorem recordError_same {s s' : State} (k : ErrKind) (info : ErrInfo) (h : SameInput s s') :
    SameAnswer (recordError k info s) (recordError k info s') where
  rdr := h.rdr
  ret := rfl
  err _ := by simp only [recordError, State.raise, h.rdr]

theorem SameInput.accept {s s' : State} (h : SameInput s s') (r : Rec)
    (hr : s.rdr.cursor.toNat + recordChars r ≤ s.cfg.srcLen.toNat) :
    SameInput (acceptRecord r s) (acceptRecord r s') where
  cfg := h.cfg
  rdr := by simp only [acceptRecord, h.rdr, h.sourceFrom _ hr]
  ret := h.ret
  src := h.src

/-- One record does the same in two states that look the same. -/
theorem recordEffect_same {s s' : State} (t : RecordType) (r : Rec) (h : SameInput s s')
    (hi : s.ret = .idle) (hr : s.rdr.cursor.toNat + recordChars r ≤ s.cfg.srcLen.toNat) :
    SameAnswer (recordEffect t r s) (recordEffect t r s') := by
  have ha := h.accept r hr
  have hq : ∀ u u' : State, SameInput u u' → u.ret = .idle → SameAnswer u u' := fun u u' h hu =>
    ⟨h.rdr, h.ret, fun hraised => by rw [hu] at hraised; cases hraised⟩
  have haq := hq _ _ ha hi
  have hc : ∀ effect : State → State, SameAnswer (effect s) (effect s') →
      SameAnswer (checkRecord t r effect s) (checkRecord t r effect s') := by
    intro effect he
    unfold checkRecord checksumError
    split
    · exact recordError_same _ _ h
    · split
      · exact recordError_same _ _ h
      · exact he
  cases t <;> simp only [recordEffect, dataEffect, eofEffect, esaEffect, ssaEffect, elaEffect,
    slaEffect] <;> apply hc
  case data =>
    refine ⟨ha.rdr, ?_, ?_⟩
    · simp only [recordAddress, h.rdr]
    · dsimp only
      split <;> exact fun hx => by cases hx
  case eof =>
    exact ⟨ha.rdr, by simp only [recordAddress, h.rdr], fun hx => by cases hx⟩
  case ssa => exact haq
  case sla => exact haq
  case esa =>
    rw [h.cfg]
    split
    · split
      · exact recordError_same _ _ h
      · exact ⟨by rw [ha.rdr], ha.ret, haq.err⟩
    · exact ⟨by simp only [variantBEffect, ha.rdr], ha.ret, haq.err⟩
  case ela =>
    rw [h.cfg]
    split
    · exact ⟨by rw [ha.rdr], ha.ret, haq.err⟩
    · exact ⟨by simp only [variantBEffect, ha.rdr], ha.ret, haq.err⟩

theorem readPass_same {s s' : State} (h : SameInput s s') (hi : s.ret = .idle) :
    SameAnswer (readPass s) (readPass s') := by
  have hat : ∀ n, SameInput (s.atCursor n) (s'.atCursor n) := fun n =>
    ⟨h.cfg, by simp only [State.atCursor, h.rdr], h.ret, h.src⟩
  unfold readPass
  rw [h.scan]
  cases hscan : s.scan with
  | endOfStream c => exact ⟨(hat c).rdr, rfl, fun hx => by cases hx⟩
  | syntaxError n => exact recordError_same _ _ (hat n)
  | unknown n tt r =>
    simp only [unknownTypeEffect, checksumError]
    split <;> exact recordError_same _ _ (hat n)
  | record n t r =>
    have hs := State.scan_record hscan
    have hl := s.cfg.srcLen.isLt
    refine recordEffect_same t r (hat n) hi ?_
    simp only [State.atCursor_rdr, State.atCursor_cfg, BitVec.toNat_ofNat]
    rw [Nat.mod_eq_of_lt (by omega)]
    exact hs.2.1

/-- `read_next` answers the same in two states that look the same. -/
theorem readNext_same {s s' : State} (hcfg : s'.cfg = s.cfg) (hrdr : s'.rdr = s.rdr)
    (hsrc : ∀ j, j < s.cfg.srcLen.toNat → Mem.read s'.src j = Mem.read s.src j) :
    SameAnswer (readNext s) (readNext s') := by
  have key := readNext_induction
    (motive := fun s t => ∀ s', SameInput s s' → SameAnswer t (readNext s'))
    (fun s hs hret s' h => by
      have hp := readPass_same h hs
      rw [readNext_eq, State.taken_of_idle (h.ret.trans hs), if_neg (by rw [hp.ret]; exact hret)]
      exact hp)
    (fun s t hs hidle ih s' h => by
      have hp := readPass_same h hs
      have hne : s.ret ≠ .raised := by rw [hs]; exact ReadResult.noConfusion
      have hne' : s'.ret ≠ .raised := by rw [h.ret]; exact hne
      have hf := (readPass_outcome s hne).frame
      have hf' := (readPass_outcome s' hne').frame
      unfold SameOutsideReader at hf hf'
      rw [readNext_eq, State.taken_of_idle (h.ret.trans hs), if_pos (by rw [hp.ret]; exact hidle)]
      refine ih _ ⟨?_, hp.rdr, hp.ret, ?_⟩
      · rw [hf, hf']; exact h.cfg
      · rw [hf, hf']; exact h.src)
    s
  have := key s'.taken ⟨hcfg, hrdr, rfl, hsrc⟩
  exact this

end Sys2Proof.Machine
end

