-- ==== Sys2Proof/Laws/Assembler.lean ====
section
/-! SUPPORT. The shared operations of NEXT_BLOCK: padding, placement, the fetch, and the loop's passes,
of which it has always enough. -/

namespace Sys2Proof.Machine

/-! ### Padding and placement -/

theorem Mem.read_fill {m : Mem} (i n j : Nat) (hm : m.wf = true) :
    Mem.read (Mem.writeBytes m i (List.replicate n Config.nopByte)) j =
      if i ≤ j ∧ j < i + n then 0#8 else Mem.read m j := by
  rw [Mem.read_writeBytes i _ j hm, List.length_replicate]
  split
  · simp only [List.getD_eq_getElem?_getD]
    rw [List.getElem?_replicate_of_lt (by omega)]
    rfl
  · rfl

/-- ASM_BUF after padding to the end of the block (R185). -/
theorem AssemblerRegs.read_padToEnd (x : AssemblerRegs) (j : Nat) (hm : x.buf.wf = true)
    (hp : x.p.toNat ≤ 32) :
    Mem.read x.padToEnd.buf j = if x.p.toNat ≤ j ∧ j < 32 then 0#8 else Mem.read x.buf j := by
  simp only [AssemblerRegs.padToEnd, Config.blockSize, Mem.read_fill _ _ _ hm]
  rw [show x.p.toNat + (32 - x.p.toNat) = 32 by omega]

/-- ASM_BUF after placement at `off` (R187). -/
theorem AssemblerRegs.read_place (x : AssemblerRegs) (off j : Nat) (hm : x.buf.wf = true)
    (ha : x.pendAddr.toNat = x.cbs.toNat + off) (hp : x.p.toNat ≤ off) :
    Mem.read x.place.buf j =
      if j < x.p.toNat then Mem.read x.buf j
      else if j < off then 0#8
      else if j < off + min x.pendLen.toNat (32 - off) then Mem.read x.pendData (j - off)
      else Mem.read x.buf j := by
  have hoff : x.pendAddr.toNat - x.cbs.toNat = off := by omega
  have hb : x.place.buf = Mem.writeBytes
      (Mem.writeBytes x.buf x.p.toNat (List.replicate (off - x.p.toNat) Config.nopByte)) off
      (Mem.slice x.pendData 0 (min x.pendLen.toNat (32 - off))) := by
    unfold AssemblerRegs.place Config.blockSize
    simp only [hoff]
    split <;> rfl
  rw [hb, Mem.read_writeBytes _ _ _ (Mem.writeBytes_wf _ _ hm), Mem.read_fill _ _ _ hm,
    Mem.slice_length, Mem.slice_getD]
  split
  · rw [if_pos (by omega), if_neg (by omega), if_neg (by omega), if_pos (by omega), Nat.zero_add]
  · split
    · rw [if_neg (by omega), if_pos (by omega)]
    · split
      · rfl
      · rw [if_neg (by omega), if_neg (by omega)]

/-- What placement leaves beside ASM_BUF: P, and the rest of the record (R187, R188). -/
theorem AssemblerRegs.place_frame (x : AssemblerRegs) (off : Nat)
    (ha : x.pendAddr.toNat = x.cbs.toNat + off) :
    let fit := min x.pendLen.toNat (32 - off)
    x.place.p = BitVec.ofNat 6 (off + fit) ∧ x.place.cbs = x.cbs ∧
    (fit = x.pendLen.toNat → x.place =
      { x with buf := x.place.buf, p := x.place.p, pendValid := false, pendLen := 0, pendAddr := 0 }) ∧
    (fit ≠ x.pendLen.toNat → x.place =
      { x with
        buf := x.place.buf, p := x.place.p
        pendData := Mem.writeBytes x.pendData 0 (Mem.slice x.pendData fit (x.pendLen.toNat - fit))
        pendLen := BitVec.ofNat 7 (x.pendLen.toNat - fit)
        pendAddr := (x.cbs + 32).setWidth 32 }) := by
  have hoff : x.pendAddr.toNat - x.cbs.toNat = off := by omega
  intro fit
  unfold AssemblerRegs.place Config.blockSize
  simp only [hoff]
  refine ⟨?_, ?_, fun h => ?_, fun h => ?_⟩
  · split <;> rfl
  · split <;> rfl
  · rw [if_pos h]
  · rw [if_neg h]

/-! ### Passes -/

/-- What a fetch leaves when the command goes on: the record held as pending, read from the source
(R183). -/
theorem fetch_more {s t : State} {start : Word} (h : fetch s = (start, .more t)) :
    ∃ a d c, (readNext s).ret = .data a start d c ∧ pastTop a d = false ∧
      t = { (readNext s).taken with asm := s.asm.hold a d } ∧ t.sourceLeft + 11 ≤ s.sourceLeft := by
  have hf := (readNext_outcome s).frame
  unfold SameOutsideReader at hf
  unfold fetch at h
  dsimp only at h
  split at h
  · injection h with _ h; cases h
  · injection h with _ h; cases h
  · injection h with _ h; cases h
  · injection h with _ h; cases h
  · next a st d c hret =>
    split at h
    · injection h with _ h; cases h
    · next hp =>
      injection h with hs h
      injection h with h
      subst hs
      have hasm : (readNext s).asm = s.asm := by rw [hf]
      rw [hasm] at h
      refine ⟨a, d, c, hret, by simpa using hp, h.symm, ?_⟩
      have := readNext_sourceLeft s (by rw [hret]; exact ReadResult.noConfusion)
        (by rw [hret]; exact ReadResult.noConfusion)
      rw [← h]
      exact this

theorem placePass_more {start : Word} {s t : State} (h : placePass start s = .more t) :
    t = { s with asm := s.asm.place } ∧ s.asm.pendAddr.toNat < s.asm.cbs.toNat + 32 ∧
      s.asm.cbs.toNat + s.asm.p.toNat ≤ s.asm.pendAddr.toNat ∧ s.asm.place.p ≠ 32 := by
  unfold placePass Config.blockSize at h
  dsimp only at h
  split at h
  · cases h
  · split at h
    · cases h
    · split at h
      · cases h
      · injection h with h
        exact ⟨h.symm, by omega, by omega, by assumption⟩

/-- A block that is not full after placement holds the whole record. -/
theorem AssemblerRegs.place_notFull {x : AssemblerRegs}
    (hlow : x.cbs.toNat ≤ x.pendAddr.toNat) (hhigh : x.pendAddr.toNat < x.cbs.toNat + 32)
    (h : x.place.p ≠ 32) :
    x.place.pendValid = false ∧
      x.place.p.toNat = x.pendAddr.toNat - x.cbs.toNat + x.pendLen.toNat ∧
      x.pendAddr.toNat - x.cbs.toNat + x.pendLen.toNat < 32 := by
  have hf := x.place_frame (x.pendAddr.toNat - x.cbs.toNat) (by omega)
  dsimp only at hf
  obtain ⟨hp, -, hall, -⟩ := hf
  rw [hp] at h
  have hlt : x.pendAddr.toNat - x.cbs.toNat + x.pendLen.toNat < 32 := by
    by_contra hge
    apply h
    rw [show x.pendAddr.toNat - x.cbs.toNat +
      min x.pendLen.toNat (32 - (x.pendAddr.toNat - x.cbs.toNat)) = 32 by omega]
    rfl
  have hfit : min x.pendLen.toNat (32 - (x.pendAddr.toNat - x.cbs.toNat)) = x.pendLen.toNat := by
    omega
  refine ⟨by rw [hall hfit], ?_, hlt⟩
  rw [hp, hfit, BitVec.toNat_ofNat]
  omega

/-- A pass that goes on leaves nothing pending, and if it fetched, 11 source bytes less (R196). -/
theorem blockPass_more {s t : State} (h : blockPass s = .more t) :
    t.asm.pendValid = false ∧
      (if s.asm.pendValid then t.sourceLeft = s.sourceLeft else t.sourceLeft + 11 ≤ s.sourceLeft) := by
  unfold blockPass at h
  split at h
  · next hv =>
    obtain ⟨ht, h1, h2, h3⟩ := placePass_more h
    rw [if_pos hv, ht]
    exact ⟨(AssemblerRegs.place_notFull (by omega) h1 h3).1, rfl⟩
  · next hv =>
    split at h
    · cases h
    · next start u hfetch =>
      obtain ⟨ht, h1, h2, h3⟩ := placePass_more h
      obtain ⟨-, -, -, -, -, -, hleft⟩ := fetch_more hfetch
      rw [if_neg hv, ht]
      exact ⟨(AssemblerRegs.place_notFull (by omega) h1 h3).1, hleft⟩

/-- More fuel than the source needs changes nothing. -/
theorem blockLoop_enough {fuel fuel' : Nat} {s : State} (hv : s.asm.pendValid = false)
    (hf : s.sourceLeft < fuel) (hf' : s.sourceLeft < fuel') :
    blockLoop fuel s = blockLoop fuel' s := by
  induction fuel generalizing s fuel' with
  | zero => omega
  | succ fuel ih =>
    cases fuel' with
    | zero => omega
    | succ fuel' =>
      unfold blockLoop
      split
      · rfl
      · next t ht =>
        have hm := blockPass_more ht
        rw [hv] at hm
        simp only [Bool.false_eq_true, if_false] at hm
        exact ih hm.1 (by omega) (by omega)

/-- NEXT_BLOCK's loop as one pass, then the rest. -/
theorem blockLoop_eq (s : State) :
    blockLoop (s.sourceLeft + 2) s =
      match blockPass s with
      | .done t => t
      | .more t => blockLoop (t.sourceLeft + 2) t := by
  rw [blockLoop]
  cases hpass : blockPass s with
  | done t => rfl
  | more t =>
    have hm := blockPass_more hpass
    have hleft : t.sourceLeft ≤ s.sourceLeft := by split at hm <;> omega
    exact blockLoop_enough hm.1 (by omega) (by omega)

/-- What holds of a pass that ends NEXT_BLOCK, and carries over one that goes on, holds of its loop. -/
theorem blockLoop_induction {motive : State → State → Prop}
    (last : ∀ s t, blockPass s = .done t → motive s t)
    (more : ∀ s t u, blockPass s = .more t → motive t u → motive s u) (s : State) :
    motive s (blockLoop (s.sourceLeft + 2) s) := by
  have main : ∀ n s, s.sourceLeft = n → s.asm.pendValid = false →
      motive s (blockLoop (s.sourceLeft + 2) s) := by
    intro n
    induction n using Nat.strongRecOn with
    | _ n ih =>
      intro s hn hv
      rw [blockLoop_eq]
      split
      · next t ht => exact last _ _ ht
      · next t ht =>
        have hm := blockPass_more ht
        rw [hv] at hm
        simp only [Bool.false_eq_true, if_false] at hm
        exact more _ _ _ ht (ih _ (by omega) t rfl hm.1)
  rw [blockLoop_eq]
  split
  · next t ht => exact last _ _ ht
  · next t ht => exact more _ _ _ ht (main _ t rfl (blockPass_more ht).1)

end Sys2Proof.Machine
end

