-- ==== Sys2Proof/Laws/Commands.lean ====
section
/-! SUPPORT. How the commands that read records end: by an error, in one form for all of them, or
completed, with what each of them may have written. -/

namespace Sys2Proof.Machine

/-- Only the reader's registers have moved, and nothing is in flight that was not. -/
def Moved (s t : State) : Prop :=
  t = { s with rdr := t.rdr, ret := t.ret } ∧ (s.ret = .idle → t.ret = .idle)

/-- The command ended by an error: the error entry of R265, beside it the reader's registers. -/
def Raised (s t : State) : Prop :=
  (∃ k info, t = { s.raise k info with rdr := t.rdr, ret := t.ret }) ∧
    (s.ret = .idle → t.ret = .idle)

theorem Moved.refl (s : State) : Moved s s := ⟨rfl, id⟩

/-- Without an error `read_next` writes the reader's registers only. -/
theorem readNext_quiet {s : State} (h : (readNext s).ret ≠ .raised) :
    readNext s = { s with rdr := (readNext s).rdr, ret := (readNext s).ret } := by
  have ho := readNext_outcome s
  have hf := ho.frame
  obtain ⟨hs, he⟩ := ho.quiet h
  unfold SameOutsideReader at hf
  rw [hs, he] at hf
  exact hf

theorem readNext_taken_quiet {s : State} (h : (readNext s).ret ≠ .raised) :
    (readNext s).taken = { s with rdr := (readNext s).rdr, ret := .idle } := by
  unfold State.taken
  rw [readNext_quiet h]

theorem readNext_moved {s : State} (h : (readNext s).ret ≠ .raised) : Moved s (readNext s).taken :=
  ⟨by rw [readNext_taken_quiet h], fun _ => rfl⟩

theorem readNext_raised {s : State} (h : (readNext s).ret = .raised) :
    Raised s (readNext s).taken := by
  obtain ⟨k, info, ht, -⟩ := (readNext_outcome s).loud h
  refine ⟨⟨k, info, ?_⟩, fun _ => rfl⟩
  unfold State.taken
  rw [ht]

/-- An error raised after the reader has read is one of the command. -/
theorem Moved.raise {s u : State} (hu : Moved s u) (k : ErrKind) (info : ErrInfo) :
    Raised s (u.raise k info) := by
  refine ⟨⟨k, info, ?_⟩, hu.2⟩
  rw [hu.1]
  rfl

theorem Moved.raised {s u t : State} (hu : Moved s u) (h : Raised u t) : Raised s t := by
  obtain ⟨⟨k, info, ht⟩, hr⟩ := h
  refine ⟨⟨k, info, ?_⟩, fun hs => hr (hu.2 hs)⟩
  rw [ht, hu.1]
  rfl

/-! ### READ_RECORD -/

/-- READ_RECORD (R139): an error, with REC_KIND cleared, or one of the three kinds reported. -/
theorem readRecord_ends (s : State) :
    Raised (readRecordStart s) (readRecord s) ∨
      ∃ kind rdr out, kind ≠ 0 ∧ readRecord s =
        { readRecordStart s with
          rdr := rdr, recOut := out, ret := .idle
          status := { (readRecordStart s).status with recKind := kind, busy := false } } := by
  unfold readRecord
  split
  · exact .inl ((Moved.refl _).raise _ _)
  dsimp only
  have hret := readNext_returns (readRecordStart s)
  cases hr : (readNext (readRecordStart s)).ret with
  | idle => exact absurd hr hret
  | raised => exact .inl (readNext_raised hr)
  | data a st d c =>
    have hq := readNext_taken_quiet (s := readRecordStart s) (by rw [hr]; exact ReadResult.noConfusion)
    dsimp only
    rw [hq]
    exact .inr ⟨1, _, _, by decide, rfl⟩
  | eof a st ty c =>
    have hq := readNext_taken_quiet (s := readRecordStart s) (by rw [hr]; exact ReadResult.noConfusion)
    dsimp only
    rw [hq]
    exact .inr ⟨2, _, _, by decide, rfl⟩
  | endOfStream =>
    have hq := readNext_taken_quiet (s := readRecordStart s) (by rw [hr]; exact ReadResult.noConfusion)
    dsimp only
    rw [hq]
    exact .inr ⟨3, _, _, by decide, rfl⟩

/-! ### VALIDATE -/

/-- One pass of VALIDATE's loop: what it does with what `read_next` returned (R161). -/
theorem validateLoop_succ (fuel : Nat) (w : ValidatorWork) (s : State) :
    validateLoop (fuel + 1) w s =
      match (readNext s).ret with
      | .idle => readNext s
      | .raised => (readNext s).taken
      | .endOfStream => noEndOfFile (readNext s).taken
      | .eof addr start _ _ =>
        if startAddressWrong w addr (readNext s) then
          (readNext s).taken.raise .invalidStartAddress (returnedInfo (readNext s) addr start)
        else validateSuccess w (readNext s).taken
      | .data addr start bytes _ =>
        if startAddressWrong w addr (readNext s) then
          (readNext s).taken.raise .invalidStartAddress (returnedInfo (readNext s) addr start)
        else if addr ≤ (readNext s).cfg.blEnd then
          (readNext s).taken.raise .protectedAddressViolation (returnedInfo (readNext s) addr start)
        else
          validateLoop fuel
            { first := false, seen := true, lastA := addr, lastN := BitVec.ofNat 8 bytes.length }
            (readNext s).taken := rfl

/-- VALIDATE's loop ends by an error or with the results of R161. -/
theorem validateLoop_ends {fuel : Nat} {w : ValidatorWork} {s : State} (hf : s.sourceLeft < fuel) :
    Raised s (validateLoop fuel w s) ∨
      ∃ rdr out, out.lines = rdr.lines ∧ validateLoop fuel w s =
        { s with
          rdr := rdr, valOut := out, ret := .idle
          status := { s.status with validated := true, busy := false } } := by
  induction fuel generalizing w s with
  | zero => omega
  | succ fuel ih =>
    rw [validateLoop_succ]
    have hret := readNext_returns s
    cases hr : (readNext s).ret with
    | idle => exact absurd hr hret
    | raised => exact .inl (readNext_raised hr)
    | endOfStream =>
      exact .inl ((readNext_moved (by rw [hr]; exact ReadResult.noConfusion)).raise _ _)
    | eof a st ty c =>
      have hq := readNext_taken_quiet (s := s) (by rw [hr]; exact ReadResult.noConfusion)
      dsimp only
      split
      · exact .inl ((readNext_moved (by rw [hr]; exact ReadResult.noConfusion)).raise _ _)
      · rw [hq]
        exact .inr ⟨_, _, rfl, rfl⟩
    | data a st d c =>
      have hne : (readNext s).ret ≠ .raised := by rw [hr]; exact ReadResult.noConfusion
      have hq := readNext_taken_quiet hne
      have hleft := readNext_sourceLeft s hne (by rw [hr]; exact ReadResult.noConfusion)
      dsimp only
      split
      · exact .inl ((readNext_moved hne).raise _ _)
      · split
        · exact .inl ((readNext_moved hne).raise _ _)
        · have hl : (readNext s).taken.sourceLeft < fuel := by
            have : (readNext s).taken.sourceLeft = (readNext s).sourceLeft := rfl
            omega
          rcases ih (w := { first := false, seen := true, lastA := a, lastN := BitVec.ofNat 8 d.length })
            hl with h | ⟨rdr, out, hlines, h⟩
          · exact .inl ((readNext_moved hne).raised h)
          · exact .inr ⟨rdr, out, hlines, by rw [h, hq]⟩

/-- More fuel than the source needs changes nothing. -/
theorem validateLoop_enough {fuel fuel' : Nat} {w : ValidatorWork} {s : State}
    (hf : s.sourceLeft < fuel) (hf' : s.sourceLeft < fuel') :
    validateLoop fuel w s = validateLoop fuel' w s := by
  induction fuel generalizing w s fuel' with
  | zero => omega
  | succ fuel ih =>
    cases fuel' with
    | zero => omega
    | succ fuel' =>
      rw [validateLoop_succ, validateLoop_succ]
      cases hr : (readNext s).ret with
      | idle => rfl
      | raised => rfl
      | endOfStream => rfl
      | eof a st ty c => rfl
      | data a st d c =>
        have hleft : (readNext s).taken.sourceLeft + 11 ≤ s.sourceLeft :=
          readNext_sourceLeft s (by rw [hr]; exact ReadResult.noConfusion)
            (by rw [hr]; exact ReadResult.noConfusion)
        dsimp only
        rw [ih (fuel' := fuel') (by omega) (by omega)]

/-- VALIDATE with a legal configuration (R161). -/
theorem validate_ends {s : State} (hl : s.configLegal = true) :
    Raised s.invalidate.resetReader (validate s) ∨
      ∃ rdr out, out.lines = rdr.lines ∧ validate s =
        { s.invalidate with
          rdr := rdr, valOut := out, ret := .idle
          status := { s.invalidate.status with validated := true, busy := false } } := by
  unfold validate
  dsimp only
  rw [if_neg (by
    have : s.invalidate.configLegal = s.configLegal := rfl
    rw [this, hl]
    exact Bool.noConfusion)]
  refine validateLoop_ends ?_
  unfold State.sourceLeft
  exact Nat.lt_succ_of_le (Nat.sub_le _ _)

/-! ### NEXT_BLOCK -/

/-- As `Moved`, with the Block Assembler's registers moved too. -/
def BlockMoved (s t : State) : Prop := Moved { s with asm := t.asm } t

/-- As `Raised`, with the Block Assembler's registers moved too. -/
def BlockRaised (s t : State) : Prop := Raised { s with asm := t.asm } t

theorem Moved.block {s t : State} (h : Moved s t) : BlockMoved s t :=
  ⟨by rw [h.1], h.2⟩

theorem Raised.block {s t : State} (h : Raised s t) : BlockRaised s t := by
  obtain ⟨⟨k, info, ht⟩, hr⟩ := h
  exact ⟨⟨k, info, by rw [ht]; rfl⟩, hr⟩

theorem BlockMoved.raise {s u : State} (hu : BlockMoved s u) (k : ErrKind) (info : ErrInfo) :
    BlockRaised s (u.raise k info) := by
  have := Moved.raise hu k info
  exact this

theorem BlockMoved.raised {s u t : State} (hu : BlockMoved s u) (h : BlockRaised u t) :
    BlockRaised s t := by
  obtain ⟨⟨k, info, ht⟩, hr⟩ := h
  refine ⟨⟨k, info, ?_⟩, fun hs => hr (hu.2 hs)⟩
  rw [ht, hu.1]
  rfl

/-- The command completed, having written no more than the reader, the assembler, the block output and
its flags. -/
def BlockDone (s t : State) : Prop :=
  t = { s with
        rdr := t.rdr, asm := t.asm, blkOut := t.blkOut, ret := t.ret
        status := { s.status with
          blkValid := t.status.blkValid, asmActive := t.status.asmActive,
          asmDone := t.status.asmDone, busy := false } } ∧
    (s.ret = .idle → t.ret = .idle)

/-- What a pass of NEXT_BLOCK ends in. -/
theorem blockPass_done {s t : State} (h : blockPass s = .done t) : BlockRaised s t ∨ BlockDone s t := by
  have hplace : ∀ start u, BlockMoved s u → placePass start u = .done t → BlockRaised s t ∨ BlockDone s t := by
    intro start u hu hp
    unfold placePass at hp
    dsimp only at hp
    split at hp
    · injection hp with hp
      rw [← hp]
      exact .inr ⟨by rw [hu.1]; rfl, hu.2⟩
    · split at hp
      · injection hp with hp
        rw [← hp]
        exact .inl (hu.raise _ _)
      · split at hp
        · injection hp with hp
          rw [← hp]
          exact .inr ⟨by rw [hu.1]; rfl, hu.2⟩
        · cases hp
  unfold blockPass at h
  split at h
  · exact hplace 0 s (Moved.refl s).block h
  · split at h
    · next start u hfetch =>
      injection h with h
      subst h
      have hret := readNext_returns s
      unfold fetch at hfetch
      dsimp only at hfetch
      cases hr : (readNext s).ret with
      | idle => exact absurd hr hret
      | raised =>
        rw [hr] at hfetch
        injection hfetch with _ hfetch
        injection hfetch with hfetch
        rw [← hfetch]
        exact .inl (readNext_raised hr).block
      | endOfStream =>
        rw [hr] at hfetch
        injection hfetch with _ hfetch
        injection hfetch with hfetch
        rw [← hfetch]
        exact .inl ((readNext_moved (by rw [hr]; exact ReadResult.noConfusion)).raise _ _).block
      | eof a st ty c =>
        have hq := readNext_taken_quiet (s := s) (by rw [hr]; exact ReadResult.noConfusion)
        rw [hr] at hfetch
        injection hfetch with _ hfetch
        injection hfetch with hfetch
        right
        unfold BlockDone
        rw [← hfetch, hq]
        unfold endSequence
        dsimp only
        split <;> exact ⟨rfl, fun _ => rfl⟩
      | data a st d c =>
        rw [hr] at hfetch
        dsimp only at hfetch
        split at hfetch
        · injection hfetch with _ hfetch
          injection hfetch with hfetch
          rw [← hfetch]
          exact .inl ((readNext_moved (by rw [hr]; exact ReadResult.noConfusion)).raise _ _).block
        · injection hfetch with _ hfetch
          cases hfetch
    · next start u hfetch =>
      obtain ⟨a, d, c, hr, -, hu, -⟩ := fetch_more hfetch
      have hm := readNext_moved (s := s) (by rw [hr]; exact ReadResult.noConfusion)
      refine hplace start u ⟨?_, ?_⟩ h
      · rw [hu, hm.1]
      · rw [hu]; exact hm.2

/-- A pass of NEXT_BLOCK that goes on has read and placed. -/
theorem blockPass_more_moved {s t : State} (h : blockPass s = .more t) : BlockMoved s t := by
  unfold blockPass at h
  split at h
  · rw [(placePass_more h).1]
    exact ⟨rfl, id⟩
  · split at h
    · cases h
    · next start u hfetch =>
      obtain ⟨a, d, c, hr, -, hu, -⟩ := fetch_more hfetch
      have hm := readNext_moved (s := s) (by rw [hr]; exact ReadResult.noConfusion)
      rw [(placePass_more h).1, hu]
      exact ⟨by rw [hm.1], hm.2⟩

/-- NEXT_BLOCK's loop ends by an error or completed (R182, R196). -/
theorem blockLoop_ends (s : State) :
    BlockRaised s (blockLoop (s.sourceLeft + 2) s) ∨ BlockDone s (blockLoop (s.sourceLeft + 2) s) := by
  refine blockLoop_induction (motive := fun s t => BlockRaised s t ∨ BlockDone s t)
    (fun _ _ h => blockPass_done h) ?_ s
  intro s t u h ih
  have hm := blockPass_more_moved h
  rcases ih with hu | hu
  · exact .inl (hm.raised hu)
  · exact .inr ⟨by rw [hu.1, hm.1], fun hs => hu.2 (hm.2 hs)⟩

/-- NEXT_BLOCK (R182, R192): an error, with BLK_VALID cleared; or completed; or SequenceError, which
changes nothing before (R264). -/
theorem nextBlock_ends (s : State) :
    BlockRaised s.dropBlock (nextBlock s) ∨ BlockDone s.dropBlock (nextBlock s) ∨
      (s.status.asmActive = false ∧ s.status.asmDone = false ∧
        nextBlock s = s.raise .sequenceError {}) := by
  unfold nextBlock
  split
  · next ha =>
    split
    · exact .inr (.inl ⟨rfl, id⟩)
    · next hd => exact .inr (.inr ⟨ha, by simpa using hd, rfl⟩)
  · exact (blockLoop_ends _).imp id .inl

/-- After an error of NEXT_BLOCK no block is valid (R266). -/
theorem BlockRaised.blkValid {s t : State} (h : BlockRaised s t) :
    t.status.blkValid = s.status.blkValid := by
  obtain ⟨⟨k, info, ht⟩, -⟩ := h
  rw [ht]
  rfl

end Sys2Proof.Machine
end

