-- ==== Sys2Proof/Laws/Flags.lean ====
section
/-! SUPPORT. The bits of a flag as a word: with them the fields of STATUS and ASM_STATE read off. -/

namespace Sys2Proof.Machine

theorem flagBit_getLsbD (b : Bool) (n i : Nat) (hn : n < 32) :
    (flagBit b n).getLsbD i = (decide (i = n) && b) := by
  unfold flagBit
  cases b
  · simp
  · simp only [if_true, BitVec.getLsbD_shiftLeft, Bool.and_true]
    by_cases h : i = n
    · subst h
      simp [hn]
    · simp only [h, decide_false]
      by_cases h2 : i < n
      · simp [h2]
      · have : i - n ≠ 0 := by omega
        simp [BitVec.getLsbD_one, this]

theorem flagBit_getElem (b : Bool) (n i : Nat) (hn : n < 32) (hi : i < 32) :
    (flagBit b n)[i] = (decide (i = n) && b) := by
  rw [← BitVec.getLsbD_eq_getElem, flagBit_getLsbD b n i hn]

end Sys2Proof.Machine
end

