-- ==== Sys2Proof/Laws/Operands.lean ====
section
/-! SUPPORT. The operands of records and packets as numbers: line addresses, extended values, resolved
addresses, tails, segment counts. -/

namespace Sys2Proof.Machine

/-- `AH * 256 + AL` (R85). -/
theorem lineAddress_eq (r : Rec) :
    lineAddress r = BitVec.ofNat 32 (r.ah.toNat * 256 + r.al.toNat) := by
  have h1 := r.ah.isLt
  have h2 := r.al.isLt
  apply BitVec.eq_of_toNat_eq
  unfold lineAddress
  rw [BitVec.toNat_or, BitVec.toNat_shiftLeft]
  simp only [BitVec.toNat_setWidth, BitVec.toNat_ofNat]
  rw [Nat.mod_eq_of_lt (a := r.ah.toNat) (by omega), Nat.mod_eq_of_lt (a := r.al.toNat) (by omega),
    Nat.shiftLeft_eq, Nat.mod_eq_of_lt (a := r.ah.toNat * 2 ^ 8) (by omega), ← Nat.shiftLeft_eq,
    ← Nat.shiftLeft_add_eq_or_of_lt (by omega), Nat.shiftLeft_eq]
  omega

/-- The resolved address as a sum of numbers (R131). -/
theorem recordAddress_eq (r : Rec) (s : State) :
    recordAddress r s = BitVec.ofNat 32
      (s.rdr.segBase.toNat + s.rdr.linBase.toNat + r.ah.toNat * 256 + r.al.toNat) := by
  apply BitVec.eq_of_toNat_eq
  simp only [recordAddress, ReaderRegs.resolve, lineAddress_eq, BitVec.toNat_add, BitVec.toNat_ofNat]
  omega

/-- The extended value as a number (R62). -/
theorem extValue_eq (r : Rec) (d0 d1 : Byte) (h : r.data = [d0, d1]) :
    extValue r = BitVec.ofNat 32 (d0.toNat * 256 + d1.toNat) := by
  have := lineAddress_eq { ah := d0, al := d1, data := [], cc := 0 }
  unfold extValue
  rw [h]
  exact this

/-- A tail runs to the first line feed, or to the end (R125). -/
theorem tailLength_spec (text : List Byte) :
    (∀ i, i + 1 < tailLength text → text.getD i 0#8 ≠ 0x0A) ∧
      (tailLength text = text.length ∨
        (0 < tailLength text ∧ text.getD (tailLength text - 1) 0#8 = 0x0A)) := by
  induction text with
  | nil => simp [tailLength]
  | cons b text ih =>
    unfold tailLength
    split
    · next h =>
      subst h
      simp
    · next h =>
      refine ⟨?_, ?_⟩
      · intro i hi
        cases i with
        | zero => simpa using h
        | succ i => simpa using ih.1 i (by omega)
      · rcases ih.2 with h2 | ⟨h2, h3⟩
        · left
          simp [h2]
        · right
          refine ⟨by omega, ?_⟩
          rw [Nat.add_sub_cancel, show tailLength text = tailLength text - 1 + 1 by omega,
            List.getD_cons_succ]
          exact h3

theorem segmentCount_one {len : Nat} (h : len ≤ 56) : segmentCount len = 1 := by
  simp [segmentCount, Config.segPayload, h]

theorem segmentCount_many {len : Nat} (h : 56 < len) :
    2 ≤ segmentCount len ∧ 56 * (segmentCount len - 1) < len ∧ len ≤ 56 * segmentCount len := by
  unfold segmentCount Config.segPayload
  rw [if_neg (by omega)]
  omega

end Sys2Proof.Machine
end

