-- ==== Sys2Proof/Laws/PerInstr.lean ====
section
/-! SUPPORT. One lemma for each instruction: how long its encoding is. -/

namespace Sys2Proof.Laws.EncodedSize

/-- How many bytes an encoding occupies: a command word 4 (R23), a record its characters (R80), a
report its bytes (R87, R88). -/
def size (e : Encoding) : Nat :=
  match e with
  | .command _ => 4
  | .record text => text.length
  | .outbound report => report.length
  | .inbound report => report.length

/-- The size the spec gives: `11 + 2*LL` characters for a record (R86), 65 bytes for a report (R7). -/
def expected (i : Instr) : Nat :=
  match i with
  | .nop => 4
  | .readRecord => 4
  | .validate => 4
  | .startAssembly => 4
  | .nextBlock => 4
  | .frame => 4
  | .unframe => 4
  | .rewind => 4
  | .clearError => 4
  | .softReset => 4
  | .data r => 11 + 2 * r.data.length
  | .eof r => 11 + 2 * r.data.length
  | .esa r => 11 + 2 * r.data.length
  | .ssa r => 11 + 2 * r.data.length
  | .ela r => 11 + 2 * r.data.length
  | .sla r => 11 + 2 * r.data.length
  | .segSingle _ _ => 65
  | .segFirst _ _ => 65
  | .segMiddle _ => 65
  | .segLast _ => 65
  | .rxContinue _ _ => 65

/-- The encoding of `i` has the size the spec gives it, whatever the marker values. -/
def Statement (i : Instr) : Prop := ∀ m : Markers, i.wf = true → size (encode m i) = expected i

theorem nop : Statement .nop := fun _ _ => rfl

theorem readRecord : Statement .readRecord := fun _ _ => rfl

theorem validate : Statement .validate := fun _ _ => rfl

theorem startAssembly : Statement .startAssembly := fun _ _ => rfl

theorem nextBlock : Statement .nextBlock := fun _ _ => rfl

theorem frame : Statement .frame := fun _ _ => rfl

theorem unframe : Statement .unframe := fun _ _ => rfl

theorem rewind : Statement .rewind := fun _ _ => rfl

theorem clearError : Statement .clearError := fun _ _ => rfl

theorem softReset : Statement .softReset := fun _ _ => rfl

theorem data (r : Rec) : Statement (.data r) := fun _ _ => encodeFields_length _ _

theorem eof (r : Rec) : Statement (.eof r) := fun _ _ => encodeFields_length _ _

theorem esa (r : Rec) : Statement (.esa r) := fun _ _ => encodeFields_length _ _

theorem ssa (r : Rec) : Statement (.ssa r) := fun _ _ => encodeFields_length _ _

theorem ela (r : Rec) : Statement (.ela r) := fun _ _ => encodeFields_length _ _

theorem sla (r : Rec) : Statement (.sla r) := fun _ _ => encodeFields_length _ _

theorem segSingle (len : Word) (chunk : List Byte) : Statement (.segSingle len chunk) := fun _ _ => padReport_length _

theorem segFirst (len : Word) (chunk : List Byte) : Statement (.segFirst len chunk) := fun _ _ => padReport_length _

theorem segMiddle (chunk : List Byte) : Statement (.segMiddle chunk) := fun _ _ => padReport_length _

theorem segLast (chunk : List Byte) : Statement (.segLast chunk) := fun _ _ => padReport_length _

theorem rxContinue (window : List Byte) (flag : Byte) : Statement (.rxContinue window flag) := fun _ _ => padReport_length _

end Sys2Proof.Laws.EncodedSize
end

