-- ==== Sys2Proof/Laws/Safety.lean ====
section
/-! SUPPORT. The parts of the machine's invariant as propositions. -/

namespace Sys2Proof.Machine

theorem State.reassemblyLegal_iff (s : State) :
    s.reassemblyLegal = true ↔
      s.rx.count.toNat ≤ s.rx.len.toNat ∧ s.rx.len.toNat ≤ s.params.maxRxLen ∧
        (s.rx.unfIndex ≠ 0 ∨ s.rx.count = 0) := by
  simp [State.reassemblyLegal, and_assoc]

theorem State.framingLegal_iff (s : State) :
    s.framingLegal = true ↔
      (s.status.txWait = true ∨ s.txIn.isSome = true →
        markersDistinct s.cfg.markers = true ∧ s.cfg.pktLen.toNat ≤ s.params.maxPacketLen ∧
        s.frm.segTotal.toNat = segmentCount s.cfg.pktLen.toNat ∧
        s.frm.segIndex.toNat < s.frm.segTotal.toNat ∧
        (putReport s.frm.segIndex.toNat s.frm.segTotal.toNat s).frm.txr = s.frm.txr) := by
  unfold State.framingLegal
  cases s.status.txWait <;> cases s.txIn <;> simp [and_assoc]

/-- What assemblyLegal says of the assembler's registers at all times. -/
structure AssemblyRanges (s : State) : Prop where
  p : s.asm.p.toNat < 32
  pendLen : s.asm.pendLen.toNat ≤ 64
  pending : s.asm.pendValid = true → 1 ≤ s.asm.pendLen.toNat
  block : s.status.blkValid = true → 1 ≤ s.blkOut.count.toNat

/-- What assemblyLegal says while a sequence runs. -/
structure AssemblyRunning (s : State) : Prop where
  cursor : s.rdr.cursor.toNat ≤ s.cfg.srcLen.toNat
  p : s.asm.p = 0
  cbs : s.asm.cbs.toNat = s.cfg.appStart.toNat + 32 * s.blkOut.index.toNat
  top : s.asm.cbs.toNat ≤ 4294967296
  pending : s.asm.pendValid = true →
    s.asm.cbs.toNat ≤ s.asm.pendAddr.toNat ∧
      s.asm.pendAddr.toNat + s.asm.pendLen.toNat ≤ 4294967296
  block : s.status.blkValid = true →
    s.blkOut.count.toNat = 32 ∧ s.blkOut.start.toNat + 32 = s.asm.cbs.toNat

theorem imp_of_not_or {b : Bool} {p : Prop} : (b = false ∨ p) ↔ (b = true → p) := by
  cases b <;> simp

theorem State.assemblyLegal_iff (s : State) :
    s.assemblyLegal = true ↔
      AssemblyRanges s ∧ (s.status.asmActive = true → AssemblyRunning s) := by
  simp only [State.assemblyLegal, Bool.and_eq_true, Bool.or_eq_true, Bool.not_eq_true',
    decide_eq_true_eq, beq_iff_eq, imp_of_not_or]
  simp only [Config.blockSize, Config.maxRecData]
  constructor
  · rintro ⟨⟨⟨⟨h1, h2⟩, h3⟩, h4⟩, h5⟩
    refine ⟨⟨h1, h2, h3, h4⟩, fun ha => ?_⟩
    obtain ⟨⟨⟨⟨⟨h6, h7⟩, h8⟩, h9⟩, h10⟩, h11⟩ := h5 ha
    exact ⟨h6, h7, h8, h9, h10, h11⟩
  · rintro ⟨⟨h1, h2, h3, h4⟩, h5⟩
    refine ⟨⟨⟨⟨h1, h2⟩, h3⟩, h4⟩, fun ha => ?_⟩
    obtain ⟨h6, h7, h8, h9, h10, h11⟩ := h5 ha
    exact ⟨⟨⟨⟨⟨h6, h7⟩, h8⟩, h9⟩, h10⟩, h11⟩

end Sys2Proof.Machine
end

