-- ==== Sys2Proof/Machine/HostProgram.lean ====
section
/-! DEFINITION. The host-program notation of R96 and R97 as lists of actions. -/

namespace Sys2Proof.Machine

/-- `WR <reg>, <imm32>` (R96). -/
def wr (idx : BitVec 6) (v : Word) : List Action := [.write idx v]

/-- `RD <reg>` (R96). -/
def rd (idx : BitVec 6) : List Action := [.read idx]

/-- `WRB <arr>[<i>], <b0> <b1> …` (R96). -/
def wrb (a : HostData) (i : Nat) (bs : List Byte) : List Action :=
  match bs with
  | [] => []
  | b :: rest => .writeb a i b :: wrb a (i + 1) rest

/-- `RDB <arr>[<i>..<i+n>)` (R96). -/
def rdb (a : ArrayName) (i n : Nat) : List Action :=
  match n with
  | 0 => []
  | n + 1 => .readb a i :: rdb a (i + 1) n

/-- `RESP` (R96). -/
def resp (r : TxResponse) : List Action := [.tx r]

/-- `RXREP` (R96). -/
def rxrep (d : RxDelivery) : List Action := [.rx d]

/-- `CMD <mnemonic>`: `WR CMD` of the mnemonic's word (R97); an instruction that is no command has
none. -/
def cmd (i : Instr) : List Action :=
  match commandRows.find? (fun row => row.2 == i) with
  | some row => wr Slot.CMD row.1
  | none => []

/-- `LOADSRC` (R97). -/
def loadSrc (text : List Byte) : List Action :=
  wrb .src 0 text ++ wr Slot.SRC_LEN (BitVec.ofNat 32 text.length)

/-- `LOADPKT` (R97). -/
def loadPkt (bytes : List Byte) : List Action :=
  wrb .pkt 0 bytes ++ wr Slot.PKT_LEN (BitVec.ofNat 32 bytes.length)

/-- `WAIT` (R97) that polls STATUS `n` times with a HEXLINK step before each: since a HEXLINK step runs
to completion or to a wait (R240), one poll is enough. -/
def waitPolls (n : Nat) : List Action :=
  match n with
  | 0 => []
  | n + 1 => .hexlink :: .read Slot.STATUS :: waitPolls n

end Sys2Proof.Machine
end

