-- ==== Sys2Proof/Tests/Slice0.lean ====
section
/-! SUPPORT. Tests of the model on words and results of 95_test_vectors.md (a test names its vector), and
for each statement that has hypotheses a witness: a concrete state and operands that meet them. -/

namespace Sys2Proof.Machine.Test

open Sys2Proof Sys2Proof.Machine

set_option maxRecDepth 20000

/-! ### Helpers -/

/-- ASCII text as bytes. -/
def asc (t : String) : List Byte := t.toList.map fun c => BitVec.ofNat 8 c.toNat

/-- The profile of 95_test_vectors.md, section 0. -/
def profile : Markers := { single := 0x11, first := 0x12, middle := 0x13, last := 0x14, cont := 0x15 }

/-- The start state of 95_test_vectors.md, section 0. -/
def dut : State :=
  { params := { srcCap := 4096, maxPacketLen := 256, maxRxLen := 256 }
    cfg := { appStart := 0x4000, blEnd := 0x3FFF, profile0 := 0x14131211, opContinue := 0x15 } }

/-- The start state with `text` in SRC. -/
def source (text : String) : State :=
  { dut with src := Mem.ofBytes (asc text),
             cfg := { dut.cfg with srcLen := BitVec.ofNat 32 (asc text).length } }

/-- The start state with PKT[i] = i + 1 for i below `n`. -/
def packet (n : Nat) : State :=
  { dut with pkt := Mem.ofBytes ((List.range n).map fun i => BitVec.ofNat 8 (i + 1)),
             cfg := { dut.cfg with pktLen := BitVec.ofNat 32 n } }

/-- The state `a` is the next action of. -/
def facing (s : State) (a : Action) : State := { s with actions := [a] }

/-- The state with command `opc` accepted and not begun. -/
def running (s : State) (opc : BitVec 4) : State :=
  { s with pendingCmd := opc, status := { s.status with busy := true } }

/-- The outcome is a next state for which `f` holds. -/
def after (o : Host.Outcome State Fault Refusal) (f : State → Bool) : Bool :=
  match o with
  | .next t => f t
  | .fault _ => false
  | .refused _ => false

theorem after_next {o : Host.Outcome State Fault Refusal} {f : State → Bool} (h : after o f = true) :
    ∃ t, o = .next t ∧ f t = true := by
  cases o with
  | next t => exact ⟨t, rfl, h⟩
  | fault _ => cases h
  | refused _ => cases h

/-- The registers read as listed. -/
def shows (t : State) (l : List (BitVec 6 × Word)) : Bool :=
  l.all fun x => t.register x.1 == x.2

/-- The first bytes of an array. -/
def bytes (t : State) (a : ArrayName) (n : Nat) : List Byte := Mem.slice (t.array a) 0 n

/-- Line 1 of the image W3. -/
def w3Line1 : String := ":104000000102030405060708090A0B0C0D0E0F1028\n"

/-- The image W3. -/
def w3 : String := w3Line1 ++ ":08401000A0A1A2A3A4A5A6A78C\n:00000001FF\n"

/-- A run started on `text` by START_ASSEMBLY. -/
def started (text : String) : State :=
  { source text with asm := { cbs := 0x4000 }, status := { asmActive := true, lastCmd := 3 } }

/-! ### Well-formedness: each check refuses an ill-formed term -/

/-- A record of 256 data bytes has no LL. -/
def longRec : Rec := { ah := 0, al := 0, data := List.replicate 256 0, cc := 0 }

theorem test_wf_record_too_long :
    (Instr.data longRec).wf = false ∧ (Instr.eof longRec).wf = false ∧
    (Instr.esa longRec).wf = false ∧ (Instr.ssa longRec).wf = false ∧
    (Instr.ela longRec).wf = false ∧ (Instr.sla longRec).wf = false := by decide

theorem test_wf_single_over_56 : (Instr.segSingle 57 (List.replicate 57 0)).wf = false := by decide

theorem test_wf_single_length_differs : (Instr.segSingle 3 [1, 2]).wf = false := by decide

theorem test_wf_first_not_over_56 : (Instr.segFirst 56 (List.replicate 56 0)).wf = false := by decide

theorem test_wf_first_chunk_not_56 : (Instr.segFirst 60 (List.replicate 55 0)).wf = false := by decide

theorem test_wf_middle_chunk_not_56 : (Instr.segMiddle (List.replicate 57 0)).wf = false := by decide

theorem test_wf_last_empty : (Instr.segLast []).wf = false := by decide

theorem test_wf_last_over_56 : (Instr.segLast (List.replicate 57 0)).wf = false := by decide

theorem test_wf_window_not_56 : (Instr.rxContinue (List.replicate 55 0) 0).wf = false := by decide

/-! ### Decoding: words written out from 30_encoding.md -/

theorem test_decode_commands :
    [0x00000000, 0x00000001, 0x00000002, 0x00000003, 0x00000004, 0x00000005, 0x00000006, 0x00000007,
      0x00000008, 0x0000000F].map decodeCommand =
    [.ok .nop, .ok .readRecord, .ok .validate, .ok .startAssembly, .ok .nextBlock, .ok .frame,
      .ok .unframe, .ok .rewind, .ok .clearError, .ok .softReset] := by decide

theorem test_decode_illegal_words :
    [0x00000009, 0x0000000E, 0x00000010, 0x00000100, 0x00000012, 0x80000002].map decodeCommand =
      List.replicate 6 (.error .illegalCommand) := by decide

theorem test_decode_data : decodeRecord (asc ":04400000deadbeef84\n") =
    .ok (.data { ah := 0x40, al := 0x00, data := [0xDE, 0xAD, 0xBE, 0xEF], cc := 0x84 }) := by decide

theorem test_decode_eof : decodeRecord (asc ":00000001FF") =
    .ok (.eof { ah := 0x00, al := 0x00, data := [], cc := 0xFF }) := by decide

theorem test_decode_esa : decodeRecord (asc ":020000021000EC") =
    .ok (.esa { ah := 0x00, al := 0x00, data := [0x10, 0x00], cc := 0xEC }) := by decide

theorem test_decode_ssa : decodeRecord (asc ":0400000300004000B9") =
    .ok (.ssa { ah := 0x00, al := 0x00, data := [0x00, 0x00, 0x40, 0x00], cc := 0xB9 }) := by decide

theorem test_decode_ela : decodeRecord (asc ":020000041234B4") =
    .ok (.ela { ah := 0x00, al := 0x00, data := [0x12, 0x34], cc := 0xB4 }) := by decide

theorem test_decode_sla : decodeRecord (asc ":0400000500004000B7") =
    .ok (.sla { ah := 0x00, al := 0x00, data := [0x00, 0x00, 0x40, 0x00], cc := 0xB7 }) := by decide

theorem test_decode_no_record :
    decodeRecord (asc ":00000006FA") = .error (.unknownType 0x06) ∧
    decodeRecord (asc ":0440000GDEADBEEF84") = .error .badHexDigit ∧
    decodeRecord (asc ":04400000DEADBE") = .error .truncated ∧
    decodeRecord (asc "04400000DEADBEEF84") = .error .noColon := by decide

/-- T5.4 -/
theorem test_decode_seg_single :
    decodeOutbound profile 0 ([0x00, 0x11, 0x00, 0x00, 0x00, 0x38] ++ List.replicate 56 0xA5 ++ [0, 0, 0])
      = .ok (.segSingle 56 (List.replicate 56 0xA5)) := by decide

/-- T5.8, report 0 -/
theorem test_decode_seg_first :
    decodeOutbound profile 0 ([0x00, 0x12, 0x00, 0x00, 0x00, 0x82] ++ List.replicate 56 0xA5 ++ [0, 0, 0])
      = .ok (.segFirst 130 (List.replicate 56 0xA5)) := by decide

/-- T5.8, report 1 -/
theorem test_decode_seg_middle :
    decodeOutbound profile 74 ([0x00, 0x13] ++ List.replicate 56 0xA5 ++ List.replicate 7 0)
      = .ok (.segMiddle (List.replicate 56 0xA5)) := by decide

/-- T5.7, report 2 -/
theorem test_decode_seg_last :
    decodeOutbound profile 1 ([0x00, 0x14, 0x71] ++ List.replicate 62 0) = .ok (.segLast [0x71]) := by
  decide

/-- T6.6: the window is bytes 2 to 57, the flag byte 58. -/
theorem test_decode_rx_continue :
    decodeInbound profile ([0x00, 0x15] ++ List.replicate 56 0xA5 ++ [0xFF] ++ List.replicate 6 0)
      = .ok (.rxContinue (List.replicate 56 0xA5) 0xFF) := by decide

theorem test_decode_no_report :
    decodeInbound profile ([0x00, 0x14] ++ List.replicate 63 0) = .error .notContinue ∧
    decodeOutbound profile 0 ([0x00, 0x15] ++ List.replicate 63 0) = .error .unknownMarker ∧
    decodeOutbound profile 0 [0x00, 0x11] = .error .reportSize ∧
    decodeOutbound profile 0 ([0x00, 0x11, 0, 0, 0, 57] ++ List.replicate 59 0) = .error .badLength := by
  decide

theorem test_table_words :
    decodeTableWord 32 0x0000000F = some .softReset ∧ decodeTableWord 32 0x0000000A = none ∧
    decodeTableWord 8 0x04 = some (.ela { ah := 0, al := 0, data := [0, 0], cc := 0xFA }) ∧
    decodeTableWord 8 0x06 = none := by decide

/-- The first step after reset runs the command placed, or READ_RECORD of the record placed. -/
theorem test_fetch_word :
    after (step (State.reset.withFetchWord 32 0x07)) (shows · [(0x01, 0x00007000)]) = true ∧
    after (step (State.reset.withFetchWord 32 0x0F)) (shows · [(0x01, 0x0000F000)]) = true ∧
    after (step (State.reset.withFetchWord 8 0x01))
      (shows · [(0x01, 0x00001800), (0x13, 0x00FF0100), (0x0C, 1)]) = true := by decide

/-! ### One step of each instruction -/

/-- T7.12 -/
theorem test_nop :
    after (step (facing { dut with status := { asmActive := true, lastCmd := 3 } }
      (.write Slot.CMD 0))) (shows · [(0x01, 0x00000010)]) = true := by decide

/-- T2.17 -/
theorem test_read_record :
    after (exec .readRecord (source ":020000040001F9\n:04400000DEADBEEF84\n")) (fun t =>
      shows t [(0x12, 0x00014000), (0x13, 0x00840004), (0x0B, 0x00010000), (0x09, 36), (0x0C, 2),
        (0x01, 0x00000400)] &&
      bytes t .recData 5 == [0xDE, 0xAD, 0xBE, 0xEF, 0x00]) = true := by decide

/-- T2.30; and ConfigError, which leaves REC_KIND = 0 too (R139, R263, R266, D50). -/
theorem test_read_record_error :
    after (exec .readRecord (source ":020000040001F9\n:04400000DEADBEEF85\n"))
      (shows · [(0x0D, 0x02), (0x0E, 2), (0x0F, 16), (0x10, 0), (0x11, 0x00008584), (0x09, 16),
        (0x0C, 1), (0x0B, 0x00010000), (0x01, 0x00000002)]) = true ∧
    after (exec .readRecord { dut with
        cfg := { dut.cfg with srcLen := 4097 }, status := { recKind := 1, lastCmd := 1 } })
      (shows · [(0x0D, 0x0E), (0x01, 0x00001002)]) = true := by decide

/-- R295: a CMD write makes its results wait for a read of STATUS that returns BUSY = 0. -/
theorem test_result_hazard :
    after (step (facing { dut with unseen := [0x2] } (.write Slot.CMD 1)))
      (fun t => t.unseen == [0x1, 0x2]) = true ∧
    after (step (facing { dut with unseen := [0x1, 0x2] } (.read Slot.STATUS)))
      (fun t => t.unseen == [] && t.readSlot 0x09 == 0) = true ∧
    after (step (facing { running dut 1 with unseen := [0x1] } (.read Slot.STATUS)))
      (fun t => t.unseen == [0x1]) = true ∧
    ({ dut with unseen := [0x1] } : State).slotUnsteady 0x09 = true ∧
    ({ dut with unseen := [0x1] } : State).slotUnsteady 0x14 = false := by decide

/-- W3 -/
theorem test_validate :
    after (exec .validate (source w3))
      (shows · [(0x01, 0x00000008), (0x14, 3), (0x15, 0x4010), (0x16, 8), (0x17, 0x18),
        (0x09, 84)]) = true := by decide

/-- W2, third case -/
theorem test_validate_protected :
    after (exec .validate (source (w3Line1 ++ ":0130000001CE\n:00000001FF\n")))
      (shows · [(0x0D, 0x07), (0x0E, 2), (0x0F, 44), (0x10, 0x3000), (0x09, 58), (0x17, 0)]) = true := by
  decide

/-- W3 -/
theorem test_start_assembly :
    after (exec .startAssembly
        { source w3 with status := { validated := true, lastCmd := 3 }, rdr := { cursor := 84, lines := 3 } })
      (shows · [(0x01, 0x00003010), (0x18, 0x4000), (0x19, 0), (0x09, 0), (0x0C, 0)]) = true := by decide

/-- T4.9 -/
theorem test_start_assembly_unvalidated :
    after (exec .startAssembly dut) (shows · [(0x01, 0x00000002), (0x0D, 0x0F)]) = true := by decide

/-- W3: one short block of 24 bytes; T4.9, no sequence, with BLK_VALID cleared (R266). -/
theorem test_next_block :
    after (exec .nextBlock (started w3)) (fun t =>
      shows t [(0x01, 0x00003060), (0x1B, 0x4000), (0x1C, 24), (0x1D, 1), (0x0C, 3), (0x19, 24)] &&
      (bytes t .blkData 26).drop 14 ==
        [0x0F, 0x10, 0xA0, 0xA1, 0xA2, 0xA3, 0xA4, 0xA5, 0xA6, 0xA7, 0x00, 0x00]) = true ∧
    after (step (running { dut with status := { lastCmd := 4, blkValid := true } } 4))
      (shows · [(0x01, 0x00004002), (0x0D, 0x0F)]) = true := by decide

/-- T4.4: four bytes are carried into the next block. -/
theorem test_next_block_carry :
    after (exec .nextBlock (started
        (":1C4000000102030405060708090A0B0C0D0E0F101112131415161718191A1B1C0E\n" ++
         ":08401C00414243444546474878\n:00000001FF\n"))) (fun t =>
      shows t [(0x01, 0x00003050), (0x1B, 0x4000), (0x1C, 32), (0x19, 0x00040100), (0x1A, 0x4020),
        (0x18, 0x4020)] &&
      (bytes t .blkData 32).drop 27 == [0x1C, 0x41, 0x42, 0x43, 0x44]) = true := by decide

/-- T5.5, report 0 -/
theorem test_frame :
    after (exec .frame (running (packet 57) 5)) (fun t =>
      shows t [(0x01, 0x00000081), (0x1E, 0), (0x1F, 2)] &&
      bytes t .txr 8 == [0x00, 0x12, 0x00, 0x00, 0x00, 0x39, 0x01, 0x02] &&
      (bytes t .txr 65).drop 60 == [0x37, 0x38, 0x00, 0x00, 0x00]) = true := by decide

/-- T5.9 -/
theorem test_frame_rejected :
    after (exec .frame { running (packet 130) 5 with
        txIn := some .failed, frm := { segIndex := 1, segTotal := 3 } })
      (shows · [(0x01, 0x00000002), (0x0D, 0x0A), (0x10, 1), (0x1E, 1)]) = true := by decide

/-- A first inbound report of declared length `n` with `data` and the flag byte. -/
def firstReport (n : Byte) (data : List Byte) (flag : Byte) : List Byte :=
  [0x00, 0x99, 0x00, 0x00, 0x00, n] ++ data ++ List.replicate (56 - data.length) 0 ++ [flag, 0x00, 0x00]

/-- A continuation report with tag byte `tag`. -/
def nextReport (tag : Byte) (data : List Byte) (flag : Byte) : List Byte :=
  [0x00, tag] ++ data ++ List.replicate (56 - data.length) 0 ++ [flag] ++ List.replicate 6 0

/-- UNFRAME awaiting, with a delivery just recorded. -/
def delivered (rx : ReassemblerRegs) (d : RxDelivery) : State :=
  { running dut 6 with rx := rx, rxIn := some d }

/-- T6.2 -/
theorem test_unframe :
    after (exec .unframe (delivered {} (.report (firstReport 3 [0xAA, 0xBB, 0xCC, 0xDD] 0))))
      (fun t => shows t [(0x01, 0x00000200), (0x20, 3), (0x21, 3)] &&
        bytes t .rxbuf 4 == [0xAA, 0xBB, 0xCC, 0x00]) = true := by decide

/-- T6.7 -/
theorem test_unframe_wrong_tag :
    after (exec .unframe (delivered { len := 60, count := 56, unfIndex := 1 }
        (.report (nextReport 0x14 [0x78, 0x79, 0x7A, 0x7B] 0))))
      (shows · [(0x01, 0x00000002), (0x0D, 0x0C), (0x10, 1), (0x20, 60), (0x21, 0)]) = true := by decide

/-- T7.11 -/
theorem test_rewind :
    after (exec .rewind { running dut 7 with
        rdr := { cursor := 36, linBase := 0x10000, lines := 2 }, recOut := { addr := 0x14000 } })
      (shows · [(0x01, 0), (0x09, 0), (0x0B, 0), (0x0C, 0), (0x12, 0x14000)]) = true := by decide

/-- T7.15 -/
theorem test_clear_error :
    after (exec .clearError { running dut 8 with
        err := { code := 0x02, line := 1, expected := 0x84, actual := 0x85 }
        status := { busy := true, err := true, lastCmd := 8 } })
      (shows · [(0x01, 0x00008000), (0x0D, 0), (0x0E, 0), (0x11, 0)]) = true := by decide

/-- T7.8: SOFT_RESET is taken while FRAME waits. -/
theorem test_soft_reset :
    after (step (facing { running (packet 130) 5 with
        status := { busy := true, txWait := true, lastCmd := 5 }, frm := { segIndex := 1, segTotal := 3 } }
        (.write Slot.CMD 0x0000000F)))
      (shows · [(0x01, 0x0000F000), (0x1E, 0), (0x1F, 0), (0x08, 130), (0x05, 0x14131211)]) = true := by
  decide

/-- T2.18: the resolved address wraps. -/
theorem test_data :
    after (exec (.data { ah := 0x00, al := 0x04, data := [0xCC], cc := 0x2F })
        { source ":01000400CC2F\n" with rdr := { segBase := 0x00010000, linBase := 0xFFFF0000 } })
      (fun t => t.ret == .data 0x00000004 0 [0xCC] 0x2F && t.rdr.cursor == 14) = true := by decide

/-- T2.25: a type 00 record without data is an end-of-file marker. -/
theorem test_data_empty :
    after (exec (.data { ah := 0x40, al := 0x00, data := [], cc := 0xC0 }) (source ":00400000C0\n"))
      (fun t => t.ret == .eof 0x00004000 0 0x00 0xC0 && t.rdr.lines == 1) = true := by decide

/-- T2.28: the address of the EOF record is resolved. -/
theorem test_eof :
    after (exec (.eof { ah := 0, al := 0, data := [], cc := 0xFF })
        { source ":00000001FF\n" with rdr := { linBase := 0x00010000 } })
      (fun t => t.ret == .eof 0x00010000 0 0x01 0xFF && t.rdr.cursor == 12) = true := by decide

/-- T2.15 -/
theorem test_esa :
    after (exec (.esa { ah := 0, al := 0, data := [0xF0, 0x00], cc := 0x0C }) (source ":02000002F0000C\n"))
      (shows · [(0x0A, 0x000F0000), (0x0B, 0), (0x09, 16), (0x0C, 1)]) = true := by decide

/-- T2.16 -/
theorem test_esa_out_of_range :
    after (exec (.esa { ah := 0, al := 0, data := [0xF0, 0x01], cc := 0x0B }) (source ":02000002F0010B\n"))
      (shows · [(0x0D, 0x05), (0x10, 0xF001), (0x0A, 0), (0x09, 0)]) = true := by decide

/-- T2.3, its first record, ended by CR LF -/
theorem test_ssa :
    after (exec (.ssa { ah := 0, al := 0, data := [0x00, 0x00, 0x40, 0x00], cc := 0xB9 })
        (source ":0400000300004000B9\r\n:00000001FF\r\n"))
      (shows · [(0x09, 21), (0x0C, 1), (0x0A, 0), (0x0B, 0)]) = true := by decide

/-- T2.20 -/
theorem test_ela :
    after (exec (.ela { ah := 0, al := 0, data := [0x12, 0x34], cc := 0xB4 }) (source ":020000041234B4\n"))
      (shows · [(0x0B, 0x12340000), (0x0C, 1)]) = true := by decide

/-- T2.19 -/
theorem test_ela_variant_b :
    after (exec (.ela { ah := 0, al := 0, data := [0x12, 0x34], cc := 0xB4 })
        { source ":020000041234B4\n" with cfg := { (source ":020000041234B4\n").cfg with addrMode := 1 } })
      (shows · [(0x0B, 0x00340000), (0x0C, 1)]) = true := by decide

/-- T2.22, its second record -/
theorem test_sla :
    after (exec (.sla { ah := 0, al := 0, data := [0x00, 0x00, 0x40, 0x00], cc := 0xB7 })
        (source ":0400000500004000B7\n"))
      (shows · [(0x09, 20), (0x0C, 1), (0x0A, 0), (0x0B, 0)]) = true := by decide

/-- T5.3 -/
theorem test_seg_single :
    after (exec (.segSingle 3 [0x01, 0x02, 0x03]) dut)
      (fun t => bytes t .txr 65 ==
        [0x00, 0x11, 0x00, 0x00, 0x00, 0x03, 0x01, 0x02, 0x03] ++ List.replicate 56 0) = true := by decide

/-- T5.8, report 0 -/
theorem test_seg_first :
    after (exec (.segFirst 130 (List.replicate 56 0xA5)) dut)
      (fun t => bytes t .txr 65 ==
        [0x00, 0x12, 0x00, 0x00, 0x00, 0x82] ++ List.replicate 56 0xA5 ++ [0, 0, 0]) = true := by decide

/-- T5.8, report 1 -/
theorem test_seg_middle :
    after (exec (.segMiddle (List.replicate 56 0xA5)) dut)
      (fun t => bytes t .txr 65 ==
        [0x00, 0x13] ++ List.replicate 56 0xA5 ++ List.replicate 7 0) = true := by decide

/-- T5.7, report 2 -/
theorem test_seg_last :
    after (exec (.segLast [0x71]) dut)
      (fun t => bytes t .txr 65 == [0x00, 0x14, 0x71] ++ List.replicate 62 0) = true := by decide

/-- T6.3: four bytes of the window are still wanted. -/
theorem test_rx_continue :
    after (exec (.rxContinue ([0x78, 0x79, 0x7A, 0x7B, 0x7C] ++ List.replicate 51 0) 0)
        { running dut 6 with rx := { len := 60, count := 56, unfIndex := 1 } })
      (fun t => shows t [(0x01, 0x00000200), (0x21, 60)] &&
        (bytes t .rxbuf 61).drop 55 == [0x00, 0x78, 0x79, 0x7A, 0x7B, 0x00]) = true := by decide

/-- T6.6 -/
theorem test_rx_continue_flag :
    after (exec (.rxContinue (List.replicate 56 0) 0xFF)
        { running dut 6 with rx := { len := 60, count := 56, unfIndex := 1 } })
      (shows · [(0x01, 0x00000002), (0x0D, 0x0D), (0x10, 1), (0x20, 60), (0x21, 0)]) = true := by decide

/-! ### The command unit -/

/-- T7.2 and T7.3 -/
theorem test_illegal_command :
    after (step (facing dut (.write Slot.CMD 0x00000009)))
      (shows · [(0x01, 0x00009002), (0x0D, 0x10)]) = true ∧
    after (step (facing dut (.write Slot.CMD 0x00000100)))
      (shows · [(0x01, 0x00000002), (0x0D, 0x10)]) = true := by decide

/-- T7.5 and T7.6 -/
theorem test_busy_writes :
    let s := { packet 3 with status := { busy := true, txWait := true, lastCmd := 5 } }
    after (step (facing s (.write Slot.CMD 0x00000002))) (shows · [(0x01, 0x00005085)]) = true ∧
    after (step (facing s (.write Slot.PKT_LEN 1)))
      (shows · [(0x01, 0x00005085), (0x08, 3)]) = true := by decide

/-- T7.9 -/
theorem test_invalidating_write :
    after (step (facing { dut with status := { validated := true, lastCmd := 2 } }
        (.write Slot.BL_END 0x00003FFF)))
      (shows · [(0x01, 0x00002000), (0x04, 0x00003FFF)]) = true := by decide

/-- T7.13: the command is accepted by the write and runs in the step after it. -/
theorem test_accept_then_run :
    after (step (facing (started w3) (.write Slot.CMD 4))) (shows · [(0x01, 0x00004011)]) = true ∧
    after (step { started w3 with
        pendingCmd := 4, status := { busy := true, asmActive := true, lastCmd := 4 } })
      (shows · [(0x01, 0x00004060)]) = true := by decide

/-- T7.1 -/
theorem test_rst :
    after (step (facing (packet 3) .rst)) (shows · [(0x01, 0), (0x03, 0), (0x05, 0), (0x08, 0)]) =
      true := by decide

/-! ### Witnesses: states and operands that meet a statement's hypotheses, clause by clause -/

theorem witness_DecodeOfEncodeIsTheInstruction :
    markersDistinct profile = true ∧
    (Instr.segLast (List.replicate 56 1)).wf = true ∧ (Instr.segSingle 0 []).wf = true ∧
    (Instr.data { ah := 0, al := 0, data := List.replicate 255 0, cc := 0 }).wf = true ∧
    (∀ chunk, Instr.segLast (List.replicate 56 1) = .segLast chunk → 56 = chunk.length) := by
  refine ⟨by decide, by decide, by decide, by decide, fun chunk h => ?_⟩
  cases h; rfl

theorem witness_ChecksumIsTheByteSumMod256 :
    Rec.wf { ah := 0xFF, al := 0xFF, data := List.replicate 255 0xFF, cc := 0x01 } = true := by decide

theorem witness_StepRunsThePendingCommand :
    let s := running (source w3) 8
    s.status.busy = true ∧ s.status.txWait = false ∧ s.status.rxWait = false ∧
    decodeCommand (s.pendingCmd.setWidth 32) = .ok .clearError ∧ 1 ≤ s.pendingCmd.toNat ∧
    s.pendingCmd.toNat ≤ 8 ∧ s.actions = [] ∧ (facing s .hexlink).actions = [.hexlink] ∧
    decodeCommand ((running dut 1).pendingCmd.setWidth 32) = .ok .readRecord ∧
    decodeCommand ((running dut 4).pendingCmd.setWidth 32) = .ok .nextBlock := by decide

theorem witness_CommandWriteRunsAcceptsOrDrops :
    (running dut 5).status.busy = true ∧ dut.status.busy = false ∧
    (facing dut (.write Slot.CMD 1)).actions = [.write Slot.CMD 1] ∧
    (0x00000002 : Word) ≠ 0x0000000F ∧ 1 ≤ (1 : Word).toNat ∧ (8 : Word).toNat ≤ 8 ∧
    9 ≤ ((0x00000009 : Word).extractLsb' 0 4).toNat ∧
    ((0x0000000E : Word).extractLsb' 0 4).toNat ≤ 14 ∧
    (0x00000010 : Word).extractLsb' 4 28 ≠ 0 := by decide

/-- NopWritesOnlyLastCmd and SoftResetKeepsConfigurationAndHostData: their CMD writes. -/
theorem witness_NopAndSoftResetWrites :
    (facing dut (.write Slot.CMD 0)).actions = [.write Slot.CMD 0] ∧
    (facing (running dut 5) (.write Slot.CMD 0x0000000F)).actions = [.write Slot.CMD 0x0000000F] := by
  decide

theorem witness_BusyHostWritesAreDropped :
    (running dut 5).status.busy = true ∧ 2 ≤ Slot.MODE.toNat ∧ Slot.PKT_LEN.toNat ≤ 8 ∧
    4095 < dut.arraySize HostData.src.array ∧ dut.arraySize HostData.src.array ≤ 4096 ∧
    255 < dut.arraySize HostData.pkt.array ∧ dut.arraySize HostData.pkt.array ≤ 256 := by decide

theorem witness_ConfigurationWritesTakeEffect :
    dut.status.busy = false ∧ (facing dut (.write Slot.MODE 1)).actions = [.write Slot.MODE 1] := by
  decide

theorem witness_ReadOnlyAndReservedWritesAreIgnored :
    (facing dut (.write 9 5)).actions = [.write 9 5] ∧ 9 ≤ (9 : BitVec 6).toNat ∧
    9 ≤ (63 : BitVec 6).toNat := by decide

theorem witness_ByteWritesWriteOneByte :
    (source w3).arraysCanonical = true ∧ (source w3).status.busy = false ∧
    0 < (source w3).params.srcCap ∧ 4095 < (source w3).params.srcCap ∧
    255 < (source w3).params.maxPacketLen ∧
    (source w3).arraySize HostData.src.array ≤ 4096 ∧
    (source w3).arraySize HostData.pkt.array ≤ 256 ∧
    (facing (source w3) (.writeb .src 4095 1)).actions = [.writeb .src 4095 1] := by decide

theorem witness_HostReadsChangeNothing :
    (let s : State := { dut with unseen := [0x1] }
     s.AwaitedSlot 0x09 ∧ s.AwaitedSlot 0x13 ∧ ¬ s.AwaitedSlot 0x14 ∧ ¬ s.AwaitedSlot Slot.MODE ∧
     s.AwaitedArray .recData ∧ ¬ s.AwaitedArray .blkData ∧
     (0x13 : BitVec 6) ∉ [Slot.CMD, Slot.STATUS, Slot.SEG_INDEX, Slot.SEG_TOTAL] ∧ 63 < s.arraySize .recData ∧
     (facing s (.write Slot.CMD 8)).actions = [.write Slot.CMD 8] ∧ (8 : Word).toNat ≤ 8) ∧
    dut.status.busy = false ∧ dut.arraySize .recData ≤ 64 ∧ 63 < dut.arraySize .recData ∧
    (facing dut (.read Slot.STATUS)).actions = [.read Slot.STATUS] ∧
    0x22 ≤ (0x22 : BitVec 6).toNat ∧ 0x22 ≤ (0x3F : BitVec 6).toNat ∧
    (facing dut (.readb .txr 64)).actions = [.readb .txr 64] ∧
    (let s := { running dut 5 with status := { busy := true, txWait := true } }
     s.status.txWait = true ∧ 64 < s.arraySize .txr) := by
  unfold State.AwaitedSlot State.AwaitedArray; decide

theorem witness_TransportActionsAndWaiting :
    (facing dut (.tx .done)).actions = [.tx .done] ∧ (facing dut (.rx .timeout)).actions = [.rx .timeout] ∧
    dut.actions = [] ∧ dut.status.busy = false ∧
    (let s := { facing dut (.tx .done) with status := { busy := true, txWait := true } }
     s.actions = [.tx .done] ∧ s.status.txWait = true) ∧
    (let s := { facing dut (.rx .timeout) with status := { busy := true, rxWait := true } }
     s.actions = [.rx .timeout] ∧ s.status.rxWait = true) ∧
    (let s := { dut with status := { busy := true, txWait := true } }
     s.actions = [] ∧ s.status.txWait = true) ∧
    (let s := { dut with status := { busy := true, rxWait := true } }
     s.actions = [] ∧ s.status.rxWait = true) := by decide

theorem witness_ResetInputResets : (facing (packet 3) .rst).actions = [.rst] := by decide

/-- The ELA record of T2.17. -/
def elaRec : Rec := { ah := 0, al := 0, data := [0x00, 0x01], cc := 0xF9 }

theorem witness_AcceptingARecordEndsItsLine :
    let s := source ":020000040001F9"
    s.rdr.cursor.toNat + (11 + 2 * elaRec.data.length) ≤ s.cfg.srcLen.toNat := by decide

theorem witness_DataAndEofRecordsAreReturned :
    checksumGood 0x00 { ah := 0, al := 0, data := [0xFF], cc := 0x00 } = true ∧
    (let r : Rec := { ah := 0, al := 0, data := List.replicate 64 0, cc := 0xC0 }
     checksumGood 0x00 r = true ∧ 1 ≤ r.data.length ∧ r.data.length ≤ 64) ∧
    checksumGood 0x00 { ah := 0, al := 0, data := [], cc := 0x00 } = true ∧
    checksumGood 0x01 { ah := 0, al := 0, data := [], cc := 0xFF } = true := by decide

theorem witness_ExtendedRecordsInVariantA :
    dut.cfg.addrMode = 0 ∧
    checksumGood 0x02 { ah := 0, al := 0, data := [0x10, 0x00], cc := 0xEC } = true ∧
    checksumGood 0x02 { ah := 0, al := 0, data := [0xF0, 0x00], cc := 0x0C } = true ∧
    checksumGood 0x02 { ah := 0, al := 0, data := [0x0F, 0xFF], cc := 0xEE } = true ∧
    checksumGood 0x02 { ah := 0, al := 0, data := [0xF0, 0x01], cc := 0x0B } = true ∧
    checksumGood 0x04 elaRec = true ∧
    0x1000 ≤ 0x10 * 256 + 0x00 ∧ 0xF0 * 256 + 0x00 ≤ 0xF000 ∧ 0x0F * 256 + 0xFF < 0x1000 ∧
    0xF000 < 0xF0 * 256 + 0x01 := by decide

theorem witness_ExtendedRecordsInVariantB :
    let s := { dut with cfg := { dut.cfg with addrMode := 1 } }
    s.cfg.addrMode = 1 ∧ elaRec.data = [0x00, 0x01] ∧ checksumGood 0x04 elaRec = true ∧
    checksumGood 0x02 { ah := 0, al := 0, data := [0x0F, 0xFF], cc := 0xEE } = true := by decide

theorem witness_StartRecordsOnlyCount :
    checksumGood 0x03 { ah := 0, al := 0, data := [], cc := 0xFD } = true ∧
    (let r : Rec := { ah := 0, al := 0, data := List.replicate 64 0, cc := 0xBB }
     r.data.length ≤ 64 ∧ checksumGood 0x05 r = true) := by decide

theorem witness_RecordChecksRaiseTheirErrors :
    checksumGood RecordType.ela.code { ah := 0, al := 0, data := [0x00, 0x01], cc := 0xF8 } = false ∧
    (let r : Rec := { ah := 0x40, al := 0, data := List.replicate 65 0, cc := 0x7F }
     checksumGood RecordType.data.code r = true ∧ 64 < r.data.length) ∧
    (let r : Rec := { ah := 0, al := 0, data := [0x00], cc := 0xFE }
     checksumGood RecordType.eof.code r = true ∧ r.data.length ≠ 0) ∧
    (let r : Rec := { ah := 0, al := 0, data := [0x00, 0x01, 0x02], cc := 0xF6 }
     checksumGood RecordType.ela.code r = true ∧ r.data.length ≠ 2) := by decide

/-- The texts: upper-case digits behind whitespace and with a tail, and lower-case digits (R81). -/
theorem witness_ReadNextRunsTheRecordAtCursor :
    (∀ b ∈ asc " \r\n\t", b = 0x20 ∨ b = 0x09 ∨ b = 0x0D ∨ b = 0x0A) ∧
    decodeFields (asc ":020000040001F9\nrest") = .ok (RecordType.ela.code, elaRec) ∧
    (source " \r\n\t:020000040001F9\nrest").sourceFrom 0 =
      asc " \r\n\t" ++ asc ":020000040001F9\nrest" ∧
    after (exec (RecordType.ela.instr elaRec)
      { source " \r\n\t:020000040001F9\nrest" with rdr := { cursor := 4 } }) (fun _ => true) = true ∧
    decodeFields (asc ":020000040001f9") = .ok (RecordType.ela.code, elaRec) ∧
    (source ":020000040001f9").sourceFrom 0 = [] ++ asc ":020000040001f9" ∧
    (source ":00000006FA").sourceFrom 0 = [] ++ asc ":00000006FA" ∧
    decodeFields (asc ":00000006FA") = .ok (0x06, { ah := 0, al := 0, data := [], cc := 0xFA }) ∧
    5 < (0x06 : Byte).toNat ∧
    checksumGood 0x06 { ah := 0, al := 0, data := [], cc := 0xFA } = true ∧
    (source ":000000ff00").sourceFrom 0 = [] ++ asc ":000000ff00" ∧
    decodeFields (asc ":000000ff00") = .ok (0xFF, { ah := 0, al := 0, data := [], cc := 0x00 }) ∧
    checksumGood 0xFF { ah := 0, al := 0, data := [], cc := 0x00 } = false := by decide

theorem witness_ReadNextEndsOrFindsNoRecord :
    (∀ b ∈ asc "  \r\n\t", b = 0x20 ∨ b = 0x09 ∨ b = 0x0D ∨ b = 0x0A) ∧
    (source "  \r\n\t").sourceFrom 0 = asc "  \r\n\t" ∧ (source "").sourceFrom 0 = [] ∧
    (source "\nX").sourceFrom 0 = asc "\n" ++ 0x58 :: [] ∧ (0x58 : Byte) ≠ 0x3A ∧
    (source ":04400000DEADBE").sourceFrom 0 = [] ++ 0x3A :: asc "04400000DEADBE" ∧
    decodeFields (0x3A :: asc "04400000DEADBE") = .error .truncated ∧
    decodeFields (0x3A :: asc "0440000GDEADBEEF84") = .error .badHexDigit ∧
    ¬ ((0x3A : Byte) = 0x20 ∨ (0x3A : Byte) = 0x09 ∨ (0x3A : Byte) = 0x0D ∨ (0x3A : Byte) = 0x0A) ∧
    (source "").rdr.cursor.toNat ≤ (source "").cfg.srcLen.toNat := by decide

theorem witness_CursorAboveSourceLengthIsASyntaxError :
    ({ dut with rdr := { cursor := 1 } } : State).cfg.srcLen.toNat <
      ({ dut with rdr := { cursor := 1 } } : State).rdr.cursor.toNat := by decide

theorem witness_ReadRecordReadsADataRecord :
    let s := source "\r\n:01FFFf00bB46\n"
    let r : Rec := { ah := 0xFF, al := 0xFF, data := [0xBB], cc := 0x46 }
    s.cfg.srcLen.toNat ≤ s.params.srcCap ∧
    (∀ b ∈ asc "\r\n", b = 0x20 ∨ b = 0x09 ∨ b = 0x0D ∨ b = 0x0A) ∧
    decodeFields (asc ":01FFFf00bB46\n") = .ok (0x00, r) ∧
    s.sourceFrom s.rdr.cursor.toNat = asc "\r\n" ++ asc ":01FFFf00bB46\n" ∧
    checksumGood 0x00 r = true ∧ 1 ≤ r.data.length ∧ r.data.length ≤ 64 := by decide

/-- What `read_next` returns in READ_RECORD and VALIDATE of a source read from its start. -/
def firstOf (text : String) : ReadResult :=
  (readNext { source text with
    status := { (source text).status with asmActive := false, asmDone := false, recKind := 0 } }).ret

theorem witness_ReadRecordReportsWhatReadNextReturns :
    (source w3).cfg.srcLen.toNat ≤ (source w3).params.srcCap ∧
    firstOf ":01FFFF00BB46\n" = .data 0xFFFF 0 [0xBB] 0x46 ∧
    firstOf ":00400000C0\n" = .eof 0x4000 0 0x00 0xC0 ∧
    firstOf "\n" = .endOfStream ∧ firstOf "X" = .raised := by decide

theorem witness_IllegalConfigurationsRaiseConfigError :
    (let s := { dut with cfg := { dut.cfg with srcLen := 4097 } }
     s.params.srcCap < s.cfg.srcLen.toNat) ∧
    (let s := { dut with cfg := { dut.cfg with appStart := 0x401F } }
     s.cfg.appStart.toNat % 32 ≠ 0) ∧
    (let s := { dut with cfg := { dut.cfg with blEnd := 0x4000 } }
     s.cfg.appStart.toNat ≤ s.cfg.blEnd.toNat) ∧
    (let s := { dut with cfg := { dut.cfg with profile0 := 0x12131211 } }
     s.txIn = none ∧ s.cfg.markers.first = s.cfg.markers.last) := by decide

/-- For ReaderCommandsAlwaysFinish as well: the three commands run. -/
theorem witness_ReaderCommandsFrame :
    (∃ t, exec .readRecord (source w3) = .next t) ∧ (∃ t, exec .validate (source w3) = .next t) ∧
    (∃ t, exec .nextBlock (started w3) = .next t) := ⟨⟨_, rfl⟩, ⟨_, rfl⟩, ⟨_, rfl⟩⟩

theorem witness_SourceBeyondItsLengthIsNeverRead :
    let s := source ":00000001FF"
    let m := Mem.ofBytes (asc ":00000001FF beyond")
    m ≠ s.src ∧ (∀ j, j < s.cfg.srcLen.toNat → Mem.read m j = Mem.read s.src j) ∧
    ∃ t, exec .readRecord s = .next t := ⟨by decide, by decide, ⟨_, rfl⟩⟩

/-! #### VALIDATE -/

/-- The records of W3 before its end-of-file marker. -/
def w3Body : List (RecordType × Rec) :=
  [(.data, { ah := 0x40, al := 0x00, data := [1, 2, 3, 4, 5, 6, 7, 8, 9, 10, 11, 12, 13, 14, 15, 16],
             cc := 0x28 }),
   (.data, { ah := 0x40, al := 0x10, data := [0xA0, 0xA1, 0xA2, 0xA3, 0xA4, 0xA5, 0xA6, 0xA7],
             cc := 0x8C })]

/-- The end-of-file marker of W3. -/
def w3End : RecordType × Rec := (.eof, { ah := 0, al := 0, data := [], cc := 0xFF })

/-- A layout of those records: blank and white lines, digits of both cases, tails; then `more`. -/
def w3Text (more : List Byte) : List Byte :=
  asc "\n " ++ asc ":104000000102030405060708090a0b0c0d0e0f1028\r" ++ 0x0A ::
    (asc "\r\n\t" ++ asc ":08401000A0a1A2A3A4A5A6A78c :tail" ++ 0x0A :: more)

theorem w3_holds {more rest : List Byte} {xs : List (RecordType × Rec)}
    (h : HoldsRecords more xs rest) : HoldsRecords (w3Text more) (w3Body ++ xs) rest :=
  .line (by unfold White; decide) (by unfold HoldsRecord; decide)
    (.line (by unfold White; decide) (by unfold HoldsRecord; decide) h)

theorem w3_bodyPasses : ∀ x ∈ w3Body, Passes 0 x ∧ ¬ IsMarker x := by
  unfold Passes IsMarker; decide

theorem w3_good : GoodImage 0 0x4000 0x3FFF w3Body w3End where
  bodyPasses := w3_bodyPasses
  endPasses := by unfold Passes IsMarker; decide
  startsAtAppStart := by decide
  aboveBootloader := by decide

/-- T3.7: an end-of-file marker at APP_START, and no data. -/
theorem marker_only_good :
    GoodImage 0 0x4000 0x3FFF [] (.data, { ah := 0x40, al := 0, data := [], cc := 0xC0 }) where
  bodyPasses := by simp
  endPasses := by unfold Passes IsMarker; decide
  startsAtAppStart := by decide
  aboveBootloader := by decide

/-- The source W3 in that layout, with `text` behind it. -/
def w3Source (text : String) : State :=
  source ("\n :104000000102030405060708090a0b0c0d0e0f1028\r\n" ++
    "\r\n\t:08401000A0a1A2A3A4A5A6A78c :tail\n" ++ text)

/-- The end-of-file line with what follows it, and ended by the end of the source. -/
theorem witness_ValidateAcceptsAGoodImage :
    (let s := w3Source "\n:00000001ff\r\ngarbage"
     s.cfg.srcLen.toNat ≤ s.params.srcCap ∧ s.cfg.appStart.toNat % 32 = 0 ∧
     s.cfg.blEnd.toNat < s.cfg.appStart.toNat ∧
     GoodImage s.cfg.addrMode s.cfg.appStart s.cfg.blEnd w3Body w3End ∧
     HoldsRecords (s.sourceFrom 0) (w3Body ++ [w3End]) (asc "garbage")) ∧
    (let s := w3Source ":00000001ff"
     s.cfg.srcLen.toNat ≤ s.params.srcCap ∧
     HoldsRecords (s.sourceFrom 0) (w3Body ++ [w3End]) []) ∧
    (returnedFrom 0 (0, 0) w3Body).getLast? =
      some (0x4010, [0xA0, 0xA1, 0xA2, 0xA3, 0xA4, 0xA5, 0xA6, 0xA7]) ∧
    returnedFrom 0 (0, 0) [] = [] := by
  refine ⟨⟨by decide, by decide, by decide, w3_good, ?_⟩, ⟨by decide, ?_⟩, by decide, by decide⟩
  · rw [show (w3Source "\n:00000001ff\r\ngarbage").sourceFrom 0 =
      w3Text (asc "\n" ++ asc ":00000001ff\r" ++ 0x0A :: asc "garbage") by decide]
    exact w3_holds (.line (by unfold White; decide) (by unfold HoldsRecord; decide) (.none _))
  · rw [show (w3Source ":00000001ff").sourceFrom 0 = w3Text ([] ++ asc ":00000001ff") by decide]
    exact w3_holds (.last (by unfold White; decide) (by unfold HoldsRecord; decide))

theorem witness_ValidateSucceedsOrRaises :
    (∃ t, exec .validate (source w3) = .next t ∧ t.status.validated = true) ∧
    (∃ t, exec .validate (source "X") = .next t ∧ t.status.validated = false) :=
  ⟨⟨_, rfl, by decide⟩, ⟨_, rfl, by decide⟩⟩

theorem witness_ValidateChecksTheFirstRecord :
    (source w3).configLegal = true ∧ (0x3000 : Word) ≠ dut.cfg.appStart ∧
    firstOf ":0130000001CE\n:00000001FF\n" = .data 0x3000 0 [0x01] 0xCE ∧
    firstOf ":00000001FF\n" = .eof 0 0 0x01 0xFF ∧ firstOf "" = .endOfStream ∧
    firstOf "X" = .raised := by decide

/-- A data record at BL_END. -/
def protectedRec : Rec := { ah := 0x3F, al := 0xFF, data := [0x00], cc := 0xC1 }

theorem witness_ValidateChecksEveryDataRecord :
    ((w3Source "\n:013fff0000c1\njunk").configLegal = true ∧ White (asc "\n") ∧
     decodeFields (asc ":013fff0000c1\njunk") = .ok (0x00, protectedRec) ∧
     HoldsRecords ((w3Source "\n:013fff0000c1\njunk").sourceFrom 0) w3Body
       (asc "\n" ++ asc ":013fff0000c1\njunk")) ∧
    ((w3Source "\n").configLegal = true ∧
     HoldsRecords ((w3Source "\n").sourceFrom 0) w3Body (asc "\n")) ∧
    (∀ x ∈ w3Body, Passes 0 x ∧ ¬ IsMarker x) ∧
    ((returnedFrom 0 (0, 0) w3Body).head?).map Prod.fst = some dut.cfg.appStart ∧
    (∀ y ∈ returnedFrom 0 (0, 0) w3Body, dut.cfg.blEnd < y.1) ∧
    Passes 0 (.data, protectedRec) ∧
    returnedFrom 0 (0, 0) (w3Body ++ [(.data, protectedRec)]) =
      returnedFrom 0 (0, 0) w3Body ++ [(0x3FFF, protectedRec.data)] ∧
    (0x3FFF : Word) ≤ dut.cfg.blEnd ∧ protectedRec.data ≠ [] := by
  refine ⟨⟨by decide, by unfold White; decide, by decide, ?_⟩, ⟨by decide, ?_⟩, w3_bodyPasses,
    by decide, by decide, by unfold Passes; decide, by decide, by decide, by decide⟩
  · rw [show (w3Source "\n:013fff0000c1\njunk").sourceFrom 0 =
      w3Text (asc "\n" ++ asc ":013fff0000c1\njunk") by decide]
    exact w3_holds (xs := []) (.none _)
  · rw [show (w3Source "\n").sourceFrom 0 = w3Text (asc "\n") by decide]
    exact w3_holds (xs := []) (.none _)

/-- ValidateChecksEveryDataRecord: each way the Record Reader rejects a record. -/
theorem witness_Rejects :
    Rejects 0 (asc "X") 0x01 ∧ Rejects 0 (asc ":04") 0x01 ∧ Rejects 1 (asc ":0g") 0x01 ∧
    Rejects 0 (asc ":013fff0000c2\n") 0x02 ∧ Rejects 0 (asc ":00000006FA") 0x03 ∧
    Rejects 1 (asc ":01000001aa54") 0x04 ∧ Rejects 0 (asc ":00000002FE") 0x04 ∧
    Rejects 0 (asc ":020000020FFFEE") 0x05 ∧ Rejects 0 (asc ":02000002F0010B") 0x05 :=
  ⟨.noColon (b := 0x58) (more := []) (by decide) (by unfold White; decide) (by decide),
    .badText (by decide), .badText (by decide),
    .badChecksum (tt := 0) (r := { protectedRec with cc := 0xC2 }) (by decide) (by decide),
    .unknownType (tt := 6) (r := { ah := 0, al := 0, data := [], cc := 0xFA }) (by decide)
      (by decide) (by decide),
    .badLength (t := .eof) (r := { ah := 0, al := 0, data := [0xAA], cc := 0x54 }) (by decide)
      (by decide) (by decide),
    .badLength (t := .esa) (r := { ah := 0, al := 0, data := [], cc := 0xFE }) (by decide)
      (by decide) (by decide),
    .badSegment (r := { ah := 0, al := 0, data := [0x0F, 0xFF], cc := 0xEE }) (d0 := 0x0F)
      (d1 := 0xFF) (by decide) (by decide) rfl rfl (by decide),
    .badSegment (r := { ah := 0, al := 0, data := [0xF0, 0x01], cc := 0x0B }) (d0 := 0xF0)
      (d1 := 0x01) (by decide) (by decide) rfl rfl (by decide)⟩

/-- ValidateChecksEveryDataRecord: a good beginning, and a wrong checksum behind it. -/
theorem witness_ValidateRejectsBehindAGoodBeginning :
    (w3Source "\n:013fff0000c2\n").configLegal = true ∧ White (asc "\n") ∧
    HoldsRecords ((w3Source "\n:013fff0000c2\n").sourceFrom 0) w3Body
      (asc "\n" ++ asc ":013fff0000c2\n") := by
  refine ⟨by decide, by unfold White; decide, ?_⟩
  rw [show (w3Source "\n:013fff0000c2\n").sourceFrom 0 =
    w3Text (asc "\n" ++ asc ":013fff0000c2\n") by decide]
  exact w3_holds (xs := []) (.none _)

theorem witness_ValidateIsIdempotent :
    let s := source w3
    let s' := { source w3 with rdr := { cursor := 84, linBase := 0x10000 }, status := { asmDone := true } }
    s'.params = s.params ∧ s'.cfg = s.cfg ∧ s'.src = s.src ∧ s.configLegal = true ∧
    (∃ t, exec .validate s = .next t) ∧ (∃ t', exec .validate s' = .next t') ∧
    ({ dut with cfg := { dut.cfg with srcLen := 4097 } } : State).configLegal = false :=
  ⟨rfl, rfl, rfl, by decide, ⟨_, rfl⟩, ⟨_, rfl⟩, by decide⟩

/-! #### The Block Assembler -/

theorem witness_StartAssemblyStartsARun :
    ({ dut with status := { validated := true } } : State).status.validated = true ∧
    dut.status.validated = false := by decide

theorem witness_NextBlockOutsideASequence :
    dut.status.asmActive = false ∧ dut.status.asmDone = false ∧
    ({ dut with status := { asmDone := true } } : State).status.asmDone = true ∧
    (let s := running { dut with status := { blkValid := true } } 4
     s.status.asmActive = false ∧ s.status.asmDone = false ∧ s.status.busy = true ∧
     s.status.txWait = false ∧ s.status.rxWait = false ∧ s.pendingCmd = 4 ∧ s.actions = []) := by
  decide

/-- A run with `p` bytes placed in the block at 0x4000 and a record of `n` bytes pending at `a`. -/
def pending (p : BitVec 6) (a : Word) (n : BitVec 7) : State :=
  { started w3 with
    asm := { cbs := 0x4000, p := p, pendValid := true, pendAddr := a, pendLen := n,
             buf := [(0, 0x11)], pendData := [(0, 0x22), (1, 0x33)] } }

theorem witness_NextBlockPadsAGap :
    let s := pending 1 0x4020 2
    s.arraysCanonical = true ∧ s.status.asmActive = true ∧ s.asm.pendValid = true ∧
    s.asm.p.toNat ≤ 32 ∧ s.asm.cbs.toNat + 32 ≤ s.asm.pendAddr.toNat := by decide

theorem witness_NextBlockFillsABlock :
    (let s := pending 1 0x401E 2
     s.arraysCanonical = true ∧ s.status.asmActive = true ∧ s.asm.pendValid = true ∧
     s.asm.pendAddr.toNat = s.asm.cbs.toNat + 30 ∧ s.asm.p.toNat ≤ 30 ∧
     30 + s.asm.pendLen.toNat - 32 = 0 ∧ 32 ≤ 30 + s.asm.pendLen.toNat) ∧
    (let s := pending 1 0x401F 2
     s.asm.pendAddr.toNat = s.asm.cbs.toNat + 31 ∧ s.asm.p.toNat ≤ 31 ∧
     0 < 31 + s.asm.pendLen.toNat - 32) := by decide

theorem witness_NextBlockPlacesAndGoesOn :
    let s := pending 1 0x401D 2
    s.arraysCanonical = true ∧ s.status.asmActive = true ∧ s.asm.pendValid = true ∧
    s.asm.pendAddr.toNat = s.asm.cbs.toNat + 29 ∧ s.asm.p.toNat ≤ 29 ∧
    29 + s.asm.pendLen.toNat < 32 := by decide

/-- What NEXT_BLOCK of a run on `text` fetches. -/
def fetched (text : String) : ReadResult :=
  (readNext { started text with status := { (started text).status with blkValid := false } }).ret

theorem witness_NextBlockFetchesARecord :
    (started w3).status.asmActive = true ∧ (started w3).asm.pendValid = false ∧
    fetched ":02000004FFFFFC\n:02FFFF00AABB9B\n" = .data 0xFFFFFFFF 16 [0xAA, 0xBB] 0x9B ∧
    4294967296 < (0xFFFFFFFF : Word).toNat + 2 ∧
    fetched ":013FFF0000C1\n" = .data 0x3FFF 0 [0x00] 0xC1 ∧
    (0x3FFF : Word).toNat < (started w3).asm.cbs.toNat + (started w3).asm.p.toNat ∧
    fetched ":0140000000BF\n" = .data 0x4000 0 [0x00] 0xBF ∧
    (started w3).asm.cbs.toNat + (started w3).asm.p.toNat ≤ (0x4000 : Word).toNat ∧
    fetched "X" = .raised ∧ fetched "" = .endOfStream := by decide

theorem witness_NextBlockEndsTheSequence :
    fetched ":00000001FF\n" = .eof 0 0 0x01 0xFF ∧ (started ":00000001FF\n").asm.pendValid = false ∧
    (started ":00000001FF\n").asm.p = 0 ∧
    ({ started ":00000001FF\n" with asm := { cbs := 0x4000, p := 24 } } : State).asm.p ≠ 0 := by decide

theorem witness_EmittedBlocksAreAlignedAndContiguous :
    (started w3).Inv ∧ (started w3).status.asmActive = true ∧
    ∃ t, exec .nextBlock (started w3) = .next t ∧ t.status.blkValid = true :=
  ⟨by unfold State.Inv; decide, by decide, ⟨_, rfl, by decide⟩⟩

/-! #### The Link Framer and the Reassembler -/

theorem witness_SegmentReportsByteByByte :
    ([] : List Byte).length ≤ 56 ∧ (List.replicate 56 (0xA5 : Byte)).length ≤ 56 := by decide

theorem witness_ReportsCarryThePacketOnce :
    (packet 56).cfg.pktLen.toNat ≤ 56 ∧ 56 < (packet 57).cfg.pktLen.toNat := by decide

theorem witness_FrameStartsWithReportZero :
    (packet 3).txIn = none ∧ markersDistinct (packet 3).cfg.markers = true ∧
    (packet 256).cfg.pktLen.toNat ≤ dut.params.maxPacketLen ∧
    dut.params.maxPacketLen < (packet 257).cfg.pktLen.toNat := by decide

/-- FRAME of a 130-byte packet, report `k` answered. -/
def answered (k : Word) (r : TxResponse) : State :=
  { running (packet 130) 5 with txIn := some r, frm := { segIndex := k, segTotal := 3 } }

theorem witness_FrameActsOnTheAnswer :
    (answered 0 .done).txIn = some .done ∧ (answered 0 .done).frm.segIndex.toNat + 2 < 3 ∧
    (answered 1 .done).frm.segIndex.toNat + 1 < (answered 1 .done).frm.segTotal.toNat ∧
    (answered 2 .done).frm.segTotal.toNat ≤ (answered 2 .done).frm.segIndex.toNat + 1 ∧
    (answered 1 .failed).txIn = some .failed ∧ (answered 1 .timeout).txIn = some .timeout ∧
    (answered 1 .garbled).txIn = some .garbled := by decide

theorem witness_UnframeWaitsAndTimesOut :
    (running dut 6).rxIn = none ∧ (delivered {} .timeout).rxIn = some .timeout := by decide

theorem witness_ContinuationAppendsItsWindow :
    let s := { running dut 6 with rx := { len := 60, count := 56, unfIndex := 1 } }
    s.arraysCanonical = true ∧ (List.replicate 56 (0xA5 : Byte)).length = 56 ∧
    s.rx.count.toNat ≤ s.rx.len.toNat ∧ (0xFF : Byte) ≠ 0 := by decide

theorem witness_FirstReportDeclaresTheLength :
    (let s := delivered {} (.report (firstReport 0 [] 0))
     s.rxIn = some (.report (firstReport 0 [] 0)) ∧ s.rx.unfIndex = 0) ∧
    (firstReport 0 [] 0).length = 65 ∧ (firstReport 0 [] 0).getD 62 0 = 0 ∧
    (firstReport 0 [] 1).getD 62 0 ≠ 0 ∧
    (let r : List Byte := [0x00, 0x99, 0x00, 0x00, 0x01, 0x00] ++ List.replicate 59 0
     r.length = 65 ∧
     (((r.getD 2 0).toNat * 256 + (r.getD 3 0).toNat) * 256 + (r.getD 4 0).toNat) * 256 +
       (r.getD 5 0).toNat ≤ dut.params.maxRxLen) ∧
    (let r : List Byte := [0x00, 0x99, 0x00, 0x00, 0x01, 0x01] ++ List.replicate 59 0
     r.length = 65 ∧
     dut.params.maxRxLen <
       (((r.getD 2 0).toNat * 256 + (r.getD 3 0).toNat) * 256 + (r.getD 4 0).toNat) * 256 +
         (r.getD 5 0).toNat) := by decide

theorem witness_LaterReportsMustBeContinuations :
    (let s := delivered { len := 60, count := 56, unfIndex := 1 } (.report (nextReport 0x15 [] 0))
     s.rxIn = some (.report (nextReport 0x15 [] 0)) ∧ s.rx.unfIndex ≠ 0) ∧
    (nextReport 0x15 [] 0).length = 65 ∧ (nextReport 0x15 [] 1).getD 58 0 ≠ 0 ∧
    (nextReport 0x15 [] 0).getD 58 0 = 0 ∧ (nextReport 0x15 [] 0).getD 1 0 = dut.cfg.opContinue ∧
    (nextReport 0x14 [] 0).getD 1 0 ≠ dut.cfg.opContinue := by decide

/-! #### The whole machine -/

/-- A state in the middle of a run, with a command accepted. -/
theorem witness_EveryStepKeepsTheInvariant :
    State.Inv { started w3 with
      pendingCmd := 4, status := { busy := true, asmActive := true, lastCmd := 4 } } := by
  unfold State.Inv; decide

theorem witness_EveryStepKeepsArraysCanonical :
    (running (source w3) 2).arraysCanonical = true ∧ ∃ t, step (running (source w3) 2) = .next t :=
  ⟨by decide, ⟨_, rfl⟩⟩

theorem witness_FlagsAreSetOnlyByTheirCommands :
    ((running (source w3) 2).status.validated = false ∧
      ∃ t, step (running (source w3) 2) = .next t ∧ t.status.validated = true) ∧
    (let s := { running (source w3) 3 with status := { busy := true, validated := true } }
     s.status.asmActive = false ∧ ∃ t, step s = .next t ∧ t.status.asmActive = true) ∧
    ((answered 2 .done).status.xferDone = false ∧
      ∃ t, step (answered 2 .done) = .next t ∧ t.status.xferDone = true) ∧
    (dut.status.busy = false ∧
      ∃ t, step (facing dut (.write Slot.CMD 1)) = .next t ∧ t.status.busy = true) :=
  ⟨⟨by decide, ⟨_, rfl, by decide⟩⟩, ⟨by decide, ⟨_, rfl, by decide⟩⟩,
    ⟨by decide, ⟨_, rfl, by decide⟩⟩, ⟨by decide, ⟨_, rfl, by decide⟩⟩⟩

theorem witness_CommandsRunAgainstFixedInputs :
    (running (source w3) 2).status.busy = true ∧ (running (source w3) 2).actions = [] ∧
    ∃ t, step (running (source w3) 2) = .next t :=
  ⟨by decide, by decide, ⟨_, rfl⟩⟩

end Sys2Proof.Machine.Test
end

/-! The checksum of a record as numbers (R84). Both number statements rest on `Rec.sum_toNat`, the byte
sum as a number; the rest is that the expected checksum is the negated byte sum. -/

namespace Sys2Proof

/-- A record's checksum is good iff its bytes, CC among them, sum to 0 mod 256 (R84). -/
theorem Machine.checksumGood_iff_byteSum_mod (tt : Byte) (r : Rec) :
    Machine.checksumGood tt r = true ↔
      (r.data.length + r.ah.toNat + r.al.toNat + tt.toNat + (r.data.map BitVec.toNat).sum +
        r.cc.toNat) % 256 = 0 := by
  rw [Machine.checksumGood, beq_iff_eq, BitVec.toNat_eq, BitVec.toNat_add, Rec.sum_toNat,
    Nat.mod_add_mod]
  rfl

/-- The expected checksum is the negated byte sum. -/
theorem Rec.expected_eq_neg (tt : Byte) (r : Rec) : r.expected tt = -r.sum tt :=
  BitVec.zero_sub _

/-- The expected checksum as a number: `(256 - S mod 256) mod 256` (R84). -/
theorem Rec.expected_toNat (tt : Byte) (r : Rec) :
    (r.expected tt).toNat =
      (256 - (r.data.length + r.ah.toNat + r.al.toNat + tt.toNat +
        (r.data.map BitVec.toNat).sum) % 256) % 256 := by
  rw [Rec.expected_eq_neg, BitVec.toNat_neg, Rec.sum_toNat]

/-- CC is no part of the byte sum, so the sum and the expected CC cancel, whatever CC was read. -/
theorem Machine.checksumGood_expected (tt : Byte) (r : Rec) :
    Machine.checksumGood tt { r with cc := r.expected tt } = true := by
  have cancel : r.sum tt + r.expected tt = 0 := by
    rw [Rec.expected_eq_neg]
    exact BitVec.add_right_neg _
  exact beq_iff_eq.mpr cancel

/-- Settles O4: the check, the expected checksum and its passing, each by its own lemma. No clause
needs LL to fit a byte, since the sum counts LL mod 256. -/
theorem checksumIsTheByteSumMod256 : Obligations.ChecksumIsTheByteSumMod256 := by
  unfold Obligations.ChecksumIsTheByteSumMod256
  intro tt r _
  exact ⟨Machine.checksumGood_iff_byteSum_mod tt r, r.expected_toNat tt,
    Machine.checksumGood_expected tt r⟩

end Sys2Proof

/-! The line an accepted record ends (R125, R129). What a tail is stands in `tailLength_spec`, about the
list of bytes behind the record; here that list is read as bytes of SRC, and CURSOR and LINES as numbers. -/

namespace Sys2Proof.Machine

/-- LINES counts up to its greatest value and stays there (R129). -/
theorem saturatingNext_toNat (x : Word) :
    (saturatingNext x).toNat = min (x.toNat + 1) 0xFFFFFFFF := by
  unfold saturatingNext
  split
  · next top =>
    subst top
    decide
  · next below => bv_omega

/-- The source text from `start` holds the bytes of SRC from there on. -/
theorem State.sourceFrom_getD (s : State) {start j : Nat} (h : start + j < s.cfg.srcLen.toNat) :
    (s.sourceFrom start).getD j 0#8 = s.byteAt .src (start + j) := by
  rw [State.sourceFrom, Mem.slice_getD, if_pos (by omega)]
  rfl

/-- The tail from `start` on, in positions of SRC: no LF before its last byte, and it ends at SRC_LEN or
behind an LF (R125). -/
theorem State.tail_endsLine (s : State) {start stop : Nat} (hstart : start ≤ s.cfg.srcLen.toNat)
    (hstop : stop = start + tailLength (s.sourceFrom start)) :
    (∀ i, start ≤ i → i + 1 < stop → s.byteAt .src i ≠ 0x0A) ∧
      (stop = s.cfg.srcLen.toNat ∨ (start < stop ∧ s.byteAt .src (stop - 1) = 0x0A)) := by
  obtain ⟨noLF, ending⟩ := tailLength_spec (s.sourceFrom start)
  have hle := tailLength_le (s.sourceFrom start)
  rw [State.sourceFrom_length] at hle ending
  constructor
  · intro i hi hlast
    have hne := noLF (i - start) (by omega)
    rwa [s.sourceFrom_getD (by omega), Nat.add_sub_cancel' hi] at hne
  · obtain hall | ⟨hpos, hLF⟩ := ending
    · left
      omega
    · right
      refine ⟨by omega, ?_⟩
      rwa [s.sourceFrom_getD (by omega), ← Nat.add_sub_assoc hpos, ← hstop] at hLF

/-- CURSOR after a record at CURSOR is accepted, as a number: behind its characters and its tail. No sum
wraps, since the record lies inside the source. -/
theorem acceptRecord_cursor_toNat (r : Rec) (s : State)
    (h : s.rdr.cursor.toNat + recordChars r ≤ s.cfg.srcLen.toNat) :
    (acceptRecord r s).rdr.cursor.toNat = s.rdr.cursor.toNat + recordChars r +
      tailLength (s.sourceFrom (s.rdr.cursor.toNat + recordChars r)) := by
  have hle := tailLength_le (s.sourceFrom (s.rdr.cursor.toNat + recordChars r))
  rw [State.sourceFrom_length] at hle
  exact Nat.mod_eq_of_lt (by omega)

end Sys2Proof.Machine

namespace Sys2Proof

open Machine

/-- Settles O20: the new CURSOR and LINES are those of `acceptRecord`; CURSOR is the end of the tail
behind the record's characters, and a tail ends its line. -/
theorem acceptingARecordEndsItsLine : Obligations.AcceptingARecordEndsItsLine := by
  unfold Obligations.AcceptingARecordEndsItsLine
  intro r s inside
  obtain ⟨hpast, hlen⟩ := acceptRecord_cursor r s inside
  obtain ⟨noLF, ending⟩ := s.tail_endsLine inside (acceptRecord_cursor_toNat r s inside)
  exact ⟨(acceptRecord r s).rdr.cursor, (acceptRecord r s).rdr.lines, rfl,
    saturatingNext_toNat s.rdr.lines, hpast, hlen, noLF, ending⟩

end Sys2Proof

/-! VALIDATE against an illegal configuration (R263), and its two ways to end (R161). -/

namespace Sys2Proof.Machine

theorem ErrKind.code_ne_zero (k : ErrKind) : k.code ≠ 0 := by
  cases k <;> decide

theorem markersDistinct_eq_false_iff (m : Markers) :
    markersDistinct m = false ↔
      m.single = m.first ∨ m.single = m.middle ∨ m.single = m.last ∨ m.first = m.middle ∨
        m.first = m.last ∨ m.middle = m.last := by
  simp [markersDistinct, imp_iff_not_or, or_assoc]

/-- The legal configurations of R27 and R263. -/
theorem State.configLegal_iff (s : State) :
    s.configLegal = true ↔
      s.cfg.srcLen.toNat ≤ s.params.srcCap ∧ s.cfg.appStart.toNat % 32 = 0 ∧
        s.cfg.blEnd.toNat < s.cfg.appStart.toNat := by
  simp only [State.configLegal, State.srcLenLegal, ConfigRegs.addressesLegal, Bool.and_eq_true,
    decide_eq_true_eq]
  rfl

theorem State.configLegal_eq_false_iff (s : State) :
    s.configLegal = false ↔
      s.params.srcCap < s.cfg.srcLen.toNat ∨ s.cfg.appStart.toNat % 32 ≠ 0 ∨
        s.cfg.appStart.toNat ≤ s.cfg.blEnd.toNat := by
  rw [← Bool.not_eq_true, s.configLegal_iff]
  omega

/-- R263, VALIDATE: an illegal configuration raises ConfigError, nothing read. -/
theorem validate_illegal {s : State} (h : s.configLegal = false) :
    validate s = s.invalidate.raise .configError {} := if_pos h

/-- R263, READ_RECORD: its source length is illegal. The error entry clears ASM_ACTIVE and ASM_DONE as
the command's start has. -/
theorem readRecord_illegal {s : State} (h : s.srcLenLegal = false) :
    readRecord s =
      State.raise .configError {} { s with status := { s.status with recKind := 0 } } := if_pos h

/-- R263, FRAME: two of its markers are equal. -/
theorem frame_illegal {s : State} (start : s.txIn = none) (h : markersDistinct s.cfg.markers = false) :
    frame s = State.raise .configError {} { s with status := { s.status with xferDone := false } } := by
  have starts : frame s = frameStart s := by simp only [frame, start]
  exact starts.trans (if_pos h)

/-- After the error entry VALIDATED is what it was, and ERR_CODE is that of a kind. -/
theorem Raised.verdict {s t : State} (h : Raised s t) :
    t.status.validated = s.status.validated ∧ t.status.err = true ∧ t.err.code ≠ 0 ∧
      t.valOut = s.valOut := by
  obtain ⟨⟨k, info, ht⟩, -⟩ := h
  rw [ht]
  exact ⟨rfl, rfl, k.code_ne_zero, rfl⟩

end Sys2Proof.Machine

namespace Sys2Proof

open Machine

/-- Settles O31: each command's illegal configuration, as its check writes it, takes the branch that
raises. -/
theorem illegalConfigurationsRaiseConfigError : Obligations.IllegalConfigurationsRaiseConfigError := by
  unfold Obligations.IllegalConfigurationsRaiseConfigError
  intro s
  refine ⟨fun h => ?_, fun h => ?_, fun start h => ?_⟩
  · exact congrArg _ (readRecord_illegal (decide_eq_false (Nat.not_le.mpr h)))
  · exact congrArg _ (validate_illegal (s.configLegal_eq_false_iff.mpr h))
  · exact congrArg _ (frame_illegal start ((markersDistinct_eq_false_iff _).mpr h))

/-- Settles O36: with a legal configuration the loop ends in one of its two ways, and with an illegal one
the command raises at once. -/
theorem validateSucceedsOrRaises : Obligations.ValidateSucceedsOrRaises := by
  unfold Obligations.ValidateSucceedsOrRaises
  intro s t run
  cases run
  cases legal : s.configLegal
  case false =>
    have raised : Raised s.invalidate (validate s) := by
      rw [validate_illegal legal]
      exact (Moved.refl _).raise _ _
    exact .inr raised.verdict
  case true =>
    obtain raised | ⟨rdr, out, lines, succeeded⟩ := validate_ends legal
    · exact .inr raised.verdict
    · left
      rw [succeeded]
      exact ⟨rfl, rfl, lines, rfl, rfl⟩

end Sys2Proof

/-! VALIDATE's loop pass by pass (R161): what each thing `read_next` returns makes of the command. The
bound on the passes, which is the model's (log 22), is left behind here. -/

namespace Sys2Proof.Machine

@[simp] theorem readNext_cfg (s : State) : (readNext s).cfg = s.cfg := by
  rw [(readNext_outcome s).frame]

@[simp] theorem readNext_src (s : State) : (readNext s).src = s.src := by
  rw [(readNext_outcome s).frame]

@[simp] theorem readNext_validated (s : State) :
    (readNext s).status.validated = s.status.validated := by
  rw [(readNext_outcome s).frame]

/-- VALIDATE's loop with as many passes as the source bytes that remain can need. -/
def validateFrom (w : ValidatorWork) (s : State) : State := validateLoop (s.sourceLeft + 1) w s

/-- The bound on VALIDATE's passes suffices: SRC_LEN is what remains of the source at its start. -/
theorem validate_legal {s : State} (h : s.configLegal = true) :
    validate s = validateFrom {} s.invalidate.resetReader := by
  have legal : ¬ s.invalidate.configLegal = false := by
    rw [show s.invalidate.configLegal = s.configLegal from rfl, h]
    exact Bool.noConfusion
  exact if_neg legal

/-- The working values a data record at `addr` with `n` data bytes leaves (R161). -/
def ValidatorWork.ofRecord (addr : Word) (n : Nat) : ValidatorWork :=
  { first := false, seen := true, lastA := addr, lastN := BitVec.ofNat 8 n }

section

variable {w : ValidatorWork} {s : State} {a st : Word}

theorem validateFrom_raised (h : (readNext s).ret = .raised) :
    validateFrom w s = (readNext s).taken := by
  rw [validateFrom, validateLoop_succ, h]

theorem validateFrom_endOfStream (h : (readNext s).ret = .endOfStream) :
    validateFrom w s = (readNext s).taken.raise .noEndOfFile
      { line := (readNext s).rdr.lines, offset := s.cfg.srcLen } := by
  rw [validateFrom, validateLoop_succ, h, ← readNext_cfg s]
  rfl

theorem validateFrom_eof {ty c : Byte} (h : (readNext s).ret = .eof a st ty c) :
    validateFrom w s =
      if startAddressWrong w a (readNext s) then
        (readNext s).taken.raise .invalidStartAddress (returnedInfo (readNext s) a st)
      else validateSuccess w (readNext s).taken := by
  rw [validateFrom, validateLoop_succ, h]

theorem validateFrom_data {d : List Byte} {c : Byte} (h : (readNext s).ret = .data a st d c) :
    validateFrom w s =
      if startAddressWrong w a (readNext s) then
        (readNext s).taken.raise .invalidStartAddress (returnedInfo (readNext s) a st)
      else if a ≤ s.cfg.blEnd then
        (readNext s).taken.raise .protectedAddressViolation (returnedInfo (readNext s) a st)
      else validateFrom (.ofRecord a d.length) (readNext s).taken := by
  have left : (readNext s).taken.sourceLeft + 11 ≤ s.sourceLeft :=
    readNext_sourceLeft s (by rw [h]; exact ReadResult.noConfusion)
      (by rw [h]; exact ReadResult.noConfusion)
  have enough := validateLoop_enough (w := .ofRecord a d.length) (s := (readNext s).taken)
    (show _ < s.sourceLeft by omega) (Nat.lt_succ_self _)
  rw [validateFrom, validateLoop_succ, h, validateFrom, ← enough, readNext_cfg]
  rfl

/-- At the first record returned the address is checked, and later no more (R162). -/
theorem startAddressWrong_eq_true_iff (w : ValidatorWork) (a : Word) (s : State) :
    startAddressWrong w a s = true ↔ w.first = true ∧ a ≠ s.cfg.appStart := by
  simp [startAddressWrong]

end

end Sys2Proof.Machine

namespace Sys2Proof

open Machine

/-- Settles O37: the first pass of the loop, on each thing `read_next` can return from the start of the
source. -/
theorem validateChecksTheFirstRecord : Obligations.ValidateChecksTheFirstRecord := by
  unfold Obligations.ValidateChecksTheFirstRecord
  intro s legal u
  have run : exec .validate s = .next (validateFrom {} s.invalidate.resetReader) :=
    congrArg _ (validate_legal legal)
  have wrong : ∀ {a : Word}, a ≠ s.cfg.appStart →
      startAddressWrong {} a (readNext s.invalidate.resetReader) = true := fun ha =>
    (startAddressWrong_eq_true_iff _ _ _).mpr ⟨rfl, by rw [readNext_cfg]; exact ha⟩
  rw [run]
  refine ⟨fun a st d c h ha => ?_, fun a st ty c h ha => ?_, fun h => ?_, fun h => ?_⟩
  · exact congrArg _ ((validateFrom_data h).trans (if_pos (wrong ha)))
  · exact congrArg _ ((validateFrom_eof h).trans (if_pos (wrong ha)))
  · exact congrArg _ (validateFrom_endOfStream h)
  · exact congrArg _ (validateFrom_raised h)

end Sys2Proof

/-! Two runs of VALIDATE on one source and configuration (R168). -/

namespace Sys2Proof.Machine

/-- Two runs of VALIDATE agree: on the reader state, on VALIDATED, and on the results or the error. -/
structure SameVerdict (t t' : State) : Prop where
  rdr : t'.rdr = t.rdr
  validated : t'.status.validated = t.status.validated
  results : t.status.validated = true → t'.valOut = t.valOut
  error : t.status.validated = false → t'.err = t.err

/-- One error raised in two runs that have read alike. -/
theorem SameVerdict.raise {u u' : State} (hrdr : u'.rdr = u.rdr) (hu : u.status.validated = false)
    (hu' : u'.status.validated = false) (k : ErrKind) (info : ErrInfo) :
    SameVerdict (u.raise k info) (u'.raise k info) where
  rdr := hrdr
  validated := hu'.trans hu.symm
  results h := absurd (hu.symm.trans h) Bool.noConfusion
  error _ := rfl

/-- VALIDATE's loop depends on the configuration, the source and the reader state only, since
`read_next` does. -/
theorem validateLoop_same {fuel : Nat} {w : ValidatorWork} {s s' : State} (hcfg : s'.cfg = s.cfg)
    (hrdr : s'.rdr = s.rdr) (hsrc : s'.src = s.src) (hv : s.status.validated = false)
    (hv' : s'.status.validated = false) (hf : s.sourceLeft < fuel) :
    SameVerdict (validateLoop fuel w s) (validateLoop fuel w s') := by
  induction fuel generalizing w s s' with
  | zero => omega
  | succ fuel ih =>
    have same : SameAnswer (readNext s) (readNext s') :=
      readNext_same hcfg hrdr fun _ _ => by rw [hsrc]
    have cfgs : (readNext s').cfg = (readNext s).cfg := by rw [readNext_cfg, readNext_cfg, hcfg]
    have hu := (readNext_validated s).trans hv
    have hu' := (readNext_validated s').trans hv'
    have raises := SameVerdict.raise (u := (readNext s).taken) (u' := (readNext s').taken)
      same.rdr hu hu'
    have info : returnedInfo (readNext s') = returnedInfo (readNext s) := by
      funext a st
      rw [returnedInfo, returnedInfo, same.rdr]
    have start : ∀ a, startAddressWrong w a (readNext s') = startAddressWrong w a (readNext s) := by
      intro a
      rw [startAddressWrong, startAddressWrong, cfgs]
    rw [validateLoop_succ, validateLoop_succ, same.ret]
    cases hr : (readNext s).ret with
    | idle => exact absurd hr (readNext_returns s)
    | raised =>
      exact ⟨same.rdr, hu'.trans hu.symm, fun h => absurd (hu.symm.trans h) Bool.noConfusion,
        fun _ => same.err hr⟩
    | endOfStream =>
      dsimp only
      rw [noEndOfFile, noEndOfFile, State.taken_rdr, State.taken_rdr, State.taken_cfg,
        State.taken_cfg, same.rdr, cfgs]
      exact raises _ _
    | eof a st ty c =>
      dsimp only
      rw [start, info]
      split
      · exact raises _ _
      · exact ⟨same.rdr, rfl, fun _ => by simp [validateSuccess, same.rdr, hcfg], Bool.noConfusion⟩
    | data a st d c =>
      have left : (readNext s).taken.sourceLeft + 11 ≤ s.sourceLeft :=
        readNext_sourceLeft s (by rw [hr]; exact ReadResult.noConfusion)
          (by rw [hr]; exact ReadResult.noConfusion)
      dsimp only
      rw [start, info, cfgs]
      split
      · exact raises _ _
      · split
        · exact raises _ _
        · refine ih cfgs same.rdr ?_ hu hu' (by omega)
          rw [State.taken_src, State.taken_src, readNext_src, readNext_src, hsrc]

end Sys2Proof.Machine

namespace Sys2Proof

open Machine

/-- Settles O39: with a legal configuration both runs start from the same reader state and read the same
source; with an illegal one both raise ConfigError, having read nothing. -/
theorem validateIsIdempotent : Obligations.ValidateIsIdempotent := by
  unfold Obligations.ValidateIsIdempotent
  intro s s' t t' hparams hcfg hsrc run run'
  cases run
  cases run'
  have legality : s'.configLegal = s.configLegal := by
    simp only [State.configLegal, State.srcLenLegal, hparams, hcfg]
  cases legal : s.configLegal
  case false =>
    rw [validate_illegal legal, validate_illegal (legality.trans legal)]
    exact ⟨Bool.noConfusion, fun _ => ⟨rfl, rfl⟩, rfl, Bool.noConfusion, fun _ => rfl⟩
  case true =>
    have verdict : SameVerdict (validate s) (validate s') := by
      rw [validate_legal legal, validate_legal (legality.trans legal), validateFrom, validateFrom,
        show s'.invalidate.resetReader.sourceLeft = s.invalidate.resetReader.sourceLeft from
          congrArg (fun c : ConfigRegs => c.srcLen.toNat - 0) hcfg]
      exact validateLoop_same hcfg rfl hsrc rfl rfl (Nat.lt_succ_self _)
    exact ⟨fun _ => verdict.rdr, Bool.noConfusion, verdict.validated, verdict.results, verdict.error⟩

end Sys2Proof

/-! The text of a source that holds one record a line (R121, R125), and the records `read_next` returns
from it. -/

namespace Sys2Proof.Machine

theorem White.isSpace {ws : List Byte} (h : White ws) : ∀ b ∈ ws, isSpace b = true :=
  fun b hb => (isSpace_iff b).mpr (h b hb)

/-! ### Lines -/

theorem tailLength_of_no_lineFeed {tail : List Byte} (h : 0x0A ∉ tail) :
    tailLength tail = tail.length := by
  induction tail with
  | nil => rfl
  | cons b tail ih =>
    have hb := List.ne_of_not_mem_cons h
    have htail := List.not_mem_of_not_mem_cons h
    rw [tailLength, if_neg (Ne.symm hb), ih htail, List.length_cons]

theorem tailLength_append_lineFeed {tail : List Byte} (h : 0x0A ∉ tail) (more : List Byte) :
    tailLength (tail ++ 0x0A :: more) = tail.length + 1 := by
  induction tail with
  | nil => rfl
  | cons b tail ih =>
    have hb := List.ne_of_not_mem_cons h
    have htail := List.not_mem_of_not_mem_cons h
    rw [List.cons_append, tailLength, if_neg (Ne.symm hb), ih htail, List.length_cons]

/-- What stands behind the line of the record `r` at the head of `text`: behind its characters and its
tail (R125). -/
def afterLine (r : Rec) (text : List Byte) : List Byte :=
  text.drop (recordChars r + tailLength (text.drop (recordChars r)))

theorem HoldsRecord.recordChars_le {line : List Byte} {x : RecordType × Rec}
    (h : HoldsRecord line x) : recordChars x.2 ≤ line.length :=
  (decodeFields_length h.1).2

theorem HoldsRecord.no_lineFeed_behind {line : List Byte} {x : RecordType × Rec}
    (h : HoldsRecord line x) : 0x0A ∉ line.drop (recordChars x.2) :=
  fun hmem => h.2 (List.mem_of_mem_drop hmem)

theorem HoldsRecord.afterLine_lineFeed {line : List Byte} {x : RecordType × Rec}
    (h : HoldsRecord line x) (more : List Byte) : afterLine x.2 (line ++ 0x0A :: more) = more := by
  have hle := h.recordChars_le
  rw [afterLine, List.drop_append_of_le_length hle, tailLength_append_lineFeed h.no_lineFeed_behind,
    List.length_drop,
    show recordChars x.2 + (line.length - recordChars x.2 + 1) = line.length + 1 by omega]
  simp

theorem HoldsRecord.afterLine_end {line : List Byte} {x : RecordType × Rec} (h : HoldsRecord line x) :
    afterLine x.2 line = [] := by
  have hle := h.recordChars_le
  rw [afterLine, tailLength_of_no_lineFeed h.no_lineFeed_behind, List.length_drop,
    Nat.add_sub_cancel' hle, List.drop_length]

/-- The first of the records stands behind whitespace, and the others behind its line, whichever way it
ends. -/
theorem HoldsRecords.cons_inv {text rest : List Byte} {x : RecordType × Rec}
    {xs : List (RecordType × Rec)} (h : HoldsRecords text (x :: xs) rest) :
    ∃ ws here, White ws ∧ text = ws ++ here ∧ decodeFields here = .ok (x.1.code, x.2) ∧
      HoldsRecords (afterLine x.2 here) xs rest := by
  cases h with
  | @line ws line more _ _ _ hws hline hmore =>
    refine ⟨ws, line ++ 0x0A :: more, hws, List.append_assoc .., decodeFields_append hline.1 _, ?_⟩
    rw [hline.afterLine_lineFeed]
    exact hmore
  | @last ws line _ hws hline =>
    refine ⟨ws, line, hws, rfl, hline.1, ?_⟩
    rw [hline.afterLine_end]
    exact .none []

theorem HoldsRecords.nil_inv {text rest : List Byte} (h : HoldsRecords text [] rest) : text = rest := by
  cases h
  rfl

theorem HoldsRecords.append_inv {text rest : List Byte} {xs ys : List (RecordType × Rec)}
    (h : HoldsRecords text (xs ++ ys) rest) :
    ∃ mid, HoldsRecords text xs mid ∧ HoldsRecords mid ys rest := by
  induction xs generalizing text with
  | nil => exact ⟨text, .none text, h⟩
  | cons x xs ih =>
    rw [List.cons_append] at h
    generalize hall : xs ++ ys = all at h
    cases h with
    | line hws hline hmore =>
      rw [← hall] at hmore
      obtain ⟨mid, hxs, hys⟩ := ih hmore
      exact ⟨mid, .line hws hline hxs, hys⟩
    | last hws hline =>
      obtain ⟨rfl, rfl⟩ := List.append_eq_nil_iff.mp hall
      exact ⟨[], .last hws hline, .none []⟩

/-! ### The records returned -/

section

variable (mode : BitVec 1) (b : Word × Word)

theorem returnedFrom_cons_returned {x : RecordType × Rec} (h : x.1 = .data ∨ x.1 = .eof)
    (xs : List (RecordType × Rec)) :
    returnedFrom mode b (x :: xs) = (b.1 + b.2 + lineAddress x.2, x.2.data) :: returnedFrom mode b xs :=
  if_pos h

theorem returnedFrom_cons_control {x : RecordType × Rec} (h : ¬ (x.1 = .data ∨ x.1 = .eof))
    (xs : List (RecordType × Rec)) :
    returnedFrom mode b (x :: xs) = returnedFrom mode (basesAfter mode b x) xs :=
  if_neg h

theorem basesAfter_of_returned {x : RecordType × Rec} (h : x.1 = .data ∨ x.1 = .eof) :
    basesAfter mode b x = b := by
  obtain h | h := h <;> rw [basesAfter, h]

theorem returnedFrom_append (xs ys : List (RecordType × Rec)) :
    returnedFrom mode b (xs ++ ys) =
      returnedFrom mode b xs ++ returnedFrom mode (xs.foldl (basesAfter mode) b) ys := by
  induction xs generalizing b with
  | nil => rfl
  | cons x xs ih =>
    rw [List.cons_append, List.foldl_cons]
    by_cases h : x.1 = .data ∨ x.1 = .eof
    · rw [returnedFrom_cons_returned _ _ h, returnedFrom_cons_returned _ _ h,
        basesAfter_of_returned _ _ h, ih, List.cons_append]
    · rw [returnedFrom_cons_control _ _ h, returnedFrom_cons_control _ _ h, ih]

theorem returnedFrom_singleton {x : RecordType × Rec} (h : x.1 = .data ∨ x.1 = .eof) :
    returnedFrom mode b [x] = [(b.1 + b.2 + lineAddress x.2, x.2.data)] :=
  returnedFrom_cons_returned mode b h []

theorem exists_record_of_mem_returnedFrom {xs : List (RecordType × Rec)} {y : Word × List Byte}
    (h : y ∈ returnedFrom mode b xs) : ∃ x ∈ xs, y.2 = x.2.data := by
  induction xs generalizing b with
  | nil => cases h
  | cons x xs ih =>
    by_cases hx : x.1 = .data ∨ x.1 = .eof
    · rw [returnedFrom_cons_returned _ _ hx] at h
      obtain rfl | h := List.mem_cons.mp h
      · exact ⟨x, List.mem_cons_self, rfl⟩
      · obtain ⟨x', hmem, hy⟩ := ih b h
        exact ⟨x', List.mem_cons_of_mem _ hmem, hy⟩
    · rw [returnedFrom_cons_control _ _ hx] at h
      obtain ⟨x', hmem, hy⟩ := ih _ h
      exact ⟨x', List.mem_cons_of_mem _ hmem, hy⟩

end

/-- What `read_next` returns of the record `x` at offset `start`, resolved to `addr` (R120); a control
record leaves it idle. -/
def returnOf (x : RecordType × Rec) (addr start : Word) : ReadResult :=
  match x.1 with
  | .data =>
    if x.2.data.length = 0 then .eof addr start 0x00 x.2.cc else .data addr start x.2.data x.2.cc
  | .eof => .eof addr start 0x01 x.2.cc
  | .esa => .idle
  | .ssa => .idle
  | .ela => .idle
  | .sla => .idle

theorem returnOf_data {x : RecordType × Rec} (ht : x.1 = .data) (hd : x.2.data ≠ [])
    (addr start : Word) : returnOf x addr start = .data addr start x.2.data x.2.cc := by
  rw [returnOf, ht]
  exact if_neg (mt List.length_eq_zero_iff.mp hd)

theorem returnOf_ne_idle {x : RecordType × Rec} (h : x.1 = .data ∨ x.1 = .eof) (addr start : Word) :
    returnOf x addr start ≠ .idle := by
  obtain ht | ht := h <;> rw [returnOf, ht]
  · dsimp only
    split <;> exact ReadResult.noConfusion
  · exact ReadResult.noConfusion

theorem returnOf_control {x : RecordType × Rec} (h : ¬ (x.1 = .data ∨ x.1 = .eof))
    (addr start : Word) : returnOf x addr start = .idle := by
  obtain ⟨t, r⟩ := x
  cases t
  case data => exact absurd (.inl rfl) h
  case eof => exact absurd (.inr rfl) h
  all_goals rfl

theorem returnOf_marker {x : RecordType × Rec} (h : IsMarker x) (addr start : Word) :
    ∃ ty, returnOf x addr start = .eof addr start ty x.2.cc := by
  obtain ⟨hd, ht | ht⟩ := h
  · refine ⟨0x00, ?_⟩
    rw [returnOf, ht, hd]
    rfl
  · refine ⟨0x01, ?_⟩
    rw [returnOf, ht]

/-- A record an image may hold before its marker is a data record with data, or a control record: an
EOF record that passes has none (R83). -/
theorem Passes.data_or_control {mode : BitVec 1} {x : RecordType × Rec} (h : Passes mode x)
    (hm : ¬ IsMarker x) : (x.1 = .data ∧ x.2.data ≠ []) ∨ ¬ (x.1 = .data ∨ x.1 = .eof) := by
  obtain ⟨-, -, hlen, -⟩ := h
  by_cases hd : x.1 = .data
  · exact .inl ⟨hd, fun hnil => hm ⟨hnil, .inl hd⟩⟩
  · refine .inr fun hret => hm ?_
    have he := hret.resolve_left hd
    rw [he] at hlen
    exact ⟨List.length_eq_zero_iff.mp (of_decide_eq_true hlen), .inr he⟩

end Sys2Proof.Machine

/-! What one pass of `read_next` makes of the text at CURSOR: a record that passes is accepted and
counted; at the end of the source, and where the text is rejected, the reading ends. -/

namespace Sys2Proof.Machine

/-- The text of the source further on. -/
theorem State.sourceFrom_add (s : State) {i k : Nat} (h : i + k ≤ s.cfg.srcLen.toNat) :
    s.sourceFrom (i + k) = (s.sourceFrom i).drop k := by
  rw [State.sourceFrom, State.sourceFrom, Mem.slice_drop _ _ _ _ (by omega), Nat.sub_sub]

/-- With only whitespace left the scan reaches SRC_LEN (R121). -/
theorem State.scan_white {s : State} {ws : List Byte} (hws : White ws)
    (hin : s.rdr.cursor.toNat ≤ s.cfg.srcLen.toNat)
    (hs : s.sourceFrom s.rdr.cursor.toNat = ws) :
    s.scan = .endOfStream (s.rdr.cursor.toNat + ws.length) := by
  have all : spaces ws = ws.length := by
    have h := spaces_append ws [] hws.isSpace (fun _ h => by cases h)
    rwa [List.append_nil] at h
  unfold State.scan
  rw [if_neg (by omega), hs]
  simp only [all, List.drop_length]

/-! ### A record that passes -/

/-- The bases (SEG_BASE, LIN_BASE). -/
def State.bases (s : State) : Word × Word := (s.rdr.segBase, s.rdr.linBase)

/-- A record every check passes is accepted, moves the bases and is returned or not (R132 to R138). -/
theorem recordEffect_passes {t : RecordType} {r : Rec} {s : State} (hidle : s.ret = .idle)
    (h : Passes s.cfg.addrMode (t, r)) :
    recordEffect t r s =
      { acceptRecord r s with
        rdr := { (acceptRecord r s).rdr with
          segBase := (basesAfter s.cfg.addrMode s.bases (t, r)).1
          linBase := (basesAfter s.cfg.addrMode s.bases (t, r)).2 }
        ret := returnOf (t, r) (recordAddress r s) s.rdr.cursor } := by
  obtain ⟨-, hsum, hlen, hrange⟩ := h
  have passed : ∀ effect : State → State, checkRecord t r effect s = effect s := by
    intro effect
    simp only [checkRecord, hsum, hlen, Bool.true_eq_false, if_false]
  have idle : { acceptRecord r s with ret := .idle } = acceptRecord r s :=
    State.taken_of_idle (s := acceptRecord r s) hidle
  cases t <;> simp only [recordEffect, dataEffect, eofEffect, esaEffect, ssaEffect, elaEffect,
    slaEffect, passed]
  case data => rfl
  case eof => rfl
  case ssa => exact idle.symm
  case sla => exact idle.symm
  case esa =>
    by_cases hmode : s.cfg.addrMode = 0
    · obtain ⟨hmin, hmax⟩ := hrange rfl hmode
      have inRange : ¬ (extValue r < Config.esaMin ∨ Config.esaMax < extValue r) := by
        rw [not_or, BitVec.not_lt, BitVec.not_lt]
        exact ⟨hmin, hmax⟩
      simp only [hmode, if_true, if_neg inRange, basesAfter, returnOf, ← hidle]
      rfl
    · simp only [hmode, if_false, basesAfter, returnOf, ← hidle]
      rfl
  case ela =>
    by_cases hmode : s.cfg.addrMode = 0
    · simp only [hmode, if_true, basesAfter, returnOf, ← hidle]
      rfl
    · simp only [hmode, if_false, basesAfter, returnOf, ← hidle]
      rfl

/-! ### A record that is rejected -/

theorem recordType_eq_none {tt : Byte} (h : 5 < tt.toNat) : recordType tt = none := by
  have ne : ∀ v : Byte, v.toNat ≤ 5 → tt ≠ v := by
    rintro v hv rfl
    omega
  simp only [recordType, ne 0 (by decide), ne 1 (by decide), ne 2 (by decide), ne 3 (by decide),
    ne 4 (by decide), ne 5 (by decide), if_false]

theorem code_of_recordType {tt : Byte} {t : RecordType} (h : recordType tt = some t) :
    tt = t.code := by
  unfold recordType at h
  split_ifs at h with h0 h1 h2 h3 h4 h5 <;> cases h <;> assumption

/-- A text whose fields are wrong starts with the colon of a record. -/
theorem exists_colon_of_decodeFields_error {text : List Byte} {e : Reject}
    (h : decodeFields text = .error e) (hne : e ≠ .noColon) : ∃ more, text = 0x3A :: more := by
  unfold decodeFields at h
  split at h
  · exact absurd (Except.error.inj h).symm hne
  · next b more =>
    split at h
    · next hb => exact ⟨more, by rw [hb]⟩
    · exact absurd (Except.error.inj h).symm hne

/-- R83 in the words of `Rejects`. -/
theorem lengthLegal_eq_false {t : RecordType} {n : Nat}
    (h : 64 < n ∨ (t = .eof ∧ n ≠ 0) ∨ ((t = .esa ∨ t = .ela) ∧ n ≠ 2)) :
    lengthLegal t n = false := by
  cases t <;> refine decide_eq_false fun legal => ?_ <;> simp [Config.maxRecData] at h legal <;> omega

/-- Every record of a known type is checked first. -/
theorem recordEffect_checks (t : RecordType) (r : Rec) (s : State) :
    ∃ effect, recordEffect t r s = checkRecord t r effect s := by
  cases t with
  | data => exact ⟨_, dataEffect.eq_1 r s⟩
  | eof => exact ⟨_, eofEffect.eq_1 r s⟩
  | esa => exact ⟨_, esaEffect.eq_1 r s⟩
  | ssa => exact ⟨_, ssaEffect.eq_1 r s⟩
  | ela => exact ⟨_, elaEffect.eq_1 r s⟩
  | sla => exact ⟨_, slaEffect.eq_1 r s⟩

theorem recordEffect_badChecksum {t : RecordType} {r : Rec} (h : checksumGood t.code r = false)
    (s : State) : recordEffect t r s = checksumError t.code r s := by
  obtain ⟨effect, he⟩ := recordEffect_checks t r s
  exact he.trans (if_pos h)

theorem recordEffect_badLength {t : RecordType} {r : Rec} (hsum : checksumGood t.code r = true)
    (hlen : lengthLegal t r.data.length = false) (s : State) :
    recordEffect t r s = recordError .recordLengthError {} s := by
  obtain ⟨effect, he⟩ := recordEffect_checks t r s
  rw [he, checkRecord, hsum, hlen]
  rfl

theorem recordEffect_badSegment {r : Rec} {s : State} {d0 d1 : Byte}
    (hsum : checksumGood 0x02 r = true) (hdata : r.data = [d0, d1]) (hmode : s.cfg.addrMode = 0)
    (hrange : d0.toNat * 256 + d1.toNat < 0x1000 ∨ 0xF000 < d0.toNat * 256 + d1.toNat) :
    recordEffect .esa r s = recordError .segmentRangeError { addr := extValue r } s := by
  have h0 := d0.isLt
  have h1 := d1.isLt
  have outside : extValue r < Config.esaMin ∨ Config.esaMax < extValue r := by
    rw [extValue_eq r d0 d1 hdata, BitVec.lt_def, BitVec.lt_def, BitVec.toNat_ofNat,
      Nat.mod_eq_of_lt (by omega)]
    exact hrange
  have hlen : lengthLegal .esa r.data.length = true := by
    rw [hdata]
    rfl
  rw [recordEffect, esaEffect, checkRecord, RecordType.code, hsum, hlen, if_neg Bool.noConfusion,
    if_neg Bool.noConfusion, if_pos hmode, if_pos outside]

/-! ### One pass of `read_next` over the text at CURSOR -/

theorem readNext_of_returned {s : State} (hs : s.ret = .idle) (h : (readPass s).ret ≠ .idle) :
    readNext s = readPass s := by
  rw [readNext_eq, State.taken_of_idle hs, if_neg h]

section

variable {s : State} {ws text : List Byte}

theorem readPass_known {t : RecordType} {r : Rec} (hws : White ws)
    (hs : s.sourceFrom s.rdr.cursor.toNat = ws ++ text) (hd : decodeFields text = .ok (t.code, r)) :
    readPass s = recordEffect t r (s.atCursor (s.rdr.cursor.toNat + ws.length)) := by
  rw [readPass, State.scan_text hws.isSpace hd hs, recordType_code]

theorem readPass_unknown {tt : Byte} {r : Rec} (hws : White ws)
    (hs : s.sourceFrom s.rdr.cursor.toNat = ws ++ text) (hd : decodeFields text = .ok (tt, r))
    (ht : recordType tt = none) :
    readPass s = unknownTypeEffect tt r (s.atCursor (s.rdr.cursor.toNat + ws.length)) := by
  rw [readPass, State.scan_text hws.isSpace hd hs, ht]

theorem readPass_no_record {b : Byte} {more : List Byte} {e : Reject} (hws : White ws)
    (hs : s.sourceFrom s.rdr.cursor.toNat = ws ++ text) (htext : text = b :: more)
    (hb : isSpace b = false) (he : decodeFields text = .error e) :
    readPass s =
      recordError .syntaxError {} (s.atCursor (s.rdr.cursor.toNat + ws.length)) := by
  rw [htext] at hs he
  rw [readPass, State.scan_nonspace hws.isSpace hb hs, scanRecord, he]

/-- Where the text behind the whitespace is rejected, the pass records the error, with CURSOR at the
text (R130). -/
theorem readPass_rejects {code : Byte} (hws : White ws)
    (hs : s.sourceFrom s.rdr.cursor.toNat = ws ++ text) (h : Rejects s.cfg.addrMode text code) :
    ∃ k info, k.code = code ∧
      readPass s = recordError k info (s.atCursor (s.rdr.cursor.toNat + ws.length)) := by
  cases h with
  | @noColon b more htext hwhite hcolon =>
    have hb : isSpace b = false := by
      rw [← Bool.not_eq_true, isSpace_iff]
      exact fun hb => hwhite fun c hc => by rwa [List.mem_singleton.mp hc]
    have he : decodeFields text = .error .noColon := by
      rw [htext, decodeFields, if_neg hcolon]
    exact ⟨.syntaxError, {}, rfl, readPass_no_record hws hs htext hb he⟩
  | badText hbad =>
    obtain ⟨e, he, hne⟩ : ∃ e, decodeFields text = .error e ∧ e ≠ .noColon :=
      hbad.elim (fun he => ⟨_, he, by decide⟩) (fun he => ⟨_, he, by decide⟩)
    obtain ⟨more, htext⟩ := exists_colon_of_decodeFields_error he hne
    exact ⟨.syntaxError, {}, rfl, readPass_no_record hws hs htext rfl he⟩
  | @badChecksum tt r hd hsum =>
    cases ht : recordType tt with
    | some t =>
      obtain rfl := code_of_recordType ht
      exact ⟨.checksumError, _, rfl,
        (readPass_known hws hs hd).trans (recordEffect_badChecksum hsum _)⟩
    | none => exact ⟨.checksumError, _, rfl, (readPass_unknown hws hs hd ht).trans (if_pos hsum)⟩
  | @unknownType tt r hd hsum htt =>
    refine ⟨.unknownRecordType, {}, rfl,
      (readPass_unknown hws hs hd (recordType_eq_none htt)).trans ?_⟩
    rw [unknownTypeEffect, hsum]
    rfl
  | badLength hd hsum hlen =>
    exact ⟨.recordLengthError, {}, rfl, (readPass_known hws hs hd).trans
      (recordEffect_badLength hsum (lengthLegal_eq_false hlen) _)⟩
  | badSegment hd hsum hdata hmode hrange =>
    exact ⟨.segmentRangeError, _, rfl, (readPass_known (t := .esa) hws hs hd).trans
      (recordEffect_badSegment hsum hdata hmode hrange)⟩

end

end Sys2Proof.Machine

/-! VALIDATE behind the good beginning of an image: the records read one by one leave the command at the
text behind them, with what they have made of the reader's registers and of the working values. -/

namespace Sys2Proof.Machine

/-- An accepted record leaves CURSOR at the text behind its line (R125). -/
theorem acceptRecord_text (r : Rec) (s : State)
    (h : s.rdr.cursor.toNat + recordChars r ≤ s.cfg.srcLen.toNat) :
    s.sourceFrom (acceptRecord r s).rdr.cursor.toNat =
      afterLine r (s.sourceFrom s.rdr.cursor.toNat) := by
  have inside := (acceptRecord_cursor r s h).2
  rw [acceptRecord_cursor_toNat r s h, Nat.add_assoc] at inside ⊢
  rw [s.sourceFrom_add inside, s.sourceFrom_add h]
  rfl

/-- A command begun in `s0` stands in `s`: so far the Record Reader alone has moved; it has read `n`
records, which have made the bases `b`, and `text` is still to be read. -/
structure HasRead (s0 : State) (n : Nat) (b : Word × Word) (text : List Byte) (s : State) : Prop where
  frame : s = { s0 with rdr := s.rdr, ret := .idle }
  lines : s.rdr.lines.toNat = n
  bases : s.bases = b
  /-- each record has taken characters of the source, so LINES has not saturated -/
  counted : n ≤ s.rdr.cursor.toNat
  inside : s.rdr.cursor.toNat ≤ s.cfg.srcLen.toNat
  text : s.sourceFrom s.rdr.cursor.toNat = text

section

variable {s0 s : State} {n : Nat} {b : Word × Word} {text ws here : List Byte}

theorem HasRead.idle (h : HasRead s0 n b text s) : s.ret = .idle := by
  rw [h.frame]

theorem HasRead.cfg (h : HasRead s0 n b text s) : s.cfg = s0.cfg := by
  rw [h.frame]

theorem HasRead.status (h : HasRead s0 n b text s) : s.status = s0.status := by
  rw [h.frame]

theorem HasRead.valOut (h : HasRead s0 n b text s) : s.valOut = s0.valOut := by
  rw [h.frame]

theorem HasRead.cursor (h : HasRead s0 n b text s) :
    s.rdr.cursor.toNat + text.length = s0.cfg.srcLen.toNat := by
  have len := congrArg List.length h.text
  have := h.inside
  rw [State.sourceFrom_length] at len
  rw [← h.cfg]
  omega

/-- The place behind whitespace as a register value, and the text that stands there. -/
theorem HasRead.skip (h : HasRead s0 n b (ws ++ here) s) :
    (BitVec.ofNat 32 (s.rdr.cursor.toNat + ws.length)).toNat = s.rdr.cursor.toNat + ws.length ∧
      s.rdr.cursor.toNat + ws.length + here.length = s0.cfg.srcLen.toNat ∧
      s.sourceFrom (s.rdr.cursor.toNat + ws.length) = here := by
  have cursor := h.cursor
  have bound := s0.cfg.srcLen.isLt
  rw [List.length_append, ← Nat.add_assoc] at cursor
  refine ⟨Nat.mod_eq_of_lt (by omega), cursor, ?_⟩
  rw [s.sourceFrom_add (by rw [h.cfg]; omega), h.text, List.drop_left]

/-- One pass over a record that passes: it is returned or not, counted in LINES, and the text behind its
line is next. -/
theorem HasRead.pass {x : RecordType × Rec} (h : HasRead s0 n b (ws ++ here) s) (hws : White ws)
    (hd : decodeFields here = .ok (x.1.code, x.2)) (hp : Passes s0.cfg.addrMode x) :
    ∃ start : Word, start.toNat + here.length = s0.cfg.srcLen.toNat ∧
      (readPass s).ret = returnOf x (b.1 + b.2 + lineAddress x.2) start ∧
      HasRead s0 (n + 1) (basesAfter s0.cfg.addrMode b x) (afterLine x.2 here)
        (readPass s).taken := by
  obtain ⟨t, r⟩ := x
  obtain ⟨start_toNat, start_end, start_text⟩ := h.skip
  generalize hu : s.atCursor (s.rdr.cursor.toNat + ws.length) = u
  have frame : u = { s with rdr := u.rdr } := by rw [← hu]; rfl
  have cursor : u.rdr.cursor.toNat = s.rdr.cursor.toNat + ws.length := by
    rw [← hu]
    exact start_toNat
  have lines : u.rdr.lines = s.rdr.lines := by rw [← hu]; rfl
  have bases : u.bases = b := by rw [← h.bases, ← hu]; rfl
  have idle : u.ret = .idle := by rw [frame, h.idle]
  have cfg : u.cfg = s0.cfg := by rw [frame, h.cfg]
  have text : u.sourceFrom u.rdr.cursor.toNat = here := by
    rw [cursor, ← start_text, frame]
    rfl
  have fits : u.rdr.cursor.toNat + recordChars r ≤ u.cfg.srcLen.toNat := by
    have chars : recordChars r ≤ here.length := (decodeFields_length hd).2
    rw [cursor, cfg]
    omega
  have pass : readPass s = recordEffect t r u := by
    rw [readPass_known hws h.text hd, hu]
  rw [recordEffect_passes idle (by rw [cfg]; exact hp), cfg, bases] at pass
  obtain ⟨past, inside⟩ := acceptRecord_cursor r u fits
  have counted : n + 1 ≤ (acceptRecord r u).rdr.cursor.toNat := by
    have := h.counted
    have : 11 ≤ recordChars r := Nat.le_add_right ..
    omega
  refine ⟨u.rdr.cursor, by rw [cursor]; exact start_end, ?_, ?_⟩
  · rw [pass, ← bases]
    rfl
  rw [pass]
  refine ⟨by rw [acceptRecord, frame, h.frame]; rfl, ?_, rfl, counted, inside, ?_⟩
  · have bound := (acceptRecord r u).rdr.cursor.isLt
    refine (saturatingNext_toNat u.rdr.lines).trans ?_
    rw [lines, h.lines]
    exact Nat.min_eq_left (Nat.le_of_lt_succ (Nat.lt_of_le_of_lt counted bound))
  · rw [← text]
    exact acceptRecord_text r u fits

/-- `read_next` over a data or EOF record that passes: it is returned, and the bases stay. -/
theorem HasRead.returned {x : RecordType × Rec} (h : HasRead s0 n b (ws ++ here) s) (hws : White ws)
    (hd : decodeFields here = .ok (x.1.code, x.2)) (hp : Passes s0.cfg.addrMode x)
    (hx : x.1 = .data ∨ x.1 = .eof) :
    ∃ start : Word, start.toNat + here.length = s0.cfg.srcLen.toNat ∧
      (readNext s).ret = returnOf x (b.1 + b.2 + lineAddress x.2) start ∧
      HasRead s0 (n + 1) b (afterLine x.2 here) (readNext s).taken := by
  obtain ⟨start, start_end, hret, next⟩ := h.pass hws hd hp
  rw [basesAfter_of_returned _ _ hx] at next
  rw [readNext_of_returned h.idle (by rw [hret]; exact returnOf_ne_idle hx _ _)]
  exact ⟨start, start_end, hret, next⟩

end

/-! ### The working values -/

/-- The working values after the records `ys` have been returned: those of the last (R161). -/
def ValidatorWork.afterRecords (w : ValidatorWork) (ys : List (Word × List Byte)) : ValidatorWork :=
  match ys.getLast? with
  | none => w
  | some y => .ofRecord y.1 y.2.length

theorem ValidatorWork.afterRecords_of_getLast? {ys : List (Word × List Byte)} {a : Word}
    {d : List Byte} (w : ValidatorWork) (h : ys.getLast? = some (a, d)) :
    w.afterRecords ys = .ofRecord a d.length := by
  rw [afterRecords, h]

theorem ValidatorWork.afterRecords_cons (w : ValidatorWork) (y : Word × List Byte)
    (ys : List (Word × List Byte)) :
    w.afterRecords (y :: ys) =
      (ValidatorWork.ofRecord y.1 y.2.length).afterRecords ys := by
  rw [afterRecords, afterRecords, List.getLast?_cons]
  cases ys.getLast? <;> rfl

/-- The first record still to be returned, of `ys`, is where R162 wants it. -/
def StartsRight (appStart : Word) (w : ValidatorWork) (ys : List (Word × List Byte)) : Prop :=
  w.first = true → ∀ y, ys.head? = some y → y.1 = appStart

theorem StartsRight.of_not_first {appStart : Word} {w : ValidatorWork} (h : w.first = false)
    (ys : List (Word × List Byte)) : StartsRight appStart w ys :=
  fun hfirst => absurd (h.symm.trans hfirst) Bool.noConfusion

theorem StartsRight.of_head {appStart : Word} {w : ValidatorWork} {ys : List (Word × List Byte)}
    (h : (ys.head?).map Prod.fst = some appStart) : StartsRight appStart w ys := by
  intro _ y hy
  rw [hy] at h
  exact Option.some.inj h

theorem StartsRight.left {appStart : Word} {w : ValidatorWork} {ys zs : List (Word × List Byte)}
    (h : StartsRight appStart w (ys ++ zs)) : StartsRight appStart w ys := by
  intro hfirst y hy
  exact h hfirst y (by rw [List.head?_append, hy]; rfl)

theorem HasRead.startAddressRight {s0 s : State} {n : Nat} {b : Word × Word} {text : List Byte}
    {w : ValidatorWork} {a : Word} {d : List Byte} {ys : List (Word × List Byte)}
    (h : HasRead s0 n b text s) (start : StartsRight s0.cfg.appStart w ((a, d) :: ys)) :
    startAddressWrong w a (readNext s) = false := by
  rw [← Bool.not_eq_true, startAddressWrong_eq_true_iff, readNext_cfg, h.cfg]
  rintro ⟨hfirst, hne⟩
  exact hne (start hfirst _ rfl)

theorem StartsRight.afterRecords {appStart : Word} {w : ValidatorWork}
    {ys zs : List (Word × List Byte)} (h : StartsRight appStart w (ys ++ zs)) :
    StartsRight appStart (w.afterRecords ys) zs := by
  induction ys generalizing w with
  | nil => exact h
  | cons y ys ih =>
    rw [ValidatorWork.afterRecords_cons]
    exact ih (.of_not_first rfl _)

/-! ### The loop over a good beginning -/

/-- A control record is passed over: VALIDATE goes on behind it. -/
theorem validateFrom_control {w : ValidatorWork} {s : State} (hs : s.ret = .idle)
    (h : (readPass s).ret = .idle) : validateFrom w s = validateFrom w (readPass s).taken := by
  have goesOn : readNext s = readNext (readPass s) := by
    rw [readNext_eq, State.taken_of_idle hs, if_pos h]
  have left := readPass_sourceLeft h (by rw [hs]; exact ReadResult.noConfusion)
  rw [State.taken_of_idle h, validateFrom, validateFrom, validateLoop_succ, goesOn,
    ← validateLoop_succ]
  exact validateLoop_enough (by omega) (Nat.lt_succ_self _)

/-- VALIDATE over the records of a good beginning: it comes to stand behind them. -/
theorem validateFrom_body {s0 : State} {body : List (RecordType × Rec)} {rest : List Byte}
    (passes : ∀ x ∈ body, Passes s0.cfg.addrMode x ∧ ¬ IsMarker x) {n : Nat} {b : Word × Word}
    {text : List Byte} {s : State} {w : ValidatorWork} (h : HasRead s0 n b text s)
    (layout : HoldsRecords text body rest)
    (start : StartsRight s0.cfg.appStart w (returnedFrom s0.cfg.addrMode b body))
    (above : ∀ y ∈ returnedFrom s0.cfg.addrMode b body, s0.cfg.blEnd < y.1) :
    ∃ s', HasRead s0 (n + body.length) (body.foldl (basesAfter s0.cfg.addrMode) b) rest s' ∧
      validateFrom w s =
        validateFrom (w.afterRecords (returnedFrom s0.cfg.addrMode b body)) s' := by
  induction body generalizing n b text s w with
  | nil =>
    cases layout.nil_inv
    exact ⟨s, h, rfl⟩
  | cons x body ih =>
    obtain ⟨⟨hp, hm⟩, passes⟩ := List.forall_mem_cons.mp passes
    obtain ⟨ws, here, hws, rfl, hd, layout⟩ := layout.cons_inv
    rw [List.length_cons, Nat.add_comm body.length, ← Nat.add_assoc, List.foldl_cons]
    obtain ⟨hdata, hne⟩ | control := hp.data_or_control hm
    · rw [returnedFrom_cons_returned _ _ (.inl hdata)] at start above ⊢
      obtain ⟨unprotected, above⟩ := List.forall_mem_cons.mp above
      obtain ⟨st, -, hret, next⟩ := h.returned hws hd hp (.inl hdata)
      rw [returnOf_data hdata hne] at hret
      rw [validateFrom_data hret, h.startAddressRight start, if_neg Bool.noConfusion, h.cfg,
        if_neg (BitVec.not_le.mpr unprotected), ValidatorWork.afterRecords_cons,
        basesAfter_of_returned _ _ (.inl hdata)]
      exact ih passes next layout (.of_not_first rfl _) above
    · obtain ⟨st, -, hret, next⟩ := h.pass hws hd hp
      rw [returnedFrom_cons_control _ _ control] at start above ⊢
      rw [returnOf_control control] at hret
      rw [validateFrom_control h.idle hret]
      exact ih passes next layout start above

/-- VALIDATE begins with nothing read, the bases at 0 and the whole source to come (R292). -/
theorem hasRead_start (s : State) :
    HasRead s.invalidate 0 (0, 0) (s.sourceFrom 0) s.invalidate.resetReader.taken :=
  ⟨rfl, rfl, rfl, Nat.le_refl _, Nat.zero_le _, rfl⟩

/-- VALIDATE of a source with a good beginning comes to stand behind it. -/
theorem validate_body {s : State} {body : List (RecordType × Rec)} {rest : List Byte}
    (legal : s.configLegal = true)
    (passes : ∀ x ∈ body, Passes s.cfg.addrMode x ∧ ¬ IsMarker x)
    (layout : HoldsRecords (s.sourceFrom 0) body rest)
    (start : StartsRight s.cfg.appStart {} (returnedFrom s.cfg.addrMode (0, 0) body))
    (above : ∀ y ∈ returnedFrom s.cfg.addrMode (0, 0) body, s.cfg.blEnd < y.1) :
    ∃ s', HasRead s.invalidate body.length (body.foldl (basesAfter s.cfg.addrMode) (0, 0)) rest s' ∧
      exec .validate s =
        .next (validateFrom
          (ValidatorWork.afterRecords {} (returnedFrom s.cfg.addrMode (0, 0) body)) s') := by
  obtain ⟨s', hread, run⟩ := validateFrom_body (s0 := s.invalidate) passes (hasRead_start s) layout
    start above
  rw [Nat.zero_add] at hread
  exact ⟨s', hread, congrArg _ ((validate_legal legal).trans run)⟩

end Sys2Proof.Machine

/-! A good image, and each end of a good beginning that is none (R161 to R166). -/

namespace Sys2Proof.Machine

/-- VALIDATE at the end-of-file marker, its start address right: the results are written (R161, R164). -/
theorem HasRead.validateFrom_marker {s0 s : State} {n : Nat} {b : Word × Word}
    {text rest : List Byte} {e : RecordType × Rec} {w : ValidatorWork} (h : HasRead s0 n b text s)
    (layout : HoldsRecords text [e] rest) (hp : Passes s0.cfg.addrMode e) (hm : IsMarker e)
    (start : StartsRight s0.cfg.appStart w (returnedFrom s0.cfg.addrMode b [e])) :
    ∃ u, HasRead s0 (n + 1) b rest u ∧ validateFrom w s = validateSuccess w u := by
  obtain ⟨ws, here, hws, rfl, hd, layout⟩ := layout.cons_inv
  obtain ⟨st, -, hret, next⟩ := h.returned hws hd hp hm.2
  rw [layout.nil_inv] at next
  rw [returnedFrom_singleton _ _ hm.2] at start
  obtain ⟨ty, heof⟩ := returnOf_marker hm (b.1 + b.2 + lineAddress e.2) st
  refine ⟨_, next, ?_⟩
  rw [validateFrom_eof (hret.trans heof), h.startAddressRight start]
  rfl

/-- VALIDATE at a data record at or below BL_END, its start address right (R163). -/
theorem HasRead.validateFrom_protected {s0 s : State} {n : Nat} {b : Word × Word}
    {ws text : List Byte} {r : Rec} {w : ValidatorWork} (h : HasRead s0 n b (ws ++ text) s)
    (hws : White ws) (hd : decodeFields text = .ok (0x00, r))
    (hp : Passes s0.cfg.addrMode (.data, r)) (hne : r.data ≠ [])
    (start : StartsRight s0.cfg.appStart w [(b.1 + b.2 + lineAddress r, r.data)])
    (protects : b.1 + b.2 + lineAddress r ≤ s0.cfg.blEnd) :
    ∃ u offset, offset.toNat + text.length = s0.cfg.srcLen.toNat ∧
      HasRead s0 (n + 1) b (afterLine r text) u ∧
      validateFrom w s = u.raise .protectedAddressViolation
        { line := u.rdr.lines, offset := offset, addr := b.1 + b.2 + lineAddress r } := by
  obtain ⟨st, offset_end, hret, next⟩ := h.returned (x := (.data, r)) hws hd hp (.inl rfl)
  rw [returnOf_data rfl hne] at hret
  refine ⟨_, st, offset_end, next, ?_⟩
  rw [validateFrom_data hret, h.startAddressRight start, if_neg Bool.noConfusion, h.cfg,
    if_pos protects]
  rfl

/-- VALIDATE where only whitespace is left (R166). -/
theorem HasRead.validateFrom_white {s0 s : State} {n : Nat} {b : Word × Word} {ws : List Byte}
    {w : ValidatorWork} (h : HasRead s0 n b ws s) (hws : White ws) :
    ∃ u : State, u.status = s0.status ∧ u.rdr.lines.toNat = n ∧
      validateFrom w s =
        u.raise .noEndOfFile { line := u.rdr.lines, offset := s0.cfg.srcLen } := by
  have pass : readPass s =
      { s.atCursor (s.rdr.cursor.toNat + ws.length) with ret := .endOfStream } := by
    rw [readPass, State.scan_white hws h.inside h.text]
  have read := readNext_of_returned h.idle (by rw [pass]; exact ReadResult.noConfusion)
  rw [pass] at read
  refine ⟨(readNext s).taken, ?_, ?_, ?_⟩
  · rw [read]
    exact h.status
  · rw [read]
    exact h.lines
  · rw [validateFrom_endOfStream (by rw [read]), h.cfg]
    rfl

/-- A text that is rejected is not empty. -/
theorem Rejects.length_pos {mode : BitVec 1} {text : List Byte} {code : Byte}
    (h : Rejects mode text code) : 0 < text.length := by
  rw [List.length_pos_iff]
  rintro rfl
  cases h <;> simp_all [decodeFields]

/-- The number of the next record does not wrap while source bytes are left. -/
theorem HasRead.next_line {s0 s : State} {n : Nat} {b : Word × Word} {text : List Byte}
    (h : HasRead s0 n b text s) (left : 0 < text.length) : (s.rdr.lines + 1).toNat = n + 1 := by
  have counted := h.counted
  have cursor := h.cursor
  have lines := h.lines
  bv_omega

/-- VALIDATE at a text the Record Reader rejects ends with the reader's error, at the next record's
number and offset (R130). -/
theorem HasRead.validateFrom_rejects {s0 s : State} {n : Nat} {b : Word × Word}
    {ws text : List Byte} {code : Byte} {w : ValidatorWork} (h : HasRead s0 n b (ws ++ text) s)
    (hws : White ws) (hrej : Rejects s0.cfg.addrMode text code) :
    ∃ (k : ErrKind) (info : ErrInfo) (u : State), k.code = code ∧ u.status = s0.status ∧
      u.valOut = s0.valOut ∧ u.rdr.lines.toNat = n ∧ (u.rdr.lines + 1).toNat = n + 1 ∧
      u.rdr.cursor.toNat + text.length = s0.cfg.srcLen.toNat ∧
      validateFrom w s = (recordError k info u).taken := by
  have left : 0 < (ws ++ text).length := by
    have := hrej.length_pos
    rw [List.length_append]
    omega
  obtain ⟨start_toNat, start_end, -⟩ := h.skip
  obtain ⟨k, info, hcode, pass⟩ := readPass_rejects hws h.text (by rw [h.cfg]; exact hrej)
  have read := readNext_of_returned h.idle (by rw [pass]; exact ReadResult.noConfusion)
  refine ⟨k, info, s.atCursor (s.rdr.cursor.toNat + ws.length), hcode, h.status, h.valOut, h.lines,
    h.next_line left, ?_, ?_⟩
  · rw [State.atCursor_rdr, start_toNat]
    exact start_end
  · rw [validateFrom_raised (by rw [read, pass]; rfl), read, pass]

theorem setWidth_ofNat_byte {n : Nat} (h : n ≤ 255) :
    (BitVec.ofNat 8 n).setWidth 32 = BitVec.ofNat 32 n := by
  apply BitVec.eq_of_toNat_eq
  simp only [BitVec.toNat_setWidth, BitVec.toNat_ofNat]
  omega

/-- The results of an image whose data records are `ys`, the last one at `a` (R161, R164). -/
theorem validateSuccess_valOut_of_last {u : State} {ys : List (Word × List Byte)} {a : Word}
    {d : List Byte} (hlast : ys.getLast? = some (a, d)) (hlen : d.length ≤ 255) :
    (validateSuccess (ValidatorWork.afterRecords {} ys) u).valOut =
      { lines := u.rdr.lines, endAddr := a, endCount := BitVec.ofNat 8 d.length
        xferSize := a + BitVec.ofNat 32 d.length - u.cfg.appStart } := by
  rw [ValidatorWork.afterRecords_of_getLast? _ hlast, ← setWidth_ofNat_byte hlen]
  rfl

/-- The results of an image without data records (R161, R164). -/
theorem validateSuccess_valOut_of_no_data (u : State) :
    (validateSuccess (ValidatorWork.afterRecords {} []) u).valOut = { lines := u.rdr.lines } := rfl

end Sys2Proof.Machine

namespace Sys2Proof

open Machine

/-- Settles O35: VALIDATE comes to stand behind the body of the image, and the marker there ends it. -/
theorem validateAcceptsAGoodImage : Obligations.ValidateAcceptsAGoodImage := by
  unfold Obligations.ValidateAcceptsAGoodImage
  intro s body e rest hcap halign hend image layout data
  obtain ⟨bodyPasses, ⟨endPasses, isMarker⟩, startsAtAppStart, aboveBootloader⟩ := image
  obtain ⟨mid, bodyLayout, endLayout⟩ := layout.append_inv
  have start : StartsRight s.cfg.appStart {} (data ++ returnedFrom s.cfg.addrMode
      (body.foldl (basesAfter s.cfg.addrMode) (0, 0)) [e]) := by
    rw [← returnedFrom_append]
    exact .of_head startsAtAppStart
  obtain ⟨s', hread, run⟩ := validate_body (s.configLegal_iff.mpr ⟨hcap, halign, hend⟩) bodyPasses
    bodyLayout start.left aboveBootloader
  obtain ⟨u, hu, success⟩ := hread.validateFrom_marker endLayout endPasses isMarker start.afterRecords
  refine ⟨_, run.trans (congrArg _ success), hu.lines, hu.cursor, hu.bases, rfl,
    fun a d hlast => ?_, fun hnone => ?_, ?_⟩
  · obtain ⟨x, hx, hdata⟩ := exists_record_of_mem_returnedFrom _ _ (List.mem_of_getLast? hlast)
    obtain ⟨⟨hwf, -⟩, -⟩ := bodyPasses x hx
    have hlen : d.length ≤ 255 := (congrArg List.length hdata).trans_le (of_decide_eq_true hwf)
    rw [validateSuccess_valOut_of_last hlast hlen, hu.cfg]
    exact ⟨rfl, Nat.mod_eq_of_lt (Nat.lt_succ_of_le hlen), rfl⟩
  · rw [hnone, validateSuccess_valOut_of_no_data]
    exact ⟨rfl, rfl, rfl⟩
  · rw [hu.frame]
    rfl

/-- Settles O38: VALIDATE comes to stand behind the good beginning, and what stands there ends it in one
of the three ways. -/
theorem validateChecksEveryDataRecord : Obligations.ValidateChecksEveryDataRecord := by
  unfold Obligations.ValidateChecksEveryDataRecord
  intro s body r ws text legal passes starts above hws
  have start : ∀ zs, StartsRight s.cfg.appStart {}
      (returnedFrom s.cfg.addrMode (0, 0) body ++ zs) := fun zs => .of_head (by
    obtain ⟨y, hy, happ⟩ := Option.map_eq_some_iff.mp starts
    rw [List.head?_append, hy]
    exact congrArg some happ)
  refine ⟨fun a hp hne hreturned protects hd layout => ?_, fun layout => ?_,
    fun code hrej layout => ?_⟩ <;>
    obtain ⟨s', hread, run⟩ := validate_body legal passes layout (start []).left above
  · rw [returnedFrom_append, returnedFrom_singleton _ _ (.inl rfl), List.append_cancel_left_eq]
      at hreturned
    cases hreturned
    obtain ⟨u, offset, offset_end, hu, raises⟩ :=
      hread.validateFrom_protected hws hd hp hne (start _).afterRecords protects
    refine ⟨_, run.trans (congrArg _ raises), ?_, rfl, rfl, rfl, hu.lines, offset_end⟩
    rw [State.raise_status, hu.status]
    rfl
  · obtain ⟨u, status, lines, raises⟩ := hread.validateFrom_white hws
    refine ⟨_, run.trans (congrArg _ raises), ?_, rfl, rfl, lines, rfl⟩
    rw [State.raise_status, status]
    rfl
  · obtain ⟨k, info, u, hcode, status, valOut, lines, line, offset, raises⟩ :=
      hread.validateFrom_rejects hws hrej
    refine ⟨_, run.trans (congrArg _ raises), ?_, rfl, hcode, line, offset, rfl, lines, valOut⟩
    rw [State.taken_status, recordError_status, status]
    rfl

end Sys2Proof

/-! NEXT_BLOCK pass by pass (R182): what a fetch makes of each thing `read_next` returns, and what the
pending record makes of the block. The bound on the passes, which is the model's (log 22), is left behind
here. -/

namespace Sys2Proof.Machine

/-- NEXT_BLOCK's loop with as many passes as the source bytes that remain can need. -/
def nextBlockFrom (s : State) : State := blockLoop (s.sourceLeft + 2) s

section

variable {s t : State} {a st : Word} {d : List Byte} {c : Byte}

theorem nextBlock_running (h : s.status.asmActive = true) :
    nextBlock s = nextBlockFrom s.dropBlock :=
  if_neg (by rw [h]; exact Bool.noConfusion)

theorem exec_nextBlock_running (h : s.status.asmActive = true) :
    exec .nextBlock s = .next (nextBlockFrom s.dropBlock) :=
  congrArg _ (nextBlock_running h)

theorem nextBlockFrom_done (h : blockPass s = .done t) : nextBlockFrom s = t := by
  rw [nextBlockFrom, blockLoop_eq, h]

/-- NEXT_BLOCK whose first pass is its last. -/
theorem exec_nextBlock_done (active : s.status.asmActive = true)
    (h : blockPass s.dropBlock = .done t) : exec .nextBlock s = .next t :=
  (exec_nextBlock_running active).trans (congrArg _ (nextBlockFrom_done h))

theorem nextBlockFrom_more (h : blockPass s = .more t) : nextBlockFrom s = nextBlockFrom t := by
  rw [nextBlockFrom, blockLoop_eq, h, nextBlockFrom]

theorem nextBlockFrom_congr (h : blockPass s = blockPass t) : nextBlockFrom s = nextBlockFrom t := by
  rw [nextBlockFrom, blockLoop_eq, h, nextBlockFrom, ← blockLoop_eq]

theorem State.dropBlock_of_not_blkValid (h : s.status.blkValid = false) : s.dropBlock = s := by
  rw [State.dropBlock, ← h]

theorem exec_nextBlock_congr (hs : s.status.asmActive = true) (ht : t.status.asmActive = true)
    (h : nextBlockFrom s.dropBlock = nextBlockFrom t.dropBlock) :
    exec .nextBlock s = exec .nextBlock t := by
  rw [exec_nextBlock_running hs, exec_nextBlock_running ht, h]

/-! ### Fetching (R183) -/

theorem blockPass_pending (h : s.asm.pendValid = true) : blockPass s = placePass 0 s := if_pos h

theorem blockPass_fetch_done (hv : s.asm.pendValid = false) (h : fetch s = (st, .done t)) :
    blockPass s = .done t := by
  simp only [blockPass, hv, h, Bool.false_eq_true, if_false]

theorem blockPass_fetch_more (hv : s.asm.pendValid = false) (h : fetch s = (st, .more t)) :
    blockPass s = placePass st t := by
  simp only [blockPass, hv, h, Bool.false_eq_true, if_false]

@[simp] theorem readNext_asm (s : State) : (readNext s).asm = s.asm := by
  rw [(readNext_outcome s).frame]

@[simp] theorem readNext_blkOut (s : State) : (readNext s).blkOut = s.blkOut := by
  rw [(readNext_outcome s).frame]

theorem fetch_raised (h : (readNext s).ret = .raised) :
    fetch s = (0, .done (readNext s).taken) := by
  simp only [fetch, h]

theorem fetch_endOfStream (h : (readNext s).ret = .endOfStream) :
    fetch s = (0, .done ((readNext s).taken.raise .noEndOfFile
      { line := (readNext s).rdr.lines, offset := s.cfg.srcLen })) := by
  simp only [fetch, h, noEndOfFile, State.taken_cfg, readNext_cfg, State.taken_rdr]

theorem fetch_eof {ty : Byte} (h : (readNext s).ret = .eof a st ty c) :
    fetch s = (st, .done (endSequence (readNext s).taken)) := by
  simp only [fetch, h]

/-- R191: the record runs past 2^32. -/
theorem fetch_pastTop (h : (readNext s).ret = .data a st d c) (top : 4294967296 < a.toNat + d.length) :
    fetch s = (st, .done ((readNext s).taken.raise .addressOrderError
      (returnedInfo (readNext s) a st))) := by
  simp only [fetch, h, pastTop, decide_eq_true top, if_true]

/-- A record that ends by 2^32 becomes the pending one (R183). -/
theorem fetch_data (h : (readNext s).ret = .data a st d c) (top : a.toNat + d.length ≤ 4294967296) :
    fetch s = (st, .more { (readNext s).taken with asm := s.asm.hold a d }) := by
  simp only [fetch, h, pastTop, decide_eq_false (Nat.not_lt.mpr top), readNext_asm,
    Bool.false_eq_true, if_false]

/-! ### Placing (R185, R187, R190) -/

theorem placePass_gap (gap : s.asm.cbs.toNat + 32 ≤ s.asm.pendAddr.toNat) :
    placePass st s = .done (emitFull { s with asm := s.asm.padToEnd }).complete := if_pos gap

theorem placePass_below (inside : s.asm.pendAddr.toNat < s.asm.cbs.toNat + 32)
    (below : s.asm.pendAddr.toNat < s.asm.cbs.toNat + s.asm.p.toNat) :
    placePass st s =
      .done (s.raise .addressOrderError (returnedInfo s s.asm.pendAddr st)) :=
  (if_neg (Nat.not_le.mpr inside)).trans (if_pos below)

theorem placePass_placed (inside : s.asm.pendAddr.toNat < s.asm.cbs.toNat + 32)
    (above : s.asm.cbs.toNat + s.asm.p.toNat ≤ s.asm.pendAddr.toNat) :
    placePass st s =
      if s.asm.place.p = 32 then .done (emitFull { s with asm := s.asm.place }).complete
      else .more { s with asm := s.asm.place } :=
  (if_neg (Nat.not_le.mpr inside)).trans (if_neg (Nat.not_lt.mpr above))

/-- A pending record that starts at offset `off` of the current block, behind what is placed (R187). -/
theorem blockPass_placed {off : Nat} (valid : s.asm.pendValid = true)
    (ha : s.asm.pendAddr.toNat = s.asm.cbs.toNat + off) (hp : s.asm.p.toNat ≤ off) (hoff : off < 32) :
    blockPass s =
      if s.asm.place.p = 32 then .done (emitFull { s with asm := s.asm.place }).complete
      else .more { s with asm := s.asm.place } :=
  (blockPass_pending valid).trans (placePass_placed (by omega) (by omega))

/-- The record's offset in the source is of use to an error only. -/
theorem placePass_offset (above : s.asm.cbs.toNat + s.asm.p.toNat ≤ s.asm.pendAddr.toNat)
    (st st' : Word) : placePass st s = placePass st' s := by
  by_cases gap : s.asm.cbs.toNat + 32 ≤ s.asm.pendAddr.toNat
  · rw [placePass_gap gap, placePass_gap gap]
  · rw [placePass_placed (Nat.not_le.mp gap) above, placePass_placed (Nat.not_le.mp gap) above]

/-! ### The end of the sequence (R184) -/

theorem endSequence_empty (h : s.asm.p = 0) :
    endSequence s = State.complete
      { s with status := { s.status with asmActive := false, asmDone := true } } := by
  rw [endSequence, if_pos h]

theorem endSequence_short (h : s.asm.p ≠ 0) :
    endSequence s = State.complete
      { s with
        blkOut := { start := s.asm.cbs.setWidth 32, count := s.asm.p, index := s.blkOut.index + 1,
                    data := Mem.ofBytes (Mem.slice s.asm.buf 0 s.asm.p.toNat) }
        status := { s.status with blkValid := true, asmActive := false, asmDone := true } } := by
  rw [endSequence, if_neg h, emit, BitVec.ofNat_toNat, BitVec.setWidth_eq]

end

/-- The block is full exactly when the record reaches its end (R189). -/
theorem AssemblerRegs.place_full_iff (x : AssemblerRegs) {off : Nat}
    (ha : x.pendAddr.toNat = x.cbs.toNat + off) (hoff : off < 32) :
    x.place.p = 32 ↔ 32 ≤ off + x.pendLen.toNat := by
  rw [(x.place_frame off ha).1, BitVec.toNat_eq, BitVec.toNat_ofNat]
  constructor
  · intro full
    have : (off + min x.pendLen.toNat (32 - off)) % 2 ^ 6 = 32 := full
    omega
  · intro reaches
    rw [show off + min x.pendLen.toNat (32 - off) = 32 by omega]
    rfl

/-- What the rest of a record leaves in PEND_DATA: the bytes that did not fit, moved to its start (R188). -/
theorem AssemblerRegs.read_rest (x : AssemblerRegs) (fit left i : Nat) (hm : x.pendData.wf = true) :
    Mem.read (Mem.writeBytes x.pendData 0 (Mem.slice x.pendData fit left)) i =
      if i < left then Mem.read x.pendData (fit + i) else Mem.read x.pendData i := by
  rw [Mem.read_writeBytes _ _ _ hm, Mem.slice_length, Mem.slice_getD, Nat.zero_add, Nat.sub_zero]
  by_cases h : i < left <;> simp [h]

/-- The bytes of an emitted block are the first of ASM_BUF, and 0 stands behind them (R186). -/
theorem Mem.read_ofBytes_slice (m : Mem) (n i : Nat) :
    Mem.read (Mem.ofBytes (Mem.slice m 0 n)) i = if i < n then Mem.read m i else 0#8 := by
  rw [Mem.read_ofBytes, Mem.slice_getD, Nat.zero_add]

theorem State.arraysCanonical_iff (s : State) :
    s.arraysCanonical = true ↔
      s.src.wf = true ∧ s.pkt.wf = true ∧ s.recOut.data.wf = true ∧ s.blkOut.data.wf = true ∧
        s.frm.txr.wf = true ∧ s.rx.rxr.wf = true ∧ s.rx.rxbuf.wf = true ∧ s.asm.buf.wf = true ∧
        s.asm.pendData.wf = true := by
  simp only [State.arraysCanonical, Bool.and_eq_true, and_assoc]

end Sys2Proof.Machine

namespace Sys2Proof

open Machine

/-- Settles O42: the first pass finds the gap and ends the command, the buffer padded. -/
theorem nextBlockPadsAGap : Obligations.NextBlockPadsAGap := by
  unfold Obligations.NextBlockPadsAGap
  intro s canonical active valid hp gap
  obtain ⟨-, -, -, -, -, -, -, buf, -⟩ := s.arraysCanonical_iff.mp canonical
  have pass : blockPass s.dropBlock =
      .done (emitFull { s.dropBlock with asm := s.asm.padToEnd }).complete :=
    (blockPass_pending (s := s.dropBlock) valid).trans (placePass_gap (s := s.dropBlock) gap)
  exact ⟨_, exec_nextBlock_done active pass, fun i => s.asm.read_padToEnd i buf hp,
    fun i => Mem.read_ofBytes_slice _ 32 i, rfl⟩

/-- Settles O43: the first pass places the record and finds the block full. -/
theorem nextBlockFillsABlock : Obligations.NextBlockFillsABlock := by
  unfold Obligations.NextBlockFillsABlock
  intro s off canonical active valid ha hp hoff reaches left
  obtain ⟨-, -, -, -, -, -, -, buf, pendData⟩ := s.arraysCanonical_iff.mp canonical
  obtain ⟨-, cbs, whole, part⟩ := s.asm.place_frame off ha
  have pass : blockPass s.dropBlock =
      .done (emitFull { s.dropBlock with asm := s.asm.place }).complete :=
    (blockPass_placed (s := s.dropBlock) valid ha hp hoff).trans
      (if_pos ((s.asm.place_full_iff ha hoff).mpr reaches))
  have fit : min s.asm.pendLen.toNat (32 - off) = 32 - off := by omega
  rw [fit] at whole part
  refine ⟨_, exec_nextBlock_done active pass, fun i => ?_,
    fun i => Mem.read_ofBytes_slice _ 32 i, fun i => ?_, ?_, rfl, fun nothingLeft => ?_,
    fun someLeft => ?_, ?_⟩
  · refine (s.asm.read_place off i buf ha hp).trans ?_
    rw [fit, show off + (32 - off) = 32 by omega]
    rfl
  · show Mem.read s.asm.place.pendData i = _
    by_cases h : 32 - off = s.asm.pendLen.toNat
    · rw [whole h, if_neg (by omega)]
    · rw [part h]
      refine (s.asm.read_rest _ _ i pendData).trans ?_
      rw [show s.asm.pendLen.toNat - (32 - off) = left by omega]
  · show s.asm.place.cbs + 32 = _
    rw [cbs]
  · show s.asm.place.pendValid = false ∧ s.asm.place.pendLen = 0 ∧ s.asm.place.pendAddr = 0
    rw [whole (by omega)]
    exact ⟨rfl, rfl, rfl⟩
  · show s.asm.place.pendValid = true ∧ s.asm.place.pendLen.toNat = left ∧
      s.asm.place.pendAddr = _
    rw [part (by omega)]
    refine ⟨valid, ?_, rfl⟩
    show (s.asm.pendLen.toNat - (32 - off)) % 128 = left
    have := s.asm.pendLen.isLt
    omega
  · rw [← cbs]
    rfl

/-- Settles O44: the first pass places the whole record and goes on. -/
theorem nextBlockPlacesAndGoesOn : Obligations.NextBlockPlacesAndGoesOn := by
  unfold Obligations.NextBlockPlacesAndGoesOn
  intro s off canonical active valid ha hp fits
  obtain ⟨-, -, -, -, -, -, -, buf, -⟩ := s.arraysCanonical_iff.mp canonical
  obtain ⟨p, -, whole, -⟩ := s.asm.place_frame off ha
  have fit : min s.asm.pendLen.toNat (32 - off) = s.asm.pendLen.toNat := by omega
  have notFull : ¬ s.asm.place.p = 32 := by
    rw [s.asm.place_full_iff ha (by omega)]
    omega
  have pass : blockPass s.dropBlock = .more { s.dropBlock with asm := s.asm.place } :=
    (blockPass_placed (s := s.dropBlock) valid ha hp (by omega)).trans (if_neg notFull)
  rw [fit] at p whole
  refine ⟨s.asm.place.buf, fun i => ?_, ?_⟩
  · refine (s.asm.read_place off i buf ha hp).trans ?_
    rw [fit]
    rfl
  · refine exec_nextBlock_congr active active ?_
    rw [nextBlockFrom_more pass, whole rfl, p]
    rfl

/-- Settles O45: the first pass fetches, since nothing is pending, and each thing `read_next` can return
but a marker is one clause. -/
theorem nextBlockFetchesARecord : Obligations.NextBlockFetchesARecord := by
  unfold Obligations.NextBlockFetchesARecord
  intro s active valid u
  have done : ∀ {st t}, fetch s.dropBlock = (st, .done t) → exec .nextBlock s = .next t := fun h =>
    exec_nextBlock_done active (blockPass_fetch_done (s := s.dropBlock) valid h)
  refine ⟨fun a st d c h => ⟨fun top => done (fetch_pastTop h top), fun top below inside => ?_,
    fun top above => ?_⟩, fun h => done (fetch_raised h), fun h => done (fetch_endOfStream h)⟩ <;>
    have pass := blockPass_fetch_more (s := s.dropBlock) valid (fetch_data h top)
  · exact exec_nextBlock_done active (pass.trans (placePass_below inside below))
  · have returned : (readNext s.dropBlock).ret ≠ .raised := by
      rw [show (readNext s.dropBlock).ret = _ from h]
      exact nofun
    have quiet : u.status = s.dropBlock.status := ((readNext_outcome s.dropBlock).quiet returned).1
    refine exec_nextBlock_congr active (by rw [quiet]; exact active) ?_
    rw [State.dropBlock_of_not_blkValid (s := { u with ret := .idle, asm := _ }) (by rw [quiet]; rfl)]
    refine nextBlockFrom_congr (pass.trans ?_)
    exact (placePass_offset above st 0).trans (blockPass_pending rfl).symm

/-- Settles O46: the first pass fetches the marker, which ends the sequence. -/
theorem nextBlockEndsTheSequence : Obligations.NextBlockEndsTheSequence := by
  unfold Obligations.NextBlockEndsTheSequence
  intro s active valid u a st ty c h
  have asm : u.asm = s.asm := readNext_asm s.dropBlock
  have blkOut : u.blkOut = s.blkOut := readNext_blkOut s.dropBlock
  have run : exec .nextBlock s = .next (endSequence u.taken) :=
    exec_nextBlock_done active (blockPass_fetch_done (s := s.dropBlock) valid (fetch_eof h))
  refine ⟨fun empty => ?_, fun placed => ⟨_, run.trans (congrArg _ (endSequence_short ?_)),
    fun i => ?_, ?_⟩⟩
  · exact run.trans (congrArg _ (endSequence_empty (by rw [State.taken_asm, asm]; exact empty)))
  · rw [State.taken_asm, asm]
    exact placed
  · rw [← asm]
    exact Mem.read_ofBytes_slice _ _ i
  · rw [← asm, ← blkOut]
    rfl

/-- Settles O40: the two branches on VALIDATED. -/
theorem startAssemblyStartsARun : Obligations.StartAssemblyStartsARun := by
  unfold Obligations.StartAssemblyStartsARun
  refine fun s => ⟨fun validated => ?_, fun unvalidated => congrArg _ (if_pos unvalidated)⟩
  rw [BitVec.ofNat_toNat]
  exact congrArg _ (if_neg (by rw [validated]; exact Bool.noConfusion))

end Sys2Proof

/-! A HEXLINK step runs the pending command (R240), and the reader's commands end with BUSY = 0. -/

namespace Sys2Proof.Machine

theorem State.stepEnabled_iff (s : State) :
    s.stepEnabled = true ↔
      s.status.busy = true ∧ s.status.txWait = false ∧ s.status.rxWait = false := by
  simp [State.stepEnabled, and_assoc]

theorem hexlinkStep_pending {s : State} {i : Instr} (enabled : s.stepEnabled = true)
    (pending : s.pending = .ok i) (runs : runsInSteps i = true) :
    hexlinkStep s = exec i s.startCommand := by
  simp only [hexlinkStep, enabled, pending, runs, if_true]

theorem State.pending_eq {s : State} {opc : BitVec 4} {i : Instr} (h : s.pendingCmd = opc)
    (decoded : decodeCommand (opc.setWidth 32) = .ok i) : s.pending = .ok i := by
  rw [State.pending, h, decoded]

theorem step_hexlink {s : State} (h : s.actions = []) : step s = hexlinkStep s := by
  rw [step, nextAction, h]

/-- R192, R264: with no sequence NEXT_BLOCK only raises. -/
theorem exec_nextBlock_without_sequence {s : State} (active : s.status.asmActive = false)
    (done : s.status.asmDone = false) : exec .nextBlock s = .next (s.raise .sequenceError {}) :=
  congrArg _ ((if_pos active).trans (if_neg (by rw [done]; exact Bool.noConfusion)))

/-! ### The ends of a command -/

theorem Raised.busy {s t : State} (h : Raised s t) : t.status.busy = false := by
  obtain ⟨⟨k, info, ht⟩, -⟩ := h
  rw [ht]
  rfl

theorem BlockDone.busy {s t : State} (h : BlockDone s t) : t.status.busy = false := by
  rw [h.1]

theorem readRecord_busy (s : State) : (readRecord s).status.busy = false := by
  obtain raised | ⟨kind, rdr, out, -, done⟩ := readRecord_ends s
  · exact raised.busy
  · rw [done]

theorem validate_busy (s : State) : (validate s).status.busy = false := by
  cases legal : s.configLegal
  · rw [validate_illegal legal]
    rfl
  · obtain raised | ⟨rdr, out, -, done⟩ := validate_ends legal
    · exact raised.busy
    · rw [done]

theorem nextBlock_busy (s : State) : (nextBlock s).status.busy = false := by
  obtain raised | done | ⟨-, -, unstarted⟩ := nextBlock_ends s
  · exact Raised.busy raised
  · exact done.busy
  · rw [unstarted]
    rfl

end Sys2Proof.Machine

namespace Sys2Proof

open Machine

/-- Settles O41: the command's two branches without a running sequence, and the step that starts it, which
has cleared BLK_VALID. -/
theorem nextBlockOutsideASequence : Obligations.NextBlockOutsideASequence := by
  unfold Obligations.NextBlockOutsideASequence
  intro s active
  refine ⟨fun done => ?_, exec_nextBlock_without_sequence active, fun done busy tx rx cmd act => ?_⟩
  · exact congrArg _ ((if_pos active).trans (if_pos done))
  · rw [step_hexlink act, hexlinkStep_pending (s.stepEnabled_iff.mpr ⟨busy, tx, rx⟩)
      (State.pending_eq cmd rfl) rfl, s.startCommand_of_nextBlock cmd]
    exact exec_nextBlock_without_sequence (s := s.dropBlock) active done

/-- Settles O32: each of the three commands ends by an error or completed, and either clears BUSY. -/
theorem readerCommandsAlwaysFinish : Obligations.ReaderCommandsAlwaysFinish := by
  unfold Obligations.ReaderCommandsAlwaysFinish
  rintro s i (rfl | rfl | rfl)
  · exact ⟨_, rfl, readRecord_busy s⟩
  · exact ⟨_, rfl, validate_busy s⟩
  · exact ⟨_, rfl, nextBlock_busy s⟩

end Sys2Proof

/-! The machine's invariant taken apart: what lasts through a command as well, the flags and registers of a
run, the command unit, and the framer's wait. -/

namespace Sys2Proof.Machine

/-! ### Arrays -/

/-- An array in its canonical form that lists only indices below `n`. -/
structure Mem.Fits (n : Nat) (m : Mem) : Prop where
  wf : m.wf = true
  within : Mem.within n m = true

section

variable {n i : Nat} {m : Mem} {bs : List Byte}

theorem Mem.Fits.nil (n : Nat) : Mem.Fits n [] := ⟨rfl, rfl⟩

theorem Mem.Fits.ofBytes (h : bs.length ≤ n) : Mem.Fits n (Mem.ofBytes bs) :=
  ⟨Mem.ofBytes_wf bs, Mem.ofBytes_within bs h⟩

theorem Mem.Fits.write (h : Mem.Fits n m) (b : Byte) (hi : i < n) : Mem.Fits n (Mem.write m i b) :=
  ⟨Mem.write_wf i b h.wf, Mem.write_within b h.within hi⟩

theorem Mem.Fits.writeBytes (h : Mem.Fits n m) (hi : i + bs.length ≤ n) :
    Mem.Fits n (Mem.writeBytes m i bs) :=
  ⟨Mem.writeBytes_wf i bs h.wf, Mem.writeBytes_within bs h.within hi⟩

end

/-! ### The parts of the invariant -/

/-- What the invariant says inside a command as well as between two actions: the arrays, the ranges of the
registers, the error registers, and what VALIDATED stands for. -/
structure State.Lasting (s : State) : Prop where
  params : s.params.ok = true
  src : Mem.Fits s.params.srcCap s.src
  pkt : Mem.Fits s.params.maxPacketLen s.pkt
  recData : Mem.Fits s.recOut.len.toNat s.recOut.data
  recLen : s.recOut.len.toNat ≤ 64
  blkData : Mem.Fits s.blkOut.count.toNat s.blkOut.data
  blkCount : s.blkOut.count.toNat ≤ 32
  txr : Mem.Fits 65 s.frm.txr
  rxr : Mem.Fits 65 s.rx.rxr
  rxbuf : Mem.Fits s.params.maxRxLen s.rx.rxbuf
  buf : Mem.Fits 32 s.asm.buf
  pendData : Mem.Fits 64 s.asm.pendData
  bases : s.basesLegal = true
  errors : s.errorsLegal = true
  config : s.status.validated = true → s.configLegal = true
  p : s.asm.p.toNat < 32
  pendLen : s.asm.pendLen.toNat ≤ 64
  pending : s.asm.pendValid = true → 1 ≤ s.asm.pendLen.toNat
  block : s.status.blkValid = true → 1 ≤ s.blkOut.count.toNat
  reassembly : s.reassemblyLegal = true

/-- What the invariant says of the flags and the registers of a run. -/
def State.RunLegal (s : State) : Prop := s.runFlagsLegal = true ∧ s.assemblyLegal = true

/-- What the invariant says of the command unit (R25, R45, R240, R250). -/
structure State.UnitLegal (s : State) : Prop where
  waits : s.status.busy = true ∨ (s.status.txWait = false ∧ s.status.rxWait = false)
  oneWait : s.status.txWait = true → s.status.rxWait = false
  command : s.status.busy = true → 1 ≤ s.pendingCmd.toNat ∧ s.pendingCmd.toNat ≤ 8
  tx : s.status.txWait = true → s.pendingCmd = 5
  rx : s.status.rxWait = true → s.pendingCmd = 6
  txIn : s.txIn = none ∨ (s.status.busy = true ∧ s.status.txWait = false ∧ s.pendingCmd = 5)
  rxIn : s.rxIn = none ∨ (s.status.busy = true ∧ s.status.rxWait = false ∧ s.pendingCmd = 6)
  ret : s.ret = .idle

theorem State.arraysSized_iff (s : State) :
    s.arraysSized = true ↔
      Mem.within s.params.srcCap s.src = true ∧ Mem.within s.params.maxPacketLen s.pkt = true ∧
        Mem.within s.recOut.len.toNat s.recOut.data = true ∧ s.recOut.len.toNat ≤ 64 ∧
        Mem.within s.blkOut.count.toNat s.blkOut.data = true ∧ s.blkOut.count.toNat ≤ 32 ∧
        Mem.within 65 s.frm.txr = true ∧ Mem.within 65 s.rx.rxr = true ∧
        Mem.within s.params.maxRxLen s.rx.rxbuf = true ∧ Mem.within 32 s.asm.buf = true ∧
        Mem.within 64 s.asm.pendData = true := by
  simp only [State.arraysSized, Bool.and_eq_true, decide_eq_true_eq, and_assoc]
  rfl

theorem State.unitLegal_iff (s : State) : s.unitLegal = true ↔ s.UnitLegal := by
  simp only [State.unitLegal, Bool.and_eq_true, Bool.or_eq_true, Bool.not_eq_true', beq_iff_eq,
    decide_eq_true_eq, Bool.and_eq_false_iff, imp_of_not_or, Option.isNone_iff_eq_none]
  constructor
  · rintro ⟨⟨⟨⟨⟨⟨⟨h1, h2⟩, h3⟩, h4⟩, h5⟩, h6⟩, h7⟩, h8⟩
    exact ⟨h1, h2, h3, h4, h5, h6.imp_right and_assoc.mp, h7.imp_right and_assoc.mp, h8⟩
  · rintro ⟨h1, h2, h3, h4, h5, h6, h7, h8⟩
    exact ⟨⟨⟨⟨⟨⟨⟨h1, h2⟩, h3⟩, h4⟩, h5⟩, h6.imp_right and_assoc.mpr⟩, h7.imp_right and_assoc.mpr⟩, h8⟩

/-- R181, R249, R25: what each of VALIDATED and ASM_ACTIVE means. -/
theorem State.runFlagsLegal_iff (s : State) :
    s.runFlagsLegal = true ↔
      (s.status.validated = true → s.configLegal = true) ∧
        (s.status.asmActive = true →
          s.status.validated = false ∧ s.status.asmDone = false ∧ s.configLegal = true) := by
  unfold State.runFlagsLegal
  cases s.status.validated <;> cases s.status.asmActive <;> cases s.status.asmDone <;>
    cases s.configLegal <;> decide

theorem State.inv_iff (s : State) :
    s.Inv ↔ s.Lasting ∧ s.RunLegal ∧ s.UnitLegal ∧ s.framingLegal = true := by
  unfold State.Inv
  rw [s.arraysCanonical_iff, s.arraysSized_iff, s.unitLegal_iff]
  constructor
  · rintro ⟨params, ⟨c1, c2, c3, c4, c5, c6, c7, c8, c9⟩,
      ⟨w1, w2, w3, recLen, w4, blkCount, w5, w6, w7, w8, w9⟩, unit, bases, errors, flags, asm, reassembly, framing⟩
    obtain ⟨⟨p, pendLen, pending, block⟩, -⟩ := s.assemblyLegal_iff.mp asm
    exact ⟨⟨params, ⟨c1, w1⟩, ⟨c2, w2⟩, ⟨c3, w3⟩, recLen, ⟨c4, w4⟩, blkCount, ⟨c5, w5⟩, ⟨c6, w6⟩, ⟨c7, w7⟩,
      ⟨c8, w8⟩, ⟨c9, w9⟩, bases, errors, (s.runFlagsLegal_iff.mp flags).1, p, pendLen, pending, block,
      reassembly⟩, ⟨flags, asm⟩, unit, framing⟩
  · rintro ⟨l, ⟨flags, asm⟩, unit, framing⟩
    exact ⟨l.params,
      ⟨l.src.wf, l.pkt.wf, l.recData.wf, l.blkData.wf, l.txr.wf, l.rxr.wf, l.rxbuf.wf, l.buf.wf,
        l.pendData.wf⟩,
      ⟨l.src.within, l.pkt.within, l.recData.within, l.recLen, l.blkData.within, l.blkCount, l.txr.within,
        l.rxr.within, l.rxbuf.within, l.buf.within, l.pendData.within⟩,
      unit, l.bases, l.errors, flags, asm, l.reassembly, framing⟩

/-! ### Runs -/

section

variable {s : State}

/-- With no sequence running there is nothing more to ask of the flags and the assembler. -/
theorem State.Lasting.runLegal_of_inactive (l : s.Lasting) (inactive : s.status.asmActive = false) :
    s.RunLegal :=
  ⟨s.runFlagsLegal_iff.mpr ⟨l.config, fun ha => Bool.noConfusion (inactive.symm.trans ha)⟩,
    s.assemblyLegal_iff.mpr ⟨⟨l.p, l.pendLen, l.pending, l.block⟩,
      fun ha => Bool.noConfusion (inactive.symm.trans ha)⟩⟩

theorem State.Lasting.runLegal_of_running (l : s.Lasting) (validated : s.status.validated = false)
    (done : s.status.asmDone = false) (config : s.configLegal = true) (running : AssemblyRunning s) :
    s.RunLegal :=
  ⟨s.runFlagsLegal_iff.mpr ⟨l.config, fun _ => ⟨validated, done, config⟩⟩,
    s.assemblyLegal_iff.mpr ⟨⟨l.p, l.pendLen, l.pending, l.block⟩, fun _ => running⟩⟩

theorem State.RunLegal.running (r : s.RunLegal) (active : s.status.asmActive = true) :
    s.status.validated = false ∧ s.status.asmDone = false ∧ s.configLegal = true ∧ AssemblyRunning s := by
  obtain ⟨validated, done, config⟩ := (s.runFlagsLegal_iff.mp r.1).2 active
  exact ⟨validated, done, config, (s.assemblyLegal_iff.mp r.2).2 active⟩

end

/-! ### Nothing awaited -/

/-- No report is out or awaited, and nothing is in flight: how every command but FRAME and UNFRAME begins,
and how every command ends. -/
structure State.Calm (s : State) : Prop where
  txWait : s.status.txWait = false
  rxWait : s.status.rxWait = false
  txIn : s.txIn = none
  rxIn : s.rxIn = none
  ret : s.ret = .idle

section

variable {s t : State}

theorem State.UnitLegal.calm_of_idle (u : s.UnitLegal) (idle : s.status.busy = false) : s.Calm := by
  have noBusy : ¬ s.status.busy = true := fun busy => Bool.noConfusion (idle.symm.trans busy)
  obtain ⟨tx, rx⟩ := u.waits.resolve_left noBusy
  exact ⟨tx, rx, u.txIn.resolve_right fun h => noBusy h.1, u.rxIn.resolve_right fun h => noBusy h.1, u.ret⟩

theorem State.UnitLegal.txIn_none (u : s.UnitLegal) (h : s.pendingCmd ≠ 5) : s.txIn = none :=
  u.txIn.resolve_right fun ⟨_, _, frame⟩ => h frame

theorem State.UnitLegal.rxIn_none (u : s.UnitLegal) (h : s.pendingCmd ≠ 6) : s.rxIn = none :=
  u.rxIn.resolve_right fun ⟨_, _, unframe⟩ => h unframe

theorem State.UnitLegal.calm_of_enabled (u : s.UnitLegal) (enabled : s.stepEnabled = true)
    (frame : s.pendingCmd ≠ 5) (unframe : s.pendingCmd ≠ 6) : s.Calm := by
  obtain ⟨-, tx, rx⟩ := s.stepEnabled_iff.mp enabled
  exact ⟨tx, rx, u.txIn_none frame, u.rxIn_none unframe, u.ret⟩

theorem State.Calm.framingLegal (c : s.Calm) : s.framingLegal = true := by
  simp [State.framingLegal, c.txWait, c.txIn]

/-- A calm state meets the invariant when all but the command unit and the framer does. -/
theorem State.Calm.inv (c : s.Calm) (l : s.Lasting) (r : s.RunLegal)
    (command : s.status.busy = true → 1 ≤ s.pendingCmd.toNat ∧ s.pendingCmd.toNat ≤ 8) : s.Inv := by
  refine s.inv_iff.mpr ⟨l, r, ?_, c.framingLegal⟩
  exact
    { waits := .inr ⟨c.txWait, c.rxWait⟩
      oneWait := fun _ => c.rxWait
      command := command
      tx := fun h => Bool.noConfusion (c.txWait.symm.trans h)
      rx := fun h => Bool.noConfusion (c.rxWait.symm.trans h)
      txIn := .inl c.txIn
      rxIn := .inl c.rxIn
      ret := c.ret }

theorem State.Calm.inv_of_idle (c : s.Calm) (l : s.Lasting) (r : s.RunLegal)
    (idle : s.status.busy = false) : s.Inv :=
  c.inv l r fun busy => Bool.noConfusion (idle.symm.trans busy)

/-! ### Errors -/

theorem State.errorsLegal_raise (k : ErrKind) (info : ErrInfo) (s : State) :
    (s.raise k info).errorsLegal = true := by
  cases k <;> rfl

theorem State.Lasting.raise (l : s.Lasting) (k : ErrKind) (info : ErrInfo) : (s.raise k info).Lasting :=
  { l with errors := s.errorsLegal_raise k info }

/-- The error entry of R265 in a command that awaits nothing. -/
theorem State.Lasting.raise_inv (l : s.Lasting) (c : s.Calm) (k : ErrKind) (info : ErrInfo) :
    (s.raise k info).Inv :=
  State.Calm.inv_of_idle { c with txWait := rfl, rxWait := rfl } (l.raise k info)
    ((l.raise k info).runLegal_of_inactive rfl) rfl

theorem Raised.calm (h : Raised s t) (c : s.Calm) : t.Calm := by
  obtain ⟨⟨k, info, ht⟩, ret⟩ := h
  have hr := ret c.ret
  rw [ht]
  exact ⟨rfl, rfl, c.txIn, c.rxIn, hr⟩

theorem Raised.asmActive (h : Raised s t) : t.status.asmActive = false := by
  obtain ⟨⟨k, info, ht⟩, -⟩ := h
  rw [ht]
  rfl

/-! ### `read_next` -/

theorem readNext_errorsLegal (h : s.errorsLegal = true) : (readNext s).errorsLegal = true := by
  by_cases raised : (readNext s).ret = .raised
  · obtain ⟨k, info, hs, -⟩ := (readNext_outcome s).loud raised
    rw [hs]
    exact s.errorsLegal_raise k info
  · obtain ⟨status, err⟩ := (readNext_outcome s).quiet raised
    rw [State.errorsLegal, status, err]
    exact h

theorem State.Lasting.readNext (l : s.Lasting) : (readNext s).Lasting := by
  have bases := readNext_basesLegal l.bases
  have errors := readNext_errorsLegal l.errors
  rw [(readNext_outcome s).frame] at bases errors ⊢
  exact { l with bases := bases, errors := errors }

theorem State.Lasting.taken (l : s.Lasting) : s.taken.Lasting := { l with }

end

end Sys2Proof.Machine

/-! The commands that run no assembly keep the invariant: READ_RECORD, VALIDATE, START_ASSEMBLY and the
control commands, and the reset input. -/

namespace Sys2Proof.Machine

section

variable {s : State}

/-! ### READ_RECORD -/

theorem toNat_ofNat_recLen {d : List Byte} (h : d.length ≤ 64) :
    (BitVec.ofNat 8 d.length).toNat = d.length :=
  Nat.mod_eq_of_lt (by omega)

theorem State.Lasting.putRecord (l : s.Lasting) (kind : BitVec 2) {out : RecordRegs}
    (data : Mem.Fits out.len.toNat out.data) (len : out.len.toNat ≤ 64) :
    (s.putRecord kind out).complete.Lasting :=
  { l with recData := data, recLen := len }

theorem State.Lasting.readRecord (l : s.Lasting) : (readRecord s).Lasting := by
  have start : (readRecordStart s).Lasting := { l with }
  have read := start.readNext
  unfold Machine.readRecord
  split
  · exact start.raise _ _
  dsimp only
  cases hr : (Machine.readNext (readRecordStart s)).ret with
  | idle => exact read
  | raised => exact read.taken
  | data a st d c =>
    have len := (readNext_data _ hr).2
    have n := toNat_ofNat_recLen len
    exact read.taken.putRecord 1 (.ofBytes n.ge) (n.trans_le len)
  | eof a st ty c => exact read.taken.putRecord 2 (.nil _) (Nat.zero_le _)
  | endOfStream => exact read.taken.putRecord 3 (.nil _) (Nat.zero_le _)

theorem readRecord_calm (c : s.Calm) : (readRecord s).Calm := by
  have start : (readRecordStart s).Calm := { c with }
  obtain raised | ⟨kind, rdr, out, -, done⟩ := readRecord_ends s
  · exact raised.calm start
  · rw [done]
    exact { c with ret := rfl }

theorem readRecord_asmActive (s : State) : (readRecord s).status.asmActive = false := by
  obtain raised | ⟨kind, rdr, out, -, done⟩ := readRecord_ends s
  · exact raised.asmActive
  · rw [done]
    rfl

theorem readRecord_inv (l : s.Lasting) (c : s.Calm) : (readRecord s).Inv :=
  (readRecord_calm c).inv_of_idle l.readRecord
    (l.readRecord.runLegal_of_inactive (readRecord_asmActive s)) (readRecord_busy s)

/-! ### VALIDATE -/

theorem State.Lasting.validateLoop {fuel : Nat} {w : ValidatorWork} (l : s.Lasting)
    (config : s.configLegal = true) : (validateLoop fuel w s).Lasting := by
  induction fuel generalizing w s with
  | zero => exact l
  | succ fuel ih =>
    have read := l.readNext.taken
    have legal : (Machine.readNext s).taken.configLegal = true := by
      rw [(readNext_outcome s).frame]
      exact config
    rw [validateLoop_succ]
    cases hr : (Machine.readNext s).ret with
    | idle => exact l.readNext
    | raised => exact read
    | endOfStream => exact read.raise _ _
    | eof a st ty c =>
      dsimp only
      split
      · exact read.raise _ _
      · exact { read with config := fun _ => legal }
    | data a st d c =>
      dsimp only
      split
      · exact read.raise _ _
      · split
        · exact read.raise _ _
        · exact ih read legal

theorem State.Lasting.validate (l : s.Lasting) : (validate s).Lasting := by
  have start : s.invalidate.Lasting := { l with config := Bool.noConfusion }
  cases config : s.configLegal
  · rw [validate_illegal config]
    exact start.raise _ _
  · rw [validate_legal config]
    have reset : s.invalidate.resetReader.Lasting := { start with bases := rfl }
    exact reset.validateLoop config

theorem validate_calm (c : s.Calm) : (validate s).Calm := by
  have start : s.invalidate.resetReader.Calm := { c with }
  cases config : s.configLegal
  · rw [validate_illegal config]
    exact { c with txWait := rfl, rxWait := rfl }
  · obtain raised | ⟨rdr, out, -, done⟩ := validate_ends config
    · exact raised.calm start
    · rw [done]
      exact { c with ret := rfl }

theorem validate_asmActive (s : State) : (validate s).status.asmActive = false := by
  cases config : s.configLegal
  · rw [validate_illegal config]
    rfl
  · obtain raised | ⟨rdr, out, -, done⟩ := validate_ends config
    · exact raised.asmActive
    · rw [done]
      rfl

theorem validate_inv (l : s.Lasting) (c : s.Calm) : (validate s).Inv :=
  (validate_calm c).inv_of_idle l.validate
    (l.validate.runLegal_of_inactive (validate_asmActive s)) (validate_busy s)

/-! ### START_ASSEMBLY -/

/-- The run that starts stands at APP_START with nothing placed or pending (R181). -/
theorem startAssembly_inv (l : s.Lasting) (c : s.Calm) : (startAssembly s).Inv := by
  unfold startAssembly
  split
  · exact l.raise_inv c _ _
  next h =>
  have config : s.configLegal = true := l.config (by simpa using h)
  have width : (s.cfg.appStart.setWidth 33).toNat = s.cfg.appStart.toNat := by
    rw [BitVec.toNat_setWidth]
    omega
  refine State.Calm.inv_of_idle { c with } ?lasting
    (State.Lasting.runLegal_of_running ?lasting rfl rfl config ?running) rfl
  case lasting =>
    exact
      { l with
        blkData := .nil _, blkCount := Nat.zero_le _, bases := rfl, config := Bool.noConfusion
        p := (by decide : 0 < 32), pendLen := Nat.zero_le _, pending := Bool.noConfusion
        block := Bool.noConfusion }
  case running =>
    exact
      { cursor := Nat.zero_le _
        p := rfl
        cbs := width
        top := width.trans_le s.cfg.appStart.isLt.le
        pending := Bool.noConfusion
        block := Bool.noConfusion }

/-! ### Control commands and the reset input -/

theorem rewind_inv (l : s.Lasting) (c : s.Calm) : (rewind s).Inv := by
  have kept : (rewind s).Lasting := { l with bases := rfl }
  exact State.Calm.inv_of_idle { c with } kept
    (kept.runLegal_of_inactive rfl) rfl

theorem clearError_inv (l : s.Lasting) (c : s.Calm) : (clearError s).Inv := by
  have kept : (clearError s).Lasting :=
    { l with errors := rfl, config := Bool.noConfusion, block := Bool.noConfusion }
  exact State.Calm.inv_of_idle { c with } kept
    (kept.runLegal_of_inactive rfl) rfl

/-- Everything at its reset value but the parameters, the configuration, SRC and PKT, LAST_CMD and the
model's own fields. -/
theorem State.reset_inv {params : Params} (ok : params.ok = true) {src pkt : Mem}
    (hsrc : Mem.Fits params.srcCap src) (hpkt : Mem.Fits params.maxPacketLen pkt) (cfg : ConfigRegs)
    (lastCmd : BitVec 4) (actions : List Action) (portOut : Word) (draws : Nat)
    (unseen : List (BitVec 4)) :
    State.Inv
      { params := params, cfg := cfg, src := src, pkt := pkt, status := { lastCmd := lastCmd }
        actions := actions, portOut := portOut, draws := draws, unseen := unseen } := by
  refine State.Calm.inv_of_idle ⟨rfl, rfl, rfl, rfl, rfl⟩ ?lasting
    (State.Lasting.runLegal_of_inactive ?lasting rfl) rfl
  exact
    { params := ok, src := hsrc, pkt := hpkt, recData := .nil _, recLen := Nat.zero_le _
      blkData := .nil _, blkCount := Nat.zero_le _, txr := .nil _, rxr := .nil _, rxbuf := .nil _
      buf := .nil _, pendData := .nil _, bases := rfl, errors := rfl, config := Bool.noConfusion
      p := (by decide : 0 < 32), pendLen := Nat.zero_le _, pending := Bool.noConfusion
      block := Bool.noConfusion
      reassembly := (State.reassemblyLegal_iff _).mpr ⟨le_rfl, Nat.zero_le _, .inr rfl⟩ }

theorem softReset_inv (l : s.Lasting) : (softReset s).Inv :=
  State.reset_inv l.params l.src l.pkt _ _ _ _ _ _

theorem hardReset_inv (l : s.Lasting) : (hardReset s).Inv :=
  State.reset_inv l.params (.ofBytes (List.length_take_le _ _)) (.ofBytes (List.length_take_le _ _))
    _ _ _ _ _ _

end

end Sys2Proof.Machine

/-! NEXT_BLOCK keeps the invariant, and the block it emits stands where R193 has it: one induction over the
passes of the command, from a run in its middle to what the command leaves. -/

namespace Sys2Proof.Machine

/-! ### A run inside NEXT_BLOCK -/

/-- A running sequence inside NEXT_BLOCK: as between two actions, but bytes may be placed, all below 2^32,
and a pending record may lie anywhere below 2^32. -/
structure Assembling (s : State) : Prop where
  lasting : s.Lasting
  active : s.status.asmActive = true
  validated : s.status.validated = false
  done : s.status.asmDone = false
  noBlock : s.status.blkValid = false
  config : s.configLegal = true
  cursor : s.rdr.cursor.toNat ≤ s.cfg.srcLen.toNat
  cbs : s.asm.cbs.toNat = s.cfg.appStart.toNat + 32 * s.blkOut.index.toNat
  top : s.asm.cbs.toNat + s.asm.p.toNat ≤ 4294967296
  pending : s.asm.pendValid = true → s.asm.pendAddr.toNat + s.asm.pendLen.toNat ≤ 4294967296

/-- A block has been emitted on the way from `s` to `t`: the next one of the run, at `s`'s block start. -/
structure Emitted (s t : State) : Prop where
  index : t.blkOut.index.toNat = s.blkOut.index.toNat + 1
  start : t.blkOut.start.toNat = s.asm.cbs.toNat
  full : t.status.asmActive = true → t.blkOut.count.toNat = 32 ∧ t.asm.cbs.toNat = s.asm.cbs.toNat + 32
  last : t.status.asmActive = false → t.status.asmDone = true

/-- What NEXT_BLOCK leaves of a run. -/
structure Assembled (s t : State) : Prop where
  lasting : t.Lasting
  run : t.RunLegal
  emitted : t.status.blkValid = true → Emitted s t

section

variable {s t : State}

/-- A running sequence between two actions, at the start of NEXT_BLOCK. -/
theorem State.RunLegal.assembling (r : s.RunLegal) (l : s.Lasting) (active : s.status.asmActive = true) :
    Assembling s.dropBlock := by
  obtain ⟨validated, done, config, running⟩ := r.running active
  exact
    { lasting := { l with block := Bool.noConfusion }
      active := active, validated := validated, done := done, noBlock := rfl, config := config
      cursor := running.cursor
      cbs := running.cbs
      top := by
        show s.asm.cbs.toNat + s.asm.p.toNat ≤ _
        rw [running.p]
        exact running.top
      pending := fun h => (running.pending h).2 }

/-- `Emitted` looks at the assembler's block start and the block output only. -/
theorem Assembled.of_same_output {u : State} (h : Assembled t u) (cbs : t.asm.cbs = s.asm.cbs)
    (blkOut : t.blkOut = s.blkOut) : Assembled s u where
  lasting := h.lasting
  run := h.run
  emitted hb := by
    obtain ⟨index, start, full, last⟩ := h.emitted hb
    rw [blkOut] at index
    rw [cbs] at start full
    exact ⟨index, start, full, last⟩

/-- An error ends the run without a block. -/
theorem Assembling.raised (h : Assembling s) (lasting : t.Lasting) (raised : Raised s t) :
    Assembled s t where
  lasting := lasting
  run := lasting.runLegal_of_inactive raised.asmActive
  emitted hb := Bool.noConfusion (h.noBlock.symm.trans (raised.block.blkValid.symm.trans hb))

/-- The next block stands at a multiple of 32 (R66, R193). -/
theorem Assembling.aligned (h : Assembling s) : s.asm.cbs.toNat % 32 = 0 := by
  obtain ⟨-, align, -⟩ := s.configLegal_iff.mp h.config
  have := h.cbs
  omega

/-- BLK_INDEX does not wrap: the blocks of a run lie below 2^32. -/
theorem Assembling.index_succ (h : Assembling s) :
    (s.blkOut.index + 1).toNat = s.blkOut.index.toNat + 1 := by
  have cbs := h.cbs
  have top := h.top
  rw [BitVec.toNat_add]
  exact Nat.mod_eq_of_lt (show s.blkOut.index.toNat + 1 < 2 ^ 32 by omega)

theorem toNat_blockStart {cbs : BitVec 33} (room : cbs.toNat < 4294967296) :
    (cbs.setWidth 32).toNat = cbs.toNat := by
  rw [BitVec.toNat_setWidth]
  exact Nat.mod_eq_of_lt room

theorem toNat_nextBlock {cbs : BitVec 33} (room : cbs.toNat < 4294967296) :
    (cbs + 32).toNat = cbs.toNat + 32 := by
  rw [BitVec.toNat_add]
  exact Nat.mod_eq_of_lt (show cbs.toNat + 32 < 2 ^ 33 by omega)

/-- A full block (R185, R189), emitted with the assembler's registers at `x`: what is pending, if anything,
lies at or above the next block. -/
theorem Assembling.emitFull (h : Assembling s) {x : AssemblerRegs} (buf : Mem.Fits 32 x.buf)
    (pendData : Mem.Fits 64 x.pendData) (pendLen : x.pendLen.toNat ≤ 64) (cbs : x.cbs = s.asm.cbs)
    (room : s.asm.cbs.toNat < 4294967296)
    (pending : x.pendValid = true → 1 ≤ x.pendLen.toNat ∧
      s.asm.cbs.toNat + 32 ≤ x.pendAddr.toNat ∧ x.pendAddr.toNat + x.pendLen.toNat ≤ 4294967296) :
    Assembled s (emitFull { s with asm := x }).complete := by
  have nextStart : (x.cbs + 32).toNat = s.asm.cbs.toNat + 32 := by rw [cbs, toNat_nextBlock room]
  have start : (x.cbs.setWidth 32).toNat = s.asm.cbs.toNat := by rw [cbs, toNat_blockStart room]
  have lasting : (Machine.emitFull { s with asm := x }).complete.Lasting :=
    { h.lasting with
      blkData := .ofBytes (Mem.slice_length _ _ _).le, blkCount := le_rfl, buf := buf
      pendData := pendData, p := (by decide : 0 < 32), pendLen := pendLen
      pending := fun hv => (pending hv).1, block := fun _ => (by decide : 1 ≤ 32) }
  refine ⟨lasting, lasting.runLegal_of_running h.validated h.done h.config ?running, fun _ => ?emitted⟩
  case running =>
    have align := h.aligned
    exact
      { cursor := h.cursor
        p := rfl
        cbs := by
          show (x.cbs + 32).toNat = s.cfg.appStart.toNat + 32 * (s.blkOut.index + 1).toNat
          rw [nextStart, h.index_succ, h.cbs]
          omega
        top := nextStart.trans_le (by omega)
        pending := fun hv => ⟨nextStart.trans_le (pending hv).2.1, (pending hv).2.2⟩
        block := fun _ => ⟨rfl, (congrArg (· + 32) start).trans nextStart.symm⟩ }
  case emitted =>
    exact
      { index := h.index_succ
        start := start
        full := fun _ => ⟨rfl, nextStart⟩
        last := fun inactive => Bool.noConfusion (h.active.symm.trans inactive) }

/-! ### Placing -/

theorem AssemblerRegs.padToEnd_fits {x : AssemblerRegs} (h : Mem.Fits 32 x.buf) (hp : x.p.toNat ≤ 32) :
    Mem.Fits 32 x.padToEnd.buf :=
  h.writeBytes (by rw [List.length_replicate, Config.blockSize]; omega)

theorem AssemblerRegs.place_fits {x : AssemblerRegs} (buf : Mem.Fits 32 x.buf)
    (pendData : Mem.Fits 64 x.pendData) (pendLen : x.pendLen.toNat ≤ 64)
    (above : x.cbs.toNat + x.p.toNat ≤ x.pendAddr.toNat)
    (inside : x.pendAddr.toNat < x.cbs.toNat + 32) :
    Mem.Fits 32 x.place.buf ∧ Mem.Fits 64 x.place.pendData := by
  have padded : Mem.Fits 32 (Mem.writeBytes x.buf x.p.toNat
      (List.replicate (x.pendAddr.toNat - x.cbs.toNat - x.p.toNat) Config.nopByte)) :=
    buf.writeBytes (by rw [List.length_replicate]; omega)
  unfold AssemblerRegs.place Config.blockSize
  dsimp only
  split
  · exact ⟨padded.writeBytes (by rw [Mem.slice_length]; omega), pendData⟩
  · exact ⟨padded.writeBytes (by rw [Mem.slice_length]; omega),
      pendData.writeBytes (by rw [Mem.slice_length]; omega)⟩

/-- What placement leaves when the record reaches the end of its block: nothing pending, or the rest of the
record at the next block (R188). -/
theorem AssemblerRegs.place_rest {x : AssemblerRegs} {off : Nat}
    (ha : x.pendAddr.toNat = x.cbs.toNat + off) (hoff : off < 32)
    (reaches : 32 ≤ off + x.pendLen.toNat) (pendLen : x.pendLen.toNat ≤ 64)
    (top : x.pendAddr.toNat + x.pendLen.toNat ≤ 4294967296) :
    x.place.pendLen.toNat ≤ 64 ∧
      (x.place.pendValid = true → 1 ≤ x.place.pendLen.toNat ∧
        x.cbs.toNat + 32 ≤ x.place.pendAddr.toNat ∧
        x.place.pendAddr.toNat + x.place.pendLen.toNat ≤ 4294967296) := by
  obtain ⟨-, -, whole, part⟩ := x.place_frame off ha
  by_cases fit : min x.pendLen.toNat (32 - off) = x.pendLen.toNat
  · rw [whole fit]
    exact ⟨Nat.zero_le _, Bool.noConfusion⟩
  · rw [part fit]
    have len : (BitVec.ofNat 7 (x.pendLen.toNat - min x.pendLen.toNat (32 - off))).toNat =
        off + x.pendLen.toNat - 32 := by
      rw [BitVec.toNat_ofNat]
      omega
    have addr : ((x.cbs + 32).setWidth 32).toNat = x.cbs.toNat + 32 := by
      have nextStart := toNat_nextBlock (cbs := x.cbs) (by omega)
      rw [toNat_blockStart (by omega), nextStart]
    dsimp only
    rw [len, addr]
    omega

theorem Assembling.placePass_done {st : Word} (h : Assembling s) (valid : s.asm.pendValid = true)
    (pass : placePass st s = .done t) : Assembled s t := by
  have l := h.lasting
  have top := h.pending valid
  have len := l.pending valid
  by_cases gap : s.asm.cbs.toNat + 32 ≤ s.asm.pendAddr.toNat
  · rw [placePass_gap gap] at pass
    cases pass
    exact h.emitFull (AssemblerRegs.padToEnd_fits l.buf l.p.le) l.pendData l.pendLen rfl (by omega)
      fun _ => ⟨len, gap, top⟩
  have inside := Nat.not_le.mp gap
  by_cases below : s.asm.pendAddr.toNat < s.asm.cbs.toNat + s.asm.p.toNat
  · rw [placePass_below inside below] at pass
    cases pass
    exact h.raised (l.raise _ _) ((Moved.refl s).raise _ _)
  have above := Nat.not_lt.mp below
  rw [placePass_placed inside above] at pass
  split at pass
  · next full =>
    cases pass
    obtain ⟨off, ha⟩ : ∃ off, s.asm.pendAddr.toNat = s.asm.cbs.toNat + off :=
      ⟨_, (Nat.add_sub_cancel' (by omega)).symm⟩
    obtain ⟨buf, pendData⟩ := AssemblerRegs.place_fits l.buf l.pendData l.pendLen above inside
    obtain ⟨pendLen, pending⟩ := AssemblerRegs.place_rest ha (by omega)
      ((s.asm.place_full_iff ha (by omega)).mp full) l.pendLen top
    exact h.emitFull buf pendData pendLen (s.asm.place_frame off ha).2.1 (by omega) pending
  · cases pass

/-- A record placed inside the block leaves the run with nothing pending (R187). -/
theorem Assembling.placePass_more {st : Word} (h : Assembling s) (valid : s.asm.pendValid = true)
    (pass : placePass st s = .more t) :
    Assembling t ∧ t.asm.cbs = s.asm.cbs ∧ t.blkOut = s.blkOut := by
  have l := h.lasting
  have top := h.pending valid
  obtain ⟨ht, inside, above, notFull⟩ := Machine.placePass_more pass
  subst ht
  obtain ⟨off, ha⟩ : ∃ off, s.asm.pendAddr.toNat = s.asm.cbs.toNat + off :=
    ⟨_, (Nat.add_sub_cancel' (by omega)).symm⟩
  obtain ⟨buf, pendData⟩ := AssemblerRegs.place_fits l.buf l.pendData l.pendLen above inside
  obtain ⟨empty, p, fits⟩ := AssemblerRegs.place_notFull (by omega) inside notFull
  obtain ⟨-, cbs, whole, -⟩ := s.asm.place_frame off ha
  have pendLen : s.asm.place.pendLen = 0 := by rw [whole (by omega)]
  have noneValid : ∀ {q : Prop}, s.asm.place.pendValid = true → q := fun hv =>
    Bool.noConfusion (empty.symm.trans hv)
  refine ⟨?_, cbs, rfl⟩
  exact
    { h with
      lasting :=
        { l with
          buf := buf, pendData := pendData, p := p.trans_lt fits, pending := noneValid
          pendLen := by
            show s.asm.place.pendLen.toNat ≤ 64
            rw [pendLen]
            exact Nat.zero_le _ }
      cbs := (congrArg BitVec.toNat cbs).trans h.cbs
      top := by
        show s.asm.place.cbs.toNat + s.asm.place.p.toNat ≤ _
        rw [cbs, p]
        omega
      pending := noneValid }

/-! ### Fetching -/

/-- A record has been read, and the run goes on from where the reader stands. -/
theorem Assembling.read (h : Assembling s) (quiet : (readNext s).ret ≠ .raised)
    (more : (readNext s).ret ≠ .endOfStream) : Assembling (readNext s).taken := by
  have lasting := h.lasting.readNext.taken
  have cursor := (readNext_progress s quiet more).2
  rw [readNext_taken_quiet quiet] at lasting ⊢
  exact { h with lasting := lasting, cursor := cursor }

/-- The end of the sequence (R184): the short block, if bytes are placed, is the last. -/
theorem Assembling.endSequence (h : Assembling s) : Assembled s (endSequence s) := by
  by_cases empty : s.asm.p = 0
  · rw [endSequence_empty empty]
    have lasting : State.Lasting (State.complete
        { s with status := { s.status with asmActive := false, asmDone := true } }) :=
      { h.lasting with }
    exact ⟨lasting, lasting.runLegal_of_inactive rfl, fun hb =>
      Bool.noConfusion (h.noBlock.symm.trans hb)⟩
  · rw [endSequence_short empty]
    have placed : 1 ≤ s.asm.p.toNat := by
      by_contra none
      exact empty (BitVec.eq_of_toNat_eq (show s.asm.p.toNat = 0 by omega))
    have top := h.top
    refine ⟨?lasting, State.Lasting.runLegal_of_inactive ?lasting rfl, fun _ => ?emitted⟩
    case lasting =>
      exact
        { h.lasting with
          blkData := .ofBytes (Mem.slice_length _ _ _).le, blkCount := h.lasting.p.le
          block := fun _ => placed }
    case emitted =>
      exact ⟨h.index_succ, toNat_blockStart (by omega), Bool.noConfusion, fun _ => rfl⟩

theorem Assembling.fetch_done {st : Word} (h : Assembling s) (hf : fetch s = (st, .done t)) :
    Assembled s t := by
  have read := h.lasting.readNext.taken
  cases hr : (readNext s).ret with
  | idle => exact absurd hr (readNext_returns s)
  | raised =>
    rw [fetch_raised hr] at hf
    cases hf
    exact h.raised read (readNext_raised hr)
  | endOfStream =>
    rw [fetch_endOfStream hr] at hf
    cases hf
    exact h.raised (read.raise _ _) ((readNext_moved (hr.trans_ne nofun)).raise _ _)
  | eof a st ty c =>
    rw [fetch_eof hr] at hf
    cases hf
    have run := h.read (hr.trans_ne nofun) (hr.trans_ne nofun)
    exact run.endSequence.of_same_output (congrArg AssemblerRegs.cbs (readNext_asm s)) (readNext_blkOut s)
  | data a st d c =>
    by_cases top : 4294967296 < a.toNat + d.length
    · rw [fetch_pastTop hr top] at hf
      cases hf
      exact h.raised (read.raise _ _) ((readNext_moved (hr.trans_ne nofun)).raise _ _)
    · rw [fetch_data hr (Nat.not_lt.mp top)] at hf
      cases hf

/-- A fetched record is pending, wherever it lies below 2^32 (R183, R191). -/
theorem Assembling.fetch_more {st : Word} (h : Assembling s) (hf : fetch s = (st, .more t)) :
    Assembling t ∧ t.asm.pendValid = true ∧ t.asm.cbs = s.asm.cbs ∧ t.blkOut = s.blkOut := by
  obtain ⟨a, d, c, hr, top, ht, -⟩ := Machine.fetch_more hf
  subst ht
  have read := h.read (hr.trans_ne nofun) (hr.trans_ne nofun)
  obtain ⟨nonempty, len⟩ := readNext_data s hr
  have pendLen : (BitVec.ofNat 7 d.length).toNat = d.length := Nat.mod_eq_of_lt (by omega)
  have below : a.toNat + d.length ≤ 4294967296 := Nat.not_lt.mp (of_decide_eq_false top)
  refine ⟨?_, rfl, rfl, readNext_blkOut s⟩
  have l := h.lasting
  exact
    { read with
      lasting :=
        { read.lasting with
          buf := l.buf, pendData := l.pendData.writeBytes (by omega), p := l.p
          pendLen := pendLen.trans_le len, pending := fun _ => nonempty.trans_eq pendLen.symm }
      cbs := by
        have := read.cbs
        rw [State.taken_asm, readNext_asm] at this
        exact this
      top := h.top
      pending := fun _ => by
        show a.toNat + (BitVec.ofNat 7 d.length).toNat ≤ _
        rw [pendLen]
        exact below }

/-! ### The command -/

theorem Assembling.blockPass_done (h : Assembling s) (pass : blockPass s = .done t) : Assembled s t := by
  cases valid : s.asm.pendValid
  · cases hf : fetch s with | mk st q => ?_
    cases q with
    | done u =>
      rw [blockPass_fetch_done valid hf] at pass
      cases pass
      exact h.fetch_done hf
    | more u =>
      rw [blockPass_fetch_more valid hf] at pass
      obtain ⟨hu, pending, cbs, blkOut⟩ := h.fetch_more hf
      exact (hu.placePass_done pending pass).of_same_output cbs blkOut
  · rw [blockPass_pending valid] at pass
    exact h.placePass_done valid pass

theorem Assembling.blockPass_more (h : Assembling s) (pass : blockPass s = .more t) :
    Assembling t ∧ t.asm.cbs = s.asm.cbs ∧ t.blkOut = s.blkOut := by
  cases valid : s.asm.pendValid
  · cases hf : fetch s with | mk st q => ?_
    cases q with
    | done u =>
      rw [blockPass_fetch_done valid hf] at pass
      cases pass
    | more u =>
      rw [blockPass_fetch_more valid hf] at pass
      obtain ⟨hu, pending, cbs, blkOut⟩ := h.fetch_more hf
      obtain ⟨ht, cbs', blkOut'⟩ := hu.placePass_more pending pass
      exact ⟨ht, cbs'.trans cbs, blkOut'.trans blkOut⟩
  · rw [blockPass_pending valid] at pass
    exact h.placePass_more valid pass

theorem Assembling.nextBlockFrom (h : Assembling s) : Assembled s (nextBlockFrom s) :=
  blockLoop_induction (motive := fun s t => Assembling s → Assembled s t)
    (fun _ _ pass h => h.blockPass_done pass)
    (fun _ _ _ pass ih h => by
      obtain ⟨ht, cbs, blkOut⟩ := h.blockPass_more pass
      exact (ih ht).of_same_output cbs blkOut)
    s h

theorem BlockDone.calm (h : BlockDone s t) (c : s.Calm) : t.Calm := by
  obtain ⟨ht, ret⟩ := h
  have hr := ret c.ret
  rw [ht]
  exact ⟨c.txWait, c.rxWait, c.txIn, c.rxIn, hr⟩

theorem nextBlock_calm (c : s.Calm) : (nextBlock s).Calm := by
  have start : s.dropBlock.Calm := { c with }
  obtain raised | done | ⟨-, -, unstarted⟩ := nextBlock_ends s
  · exact Raised.calm raised { c with }
  · exact done.calm start
  · rw [unstarted]
    exact { c with txWait := rfl, rxWait := rfl }

theorem nextBlock_inv (l : s.Lasting) (r : s.RunLegal) (c : s.Calm) : (nextBlock s).Inv := by
  cases active : s.status.asmActive
  · unfold nextBlock
    rw [if_pos active]
    split
    · have kept : s.dropBlock.complete.Lasting := { l with block := Bool.noConfusion }
      exact State.Calm.inv_of_idle { c with } kept
        (kept.runLegal_of_inactive active) rfl
    · exact l.raise_inv c _ _
  · obtain ⟨lasting, run, -⟩ := (r.assembling l active).nextBlockFrom
    rw [← nextBlock_running active] at lasting run
    exact (nextBlock_calm c).inv_of_idle lasting run (nextBlock_busy s)

end

end Sys2Proof.Machine

namespace Sys2Proof

open Machine

/-- Settles O47: the block start is a multiple of 32 above APP_START in a running sequence, and what the
command emits there is said by `Emitted`. -/
theorem emittedBlocksAreAlignedAndContiguous : Obligations.EmittedBlocksAreAlignedAndContiguous := by
  unfold Obligations.EmittedBlocksAreAlignedAndContiguous
  intro s t inv active run emits
  obtain ⟨l, r, -, -⟩ := s.inv_iff.mp inv
  have start := r.assembling l active
  rw [exec_nextBlock_running active] at run
  cases run
  obtain ⟨lasting, -, emitted⟩ := start.nextBlockFrom
  obtain ⟨index, place, full, last⟩ := emitted emits
  exact ⟨index, place.trans start.cbs, by rw [place]; exact start.aligned, lasting.block emits,
    lasting.blkCount, full, last⟩

end Sys2Proof

/-! FRAME and UNFRAME keep the invariant, from their start and from an answer or a delivery. -/

namespace Sys2Proof.Machine

section

variable {s : State}

/-! ### FRAME -/

/-- `report(k, n, L)` (R95, R212): the report that carries packet bytes `56k` on. -/
def State.report (s : State) (k n : Nat) : List Byte :=
  if n = 1 then lengthReport s.cfg.markers.single s.cfg.pktLen (s.packetChunk k)
  else if k = 0 then lengthReport s.cfg.markers.first s.cfg.pktLen (s.packetChunk k)
  else if k + 1 < n then dataReport s.cfg.markers.middle (s.packetChunk k)
  else dataReport s.cfg.markers.last (s.packetChunk k)

theorem putReport_eq (k n : Nat) (s : State) : putReport k n s = s.putTxr (s.report k n) := by
  unfold putReport State.report
  split
  · rfl
  · split
    · rfl
    · split <;> rfl

theorem State.report_length (s : State) (k n : Nat) : (s.report k n).length = 65 := by
  unfold State.report
  split
  · exact padReport_length _
  · split
    · exact padReport_length _
    · split <;> exact padReport_length _

/-- `framingLegal` with the report itself. -/
theorem State.framingLegal_eq (s : State) :
    s.framingLegal =
      (!(s.status.txWait || s.txIn.isSome) ||
        (markersDistinct s.cfg.markers && decide (s.cfg.pktLen.toNat ≤ s.params.maxPacketLen) &&
          decide (s.frm.segTotal.toNat = segmentCount s.cfg.pktLen.toNat) &&
          decide (s.frm.segIndex.toNat < s.frm.segTotal.toNat) &&
          Mem.ofBytes (s.report s.frm.segIndex.toNat s.frm.segTotal.toNat) == s.frm.txr)) := by
  unfold State.framingLegal
  rw [putReport_eq]
  rfl

theorem toNat_segmentCount (len : Word) :
    (BitVec.ofNat 32 (segmentCount len.toNat)).toNat = segmentCount len.toNat := by
  refine Nat.mod_eq_of_lt ?_
  by_cases short : len.toNat ≤ 56
  · rw [segmentCount_one short]
    decide
  · have := segmentCount_many (Nat.not_le.mp short)
    omega

theorem segmentCount_pos (len : Nat) : 0 < segmentCount len := by
  by_cases short : len ≤ 56
  · rw [segmentCount_one short]
    exact Nat.one_pos
  · have := segmentCount_many (Nat.not_le.mp short)
    omega

theorem transferDone_inv (l : s.Lasting) (r : s.RunLegal) (c : s.Calm) : s.transferDone.Inv :=
  State.Calm.inv_of_idle { c with } { l with } r rfl

section

variable (l : s.Lasting) (r : s.RunLegal) (c : s.Calm) (busy : s.status.busy = true)
  (command : s.pendingCmd = 5)

include l r c busy command

/-- FRAME waits with report `k` on TX (R211, R213). -/
theorem present_inv (distinct : markersDistinct s.cfg.markers = true)
    (len : s.cfg.pktLen.toNat ≤ s.params.maxPacketLen)
    (total : s.frm.segTotal.toNat = segmentCount s.cfg.pktLen.toNat) {k : Nat}
    (hk : k < s.frm.segTotal.toNat) : (present k s.frm.segTotal.toNat s).Inv := by
  have index : (BitVec.ofNat 32 k).toNat = k := Nat.mod_eq_of_lt (hk.trans s.frm.segTotal.isLt)
  unfold present
  rw [putReport_eq]
  refine (State.inv_iff _).mpr ⟨?lasting, r, ?unit, (State.framingLegal_iff _).mpr fun _ =>
    ⟨distinct, len, total, index.trans_lt hk, ?txr⟩⟩
  case lasting => exact { l with txr := .ofBytes (State.report_length _ _ _).le }
  case unit =>
    exact
      { waits := .inl busy
        oneWait := fun _ => c.rxWait
        command := fun _ => by
          show 1 ≤ s.pendingCmd.toNat ∧ s.pendingCmd.toNat ≤ 8
          rw [command]
          decide
        tx := fun _ => command
        rx := fun h => Bool.noConfusion (c.rxWait.symm.trans h)
        txIn := .inl c.txIn
        rxIn := .inl c.rxIn
        ret := c.ret }
  case txr =>
    rw [putReport_eq]
    show Mem.ofBytes (State.report s (BitVec.ofNat 32 k).toNat s.frm.segTotal.toNat) = _
    rw [index]
    rfl

theorem frameStart_inv : (frameStart s).Inv := by
  have start : State.Lasting { s with status := { s.status with xferDone := false } } := { l with }
  have calm : State.Calm { s with status := { s.status with xferDone := false } } :=
    { c with }
  unfold frameStart
  dsimp only
  split
  · exact start.raise_inv calm _ _
  split
  · exact start.raise_inv calm _ _
  next distinct len =>
  have total := toNat_segmentCount s.cfg.pktLen
  have presented := present_inv (k := 0)
    (s := { s with status := { s.status with xferDone := false }
                   frm := { s.frm with segTotal := BitVec.ofNat 32 (segmentCount s.cfg.pktLen.toNat) } })
    { l with } r { c with } busy command (by simpa using distinct)
    (Nat.not_lt.mp len) total ((segmentCount_pos _).trans_eq total.symm)
  dsimp only at presented
  rw [total] at presented
  exact presented

/-- FRAME acts on the answer a TX action recorded (R218 to R220). -/
theorem frameResume_inv (distinct : markersDistinct s.cfg.markers = true)
    (len : s.cfg.pktLen.toNat ≤ s.params.maxPacketLen)
    (total : s.frm.segTotal.toNat = segmentCount s.cfg.pktLen.toNat) (resp : TxResponse) :
    (frameResume resp s).Inv := by
  cases resp with
  | done =>
    unfold frameResume
    dsimp only
    split
    · next more => exact present_inv l r c busy command distinct len total more
    · exact transferDone_inv l r c
  | failed => exact l.raise_inv c _ _
  | timeout => exact l.raise_inv c _ _
  | garbled => exact l.raise_inv c _ _

end

theorem frame_inv (h : s.Inv) (enabled : s.stepEnabled = true) (command : s.pendingCmd = 5) :
    (frame s).Inv := by
  obtain ⟨l, r, u, framing⟩ := s.inv_iff.mp h
  obtain ⟨busy, tx, rx⟩ := s.stepEnabled_iff.mp enabled
  have rxIn : s.rxIn = none := u.rxIn_none (by rw [command]; decide)
  unfold frame
  cases hin : s.txIn with
  | none => exact frameStart_inv l r ⟨tx, rx, hin, rxIn, u.ret⟩ busy command
  | some resp =>
    obtain ⟨distinct, len, total, -, -⟩ := s.framingLegal_iff.mp framing (.inr (by rw [hin]; rfl))
    exact frameResume_inv (s := { s with txIn := none }) { l with } r ⟨tx, rx, rfl, rxIn, u.ret⟩ busy
      command distinct len total resp

/-! ### UNFRAME -/

theorem rxError_inv (l : s.Lasting) (c : s.Calm) (k : ErrKind) : (rxError k s).Inv := by
  obtain ⟨-, len, -⟩ := s.reassemblyLegal_iff.mp l.reassembly
  have abandoned : State.Lasting { s with rx := { s.rx with count := 0 } } :=
    { l with reassembly := (State.reassemblyLegal_iff _).mpr ⟨Nat.zero_le _, len, .inr rfl⟩ }
  exact abandoned.raise_inv { c with } _ _

/-- What UNFRAME makes of a report's effect: the state it ended in, or the next wait. -/
def Pass.awaited (q : Pass) : State :=
  match q with
  | .done t => t
  | .more t => t.awaitRx

/-- The part of a window that is appended stays within the declared length (R221). -/
theorem State.Lasting.appended_le (l : s.Lasting) (n : Nat) :
    (s.rx.count + BitVec.ofNat 32 (min n (s.rx.len.toNat - s.rx.count.toNat))).toNat =
        s.rx.count.toNat + min n (s.rx.len.toNat - s.rx.count.toNat) ∧
      s.rx.count.toNat + min n (s.rx.len.toNat - s.rx.count.toNat) ≤ s.rx.len.toNat := by
  obtain ⟨count, -, -⟩ := s.reassemblyLegal_iff.mp l.reassembly
  have lt := s.rx.len.isLt
  have le : s.rx.count.toNat + min n (s.rx.len.toNat - s.rx.count.toNat) ≤ s.rx.len.toNat := by omega
  refine ⟨?_, le⟩
  rw [BitVec.toNat_add, BitVec.toNat_ofNat, Nat.add_mod_mod]
  exact Nat.mod_eq_of_lt (le.trans_lt lt)

section

variable (l : s.Lasting) (r : s.RunLegal) (c : s.Calm) (busy : s.status.busy = true)
  (command : s.pendingCmd = 6)

include l r c busy command

/-- UNFRAME waits for a report (R222). -/
theorem awaitRx_inv : s.awaitRx.Inv := by
  have calm : s.framingLegal = true := c.framingLegal
  rw [State.framingLegal_eq] at calm
  refine (State.inv_iff _).mpr ⟨{ l with }, r, ?unit, (State.framingLegal_eq _).trans calm⟩
  case unit =>
    exact
      { waits := .inl busy
        oneWait := fun h => Bool.noConfusion (c.txWait.symm.trans h)
        command := fun _ => by
          show 1 ≤ s.pendingCmd.toNat ∧ s.pendingCmd.toNat ≤ 8
          rw [command]
          decide
        tx := fun h => Bool.noConfusion (c.txWait.symm.trans h)
        rx := fun _ => command
        txIn := .inl c.txIn
        rxIn := .inl c.rxIn
        ret := c.ret }

theorem unframeStart_inv : (unframeStart s).Inv :=
  awaitRx_inv
    { l with reassembly := (State.reassemblyLegal_iff _).mpr ⟨le_rfl, Nat.zero_le _, .inr rfl⟩ } r
    { c with } busy command

theorem appendWindow_inv (window : List Byte) : (appendWindow window s).awaited.Inv := by
  obtain ⟨-, len, -⟩ := s.reassemblyLegal_iff.mp l.reassembly
  obtain ⟨count, le⟩ := l.appended_le Config.segPayload
  unfold appendWindow
  dsimp only
  generalize min Config.segPayload (s.rx.len.toNat - s.rx.count.toNat) = n at count le
  have appended : State.Lasting
      { s with rx := { s.rx with
          rxbuf := Mem.writeBytes s.rx.rxbuf s.rx.count.toNat (window.take n)
          count := s.rx.count + BitVec.ofNat 32 n
          unfIndex := s.rx.unfIndex + 1 } } :=
    { l with
      rxbuf := l.rxbuf.writeBytes ((Nat.add_le_add_left (List.length_take_le _ _) _).trans (le.trans len))
      reassembly := (State.reassemblyLegal_iff _).mpr
        ⟨count.trans_le le, len, .inl (Nat.succ_ne_zero _)⟩ }
  split
  · exact transferDone_inv appended r { c with }
  · exact awaitRx_inv appended r { c with } busy command

theorem rxContinueEffect_inv (window : List Byte) (flag : Byte) :
    (rxContinueEffect window flag s).awaited.Inv := by
  unfold rxContinueEffect
  split
  · exact rxError_inv l c _
  · exact appendWindow_inv l r c busy command window

/-- The first report (R223): nothing has been counted before it. -/
theorem firstInbound_inv (first : s.rx.unfIndex = 0) (report : List Byte) :
    (firstInbound report s).awaited.Inv := by
  unfold firstInbound
  split
  · exact rxError_inv l c _
  split
  · exact rxError_inv l c _
  next declared =>
  obtain ⟨-, -, counted⟩ := s.reassemblyLegal_iff.mp l.reassembly
  have count : s.rx.count = 0 := counted.resolve_left (not_not_intro first)
  have legal : State.Lasting { s with rx := { s.rx with len := ofBe32 (report.drop 2) } } :=
    { l with
      reassembly := (State.reassemblyLegal_iff _).mpr
        ⟨by rw [count]; exact Nat.zero_le _, Nat.not_lt.mp declared, .inr count⟩ }
  exact appendWindow_inv legal r { c with } busy command _

theorem laterInbound_inv (report : List Byte) : (laterInbound report s).awaited.Inv := by
  unfold laterInbound
  split
  · exact rxContinueEffect_inv l r c busy command _ _
  · split <;> exact rxError_inv l c _

theorem unframeResume_inv (d : RxDelivery) : (unframeResume d s).Inv := by
  cases d with
  | timeout => exact rxError_inv l c _
  | report bytes =>
    have received : State.Lasting { s with rx := { s.rx with rxr := Mem.ofBytes (reportBytes bytes) } } :=
      { l with rxr := .ofBytes (padReport_length _).le }
    have calm : State.Calm { s with rx := { s.rx with rxr := Mem.ofBytes (reportBytes bytes) } } :=
      { c with }
    show (Pass.awaited (if s.rx.unfIndex = 0 then firstInbound _ _ else laterInbound _ _)).Inv
    split
    · next first => exact firstInbound_inv received r calm busy command first _
    · exact laterInbound_inv received r calm busy command _

end

theorem unframe_inv (h : s.Inv) (enabled : s.stepEnabled = true) (command : s.pendingCmd = 6) :
    (unframe s).Inv := by
  obtain ⟨l, r, u, -⟩ := s.inv_iff.mp h
  obtain ⟨busy, tx, rx⟩ := s.stepEnabled_iff.mp enabled
  have txIn : s.txIn = none := u.txIn_none (by rw [command]; decide)
  unfold unframe
  cases hin : s.rxIn with
  | none => exact unframeStart_inv l r ⟨tx, rx, txIn, hin, u.ret⟩ busy command
  | some d =>
    exact unframeResume_inv (s := { s with rxIn := none }) { l with } r ⟨tx, rx, txIn, rfl, u.ret⟩ busy
      command d

end

end Sys2Proof.Machine

/-! Every action keeps the invariant (R240): the host's accesses, the transport's, the HEXLINK step and the
reset input. -/

namespace Sys2Proof.Machine

section

variable {s : State}

/-- What the invariant does not look at: two fields of STATUS, and the model's own fields. -/
theorem State.Inv.unobserved (h : s.Inv) (cmdDropped : Bool) (lastCmd : BitVec 4)
    (actions : List Action) (portOut : Word) (draws : Nat) (unseen : List (BitVec 4)) :
    State.Inv
      { s with
        status := { s.status with cmdDropped := cmdDropped, lastCmd := lastCmd }
        actions := actions, portOut := portOut, draws := draws, unseen := unseen } := by
  obtain ⟨params, canonical, sized, unit, bases, errors, flags, asm, reassembly, framing⟩ := h
  rw [State.framingLegal_eq] at framing
  refine ⟨params, canonical, sized, unit, bases, errors, flags, asm, reassembly, ?_⟩
  rw [State.framingLegal_eq]
  exact framing

/-! ### Host accesses -/

/-- The rows of R90: NOP and SOFT_RESET run in their CMD write, the others in steps, by OPC 1 to 8. -/
theorem commandRows_opc :
    ∀ row ∈ commandRows,
      if runsInSteps row.2 then
        1 ≤ (row.1.extractLsb' 0 4).toNat ∧ (row.1.extractLsb' 0 4).toNat ≤ 8
      else row.2 = .nop ∨ row.2 = .softReset := by
  decide

theorem mem_commandRows {w : Word} {i : Instr} (h : decodeCommand w = .ok i) : (w, i) ∈ commandRows := by
  unfold decodeCommand at h
  split at h
  · next row found =>
    cases h
    have word : row.1 = w := by simpa using List.find?_some found
    rw [← word]
    exact List.mem_of_find?_eq_some found
  · cases h

theorem accept_inv (l : s.Lasting) (r : s.RunLegal) (c : s.Calm) {opc : BitVec 4}
    (command : 1 ≤ opc.toNat ∧ opc.toNat ≤ 8) : (s.accept opc).Inv :=
  State.Calm.inv { c with } { l with } r fun _ => command

/-- A command word with BUSY = 0: NOP and SOFT_RESET take effect, any other command is accepted. -/
theorem runCommand_inv (h : s.Inv) (idle : s.status.busy = false) {w : Word} {i : Instr}
    (decoded : decodeCommand w = .ok i) :
    ∃ t, (if runsInSteps i then .next (s.accept (w.extractLsb' 0 4)) else exec i s) = .next t ∧
      t.Inv := by
  obtain ⟨l, r, u, -⟩ := s.inv_iff.mp h
  have row := commandRows_opc _ (mem_commandRows decoded)
  dsimp only at row
  split at row
  · next runs =>
    rw [if_pos runs]
    exact ⟨_, rfl, accept_inv l r (u.calm_of_idle idle) row⟩
  · next runs =>
    rw [if_neg runs]
    obtain rfl | rfl := row
    · exact ⟨_, rfl, h.unobserved _ _ _ _ _ _⟩
    · exact ⟨_, rfl, softReset_inv l⟩

theorem writeCommand_inv (h : s.Inv) (w : Word) : ∃ t, writeCommand w s = .next t ∧ t.Inv := by
  obtain ⟨l, r, u, -⟩ := s.inv_iff.mp h
  unfold writeCommand
  split
  · split
    · exact ⟨_, rfl, softReset_inv l⟩
    · exact ⟨_, rfl, h.unobserved _ _ _ _ _ _⟩
  next idle =>
  have noted : State.Inv { s with status := { s.status with lastCmd := w.extractLsb' 0 4 } } :=
    h.unobserved _ _ _ _ _ _
  dsimp only
  split
  · have c := u.calm_of_idle (by simpa using idle)
    have kept : State.Lasting { s with status := { s.status with lastCmd := w.extractLsb' 0 4 } } :=
      { l with }
    exact ⟨_, rfl, kept.raise_inv { c with } _ _⟩
  · next decoded => exact runCommand_inv noted (by simpa using idle) decoded

/-- An invalidating write (R249) ends every claim about the configuration. -/
theorem putConfig_invalidating_inv (l : s.Lasting) (c : s.Calm) (idle : s.status.busy = false)
    (cfg : ConfigRegs) : State.Inv { s.invalidate with cfg := cfg } := by
  have kept : State.Lasting { s.invalidate with cfg := cfg } := { l with config := Bool.noConfusion }
  exact State.Calm.inv_of_idle { c with } kept (kept.runLegal_of_inactive rfl) idle

theorem putConfig_inv (l : s.Lasting) (r : s.RunLegal) (c : s.Calm) (idle : s.status.busy = false)
    (idx : BitVec 6) (v : Word) : (s.putConfig idx v).Inv := by
  unfold State.putConfig
  split
  · exact putConfig_invalidating_inv l c idle _
  · exact putConfig_invalidating_inv l c idle _
  · exact putConfig_invalidating_inv l c idle _
  · exact State.Calm.inv_of_idle { c with } { l with } r idle
  · exact State.Calm.inv_of_idle { c with } { l with } r idle
  · exact putConfig_invalidating_inv l c idle _
  · exact State.Calm.inv_of_idle { c with } { l with } r idle
  · exact c.inv_of_idle l r idle

theorem putConfig_of_not_configSlot {idx : BitVec 6} (h : configSlot idx = false) (v : Word) :
    s.putConfig idx v = s := by
  unfold State.putConfig
  split
  case h_8 => rfl
  all_goals
    next slot =>
    rw [configSlot, slot] at h
    cases h

theorem writeSlot_inv (h : s.Inv) (idx : BitVec 6) (v : Word) :
    ∃ t, writeSlot idx v s = .next t ∧ t.Inv := by
  obtain ⟨l, r, u, -⟩ := s.inv_iff.mp h
  unfold writeSlot
  split
  · exact writeCommand_inv h v
  split
  · exact ⟨_, rfl, h.unobserved _ _ _ _ _ _⟩
  next notDropped =>
  refine ⟨_, rfl, ?_⟩
  cases busy : s.status.busy
  · exact putConfig_inv l r (u.calm_of_idle busy) busy idx v
  · have outside : configSlot idx = false := by simpa [busy] using notDropped
    rw [putConfig_of_not_configSlot outside]
    exact h

theorem writeElement_inv (h : s.Inv) (a : HostData) (i : Nat) (b : Byte) : (writeElement a i b s).Inv := by
  obtain ⟨l, r, u, -⟩ := s.inv_iff.mp h
  unfold writeElement
  split
  · exact h
  next inside =>
  split
  · exact h.unobserved _ _ _ _ _ _
  next notBusy =>
  have idle : s.status.busy = false := by simpa using notBusy
  have c := u.calm_of_idle idle
  cases a with
  | src =>
    have kept : (s.putElement .src i b).Lasting :=
      { l with src := l.src.write b (Nat.not_le.mp inside), config := Bool.noConfusion }
    exact State.Calm.inv_of_idle { c with } kept (kept.runLegal_of_inactive rfl) idle
  | pkt =>
    exact State.Calm.inv_of_idle { c with } { l with pkt := l.pkt.write b (Nat.not_le.mp inside) } r idle

/-! ### Transport actions -/

/-- The answer is recorded, and FRAME's report stays as it is (R48, R240). -/
theorem respondTx_inv (h : s.Inv) (resp : TxResponse) : (respondTx resp s).Inv := by
  obtain ⟨l, r, u, framing⟩ := s.inv_iff.mp h
  unfold respondTx
  split
  · next tx =>
    have command := u.tx tx
    have rx := u.oneWait tx
    have busy : s.status.busy = true := u.waits.resolve_right fun idle => by
      rw [idle.1] at tx
      cases tx
    rw [State.framingLegal_eq, tx] at framing
    refine (State.inv_iff _).mpr ⟨{ l with }, r, ?unit, ?framing⟩
    case framing =>
      rw [State.framingLegal_eq]
      exact framing
    case unit =>
      exact
        { u with
          waits := .inl busy, oneWait := Bool.noConfusion, tx := Bool.noConfusion
          txIn := .inr ⟨busy, rfl, command⟩ }
  · exact h

theorem deliverRx_inv (h : s.Inv) (d : RxDelivery) : (deliverRx d s).Inv := by
  obtain ⟨l, r, u, framing⟩ := s.inv_iff.mp h
  unfold deliverRx
  split
  · next rx =>
    have command := u.rx rx
    have busy : s.status.busy = true := u.waits.resolve_right fun idle => by
      rw [idle.2] at rx
      cases rx
    rw [State.framingLegal_eq] at framing
    refine (State.inv_iff _).mpr ⟨{ l with }, r, ?unit, ?framing⟩
    case framing =>
      rw [State.framingLegal_eq]
      exact framing
    case unit =>
      exact
        { u with
          waits := .inl busy, oneWait := fun _ => rfl, rx := Bool.noConfusion
          rxIn := .inr ⟨busy, rfl, command⟩ }
  · exact h

/-! ### HEXLINK steps -/

theorem opc_cases : ∀ {c : BitVec 4}, 1 ≤ c.toNat ∧ c.toNat ≤ 8 →
    c = 1 ∨ c = 2 ∨ c = 3 ∨ c = 4 ∨ c = 5 ∨ c = 6 ∨ c = 7 ∨ c = 8 := by
  decide

/-- The pending command of an enabled step runs, and keeps the invariant. -/
theorem exec_pending_inv (h : s.Inv) (enabled : s.stepEnabled = true) :
    ∃ i t, s.pending = .ok i ∧ runsInSteps i = true ∧ exec i s = .next t ∧ t.Inv := by
  obtain ⟨l, r, u, -⟩ := s.inv_iff.mp h
  have calm : s.pendingCmd ≠ 5 ∧ s.pendingCmd ≠ 6 → s.Calm := fun ⟨frame, unframe⟩ =>
    u.calm_of_enabled enabled frame unframe
  obtain opc | opc | opc | opc | opc | opc | opc | opc :=
    opc_cases (u.command (s.stepEnabled_iff.mp enabled).1) <;> rw [opc] at calm
  · exact ⟨.readRecord, _, State.pending_eq opc rfl, rfl, rfl, readRecord_inv l (calm (by decide))⟩
  · exact ⟨.validate, _, State.pending_eq opc rfl, rfl, rfl, validate_inv l (calm (by decide))⟩
  · exact ⟨.startAssembly, _, State.pending_eq opc rfl, rfl, rfl, startAssembly_inv l (calm (by decide))⟩
  · exact ⟨.nextBlock, _, State.pending_eq opc rfl, rfl, rfl, nextBlock_inv l r (calm (by decide))⟩
  · exact ⟨.frame, _, State.pending_eq opc rfl, rfl, rfl, frame_inv h enabled opc⟩
  · exact ⟨.unframe, _, State.pending_eq opc rfl, rfl, rfl, unframe_inv h enabled opc⟩
  · exact ⟨.rewind, _, State.pending_eq opc rfl, rfl, rfl, rewind_inv l (calm (by decide))⟩
  · exact ⟨.clearError, _, State.pending_eq opc rfl, rfl, rfl, clearError_inv l (calm (by decide))⟩

theorem State.RunLegal.dropBlock (r : s.RunLegal) (l : s.Lasting) : s.dropBlock.RunLegal := by
  have kept : s.dropBlock.Lasting := { l with block := Bool.noConfusion }
  cases active : s.status.asmActive
  · exact kept.runLegal_of_inactive active
  · obtain ⟨validated, done, config, running⟩ := r.running active
    exact kept.runLegal_of_running validated done config { running with block := Bool.noConfusion }

/-- The start of a command keeps the invariant: no rule asks that a block be valid. -/
theorem State.Inv.startCommand (h : s.Inv) : s.startCommand.Inv := by
  by_cases opc : s.pendingCmd = 4
  · rw [s.startCommand_of_nextBlock opc]
    obtain ⟨l, r, u, framing⟩ := s.inv_iff.mp h
    rw [State.framingLegal_eq] at framing
    refine (State.inv_iff _).mpr ⟨{ l with block := Bool.noConfusion }, r.dropBlock l, { u with }, ?_⟩
    rw [State.framingLegal_eq]
    exact framing
  · rw [s.startCommand_of_ne opc]
    exact h

theorem hexlinkStep_inv (h : s.Inv) : ∃ t, hexlinkStep s = .next t ∧ t.Inv := by
  cases enabled : s.stepEnabled
  · refine ⟨s, ?_, h⟩
    simp only [hexlinkStep, enabled, Bool.false_eq_true, if_false]
  · obtain ⟨i, t, pending, runs, run, inv⟩ := exec_pending_inv h.startCommand enabled
    exact ⟨t, (hexlinkStep_pending enabled pending runs).trans run, inv⟩

/-! ### Actions -/

theorem perform_inv (h : s.Inv) (a : Action) : ∃ t, perform a s = .next t ∧ t.Inv := by
  cases a with
  | read idx => exact ⟨_, rfl, h.unobserved _ _ _ _ _ _⟩
  | write idx v => exact writeSlot_inv h idx v
  | readb arr i => exact ⟨_, rfl, h.unobserved _ _ _ _ _ _⟩
  | writeb arr i b => exact ⟨_, rfl, writeElement_inv h arr i b⟩
  | tx resp => exact ⟨_, rfl, respondTx_inv h resp⟩
  | rx d => exact ⟨_, rfl, deliverRx_inv h d⟩
  | hexlink => exact hexlinkStep_inv h
  | rst => exact ⟨_, rfl, hardReset_inv (s.inv_iff.mp h).1⟩

end

end Sys2Proof.Machine

namespace Sys2Proof

open Machine

/-- Settles O57: the step performs the next listed action, or a HEXLINK step when none is listed; taking an
action off the list is nothing the invariant looks at. -/
theorem everyStepKeepsTheInvariant : Obligations.EveryStepKeepsTheInvariant := by
  unfold Obligations.EveryStepKeepsTheInvariant
  intro s h
  unfold step nextAction
  split
  · exact hexlinkStep_inv h
  · next a rest _ =>
    exact perform_inv (s := { s with actions := rest }) (h.unobserved _ _ _ _ _ _) a

end Sys2Proof

/-! The outbound reports byte by byte (R87, R214 to R217), and the answers FRAME acts on (R218 to R220). -/

namespace Sys2Proof

/-- `BE32`: byte `i` of a word is its digit of weight `256^(3-i)` (R63). -/
theorem be32_getD (w : Word) {i : Nat} (h : i < 4) :
    (be32 w).getD i 0 = BitVec.ofNat 8 (w.toNat / 256 ^ (3 - i)) := by
  have digit : ∀ k, w.extractLsb' (8 * k) 8 = BitVec.ofNat 8 (w.toNat / 256 ^ k) := fun k => by
    rw [BitVec.extractLsb', Nat.shiftRight_eq_div_pow, Nat.pow_mul]
  match i, h with
  | 0, _ => exact digit 3
  | 1, _ => exact digit 2
  | 2, _ => exact digit 1
  | 3, _ => exact digit 0

/-- A report that holds all it was given: the padding reads 0, as what lies beyond a list does. -/
theorem padReport_getD_of_le {bs : List Byte} (h : bs.length ≤ 65) (i : Nat) :
    (padReport bs).getD i 0 = bs.getD i 0 := by
  refine (padReport_getD bs i).trans ?_
  split
  · rfl
  · exact (List.getD_eq_default _ _ (by omega)).symm

/-- R87, rows Middle and Last. -/
theorem dataReport_getD (marker : Byte) {chunk : List Byte} (h : chunk.length ≤ 56) (i : Nat) :
    (dataReport marker chunk).getD i 0 =
      if i = 0 then 0 else if i = 1 then marker
      else if i < 2 + chunk.length then chunk.getD (i - 2) 0 else 0 := by
  have fits : (0 :: marker :: chunk).length ≤ 65 := by
    simp only [List.length_cons]
    omega
  rw [dataReport, padReport_getD_of_le fits]
  match i with
  | 0 => rfl
  | 1 => rfl
  | i + 2 =>
    show chunk.getD i 0 = if i + 2 < 2 + chunk.length then chunk.getD i 0 else 0
    split
    · rfl
    · exact List.getD_eq_default _ _ (by omega)

/-- R87, rows Single and First: the length field is the beginning of what follows the marker. -/
theorem lengthReport_getD (marker : Byte) (len : Word) {chunk : List Byte} (h : chunk.length ≤ 56)
    (i : Nat) :
    (lengthReport marker len chunk).getD i 0 =
      if i = 0 then 0 else if i = 1 then marker
      else if i < 6 then BitVec.ofNat 8 (len.toNat / 256 ^ (5 - i))
      else if i < 6 + chunk.length then chunk.getD (i - 6) 0 else 0 := by
  have fits : (0 :: marker :: (be32 len ++ chunk)).length ≤ 65 := by
    simp only [List.length_cons, List.length_append, be32_length]
    omega
  rw [lengthReport, padReport_getD_of_le fits]
  match i with
  | 0 => rfl
  | 1 => rfl
  | i + 2 =>
    show (be32 len ++ chunk).getD i 0 =
      if i + 2 < 6 then BitVec.ofNat 8 (len.toNat / 256 ^ (5 - (i + 2)))
      else if i + 2 < 6 + chunk.length then chunk.getD (i + 2 - 6) 0 else 0
    by_cases field : i < 4
    · rw [if_pos (by omega), List.getD_append _ _ _ _ field, be32_getD len field]
      congr 3
      omega
    · rw [if_neg (by omega), List.getD_append_right _ _ _ _ (Nat.not_lt.mp field)]
      show chunk.getD (i - 4) 0 = _
      rw [show i + 2 - 6 = i - 4 by omega]
      split
      · rfl
      · exact List.getD_eq_default _ _ (by omega)

namespace Machine

/-- R211: TXR holds the report, and nothing else changes. -/
theorem putTxr_next (s : State) {report : List Byte} {byte : Nat → Byte}
    (h : ∀ i, report.getD i 0 = byte i) :
    ∃ t, (.next (s.putTxr report) : Host.Outcome State Fault Refusal) = .next t ∧
      t = { s with frm := { s.frm with txr := t.frm.txr } } ∧ ∀ i, t.byteAt .txr i = byte i :=
  ⟨_, rfl, rfl, fun i => (Mem.read_ofBytes report i).trans (h i)⟩

/-- A report behind the first is a Middle, or the Last when none follows it (R95). -/
theorem exec_laterReport (s : State) {k n : Nat} (later : k ≠ 0) (h : k < n) :
    exec (if k + 1 < n then .segMiddle (s.packetChunk k) else .segLast (s.packetChunk k)) s =
      .next (putReport k n s) := by
  rw [putReport, if_neg (show n ≠ 1 by omega), if_neg later]
  split <;> rfl

/-- FRAME goes on from the answer that was recorded, which it takes (R240). -/
theorem frame_of_answer {s : State} {resp : TxResponse} (h : s.txIn = some resp) :
    frame s = frameResume resp { s with txIn := none } := by
  simp only [frame, h]

/-- R218, R213: a report other than the last is done, and the next one is presented. -/
theorem frameResume_done_next {s : State} (h : s.frm.segIndex.toNat + 1 < s.frm.segTotal.toNat) :
    frameResume .done s =
      let t := putReport (s.frm.segIndex.toNat + 1) s.frm.segTotal.toNat
        { s with frm := { s.frm with segIndex := s.frm.segIndex + 1 } }
      { t with status := { t.status with txWait := true } } := by
  have index : BitVec.ofNat 32 (s.frm.segIndex.toNat + 1) = s.frm.segIndex + 1 := by
    rw [BitVec.ofNat_add, BitVec.ofNat_toNat, BitVec.setWidth_eq]
    rfl
  refine (if_pos h).trans ?_
  rw [present, index]

/-- R218: the last report is done. -/
theorem frameResume_done_last {s : State} (h : s.frm.segTotal.toNat ≤ s.frm.segIndex.toNat + 1) :
    frameResume .done s = s.transferDone := if_neg (Nat.not_lt.mpr h)

end Machine

open Machine

/-- Settles O48: each of the four is the report of R87's table put into TXR, and a chunk of at most 56
bytes leaves it within its 65. -/
theorem segmentReportsByteByByte : Obligations.SegmentReportsByteByByte := by
  unfold Obligations.SegmentReportsByteByByte
  intro s len chunk h
  exact ⟨putTxr_next s (lengthReport_getD _ len h), putTxr_next s (lengthReport_getD _ len h),
    putTxr_next s (dataReport_getD _ h), putTxr_next s (dataReport_getD _ h)⟩

/-- Settles O51: the recorded answer decides; the next report is never the first, so it is a Middle or the
Last. -/
theorem frameActsOnTheAnswer : Obligations.FrameActsOnTheAnswer := by
  unfold Obligations.FrameActsOnTheAnswer
  intro s k n s0 s1
  have run : ∀ {resp}, s.txIn = some resp → exec .frame s = .next (frameResume resp s0) :=
    fun h => congrArg _ (frame_of_answer h)
  refine ⟨fun done more => ?_, fun done last => ?_, run, run, run⟩
  · exact ⟨_, _, exec_laterReport s1 (Nat.succ_ne_zero k) more, run done, frameResume_done_next more⟩
  · exact (run done).trans (congrArg _ (frameResume_done_last last))

end Sys2Proof

/-! A write of CMD (R241, R246, R247) and the control commands (R242 to R245): one equation for each branch
of the command unit's write, and which words lead into it. -/

namespace Sys2Proof.Machine

/-! ### Command words (R90) -/

/-- OPC 1 to 8 are the commands that HEXLINK steps execute. -/
theorem decodeCommand_runsInSteps {w : Word} (lower : 1 ≤ w.toNat) (upper : w.toNat ≤ 8) :
    ∃ i, decodeCommand w = .ok i ∧ runsInSteps i = true := by
  have opc : (w.extractLsb' 0 4).toNat = w.toNat := by
    rw [BitVec.extractLsb'_toNat]
    omega
  have word : w = (w.extractLsb' 0 4).setWidth 32 := by
    apply BitVec.eq_of_toNat_eq
    rw [BitVec.toNat_setWidth, opc]
    omega
  rw [word]
  obtain h | h | h | h | h | h | h | h := opc_cases (c := w.extractLsb' 0 4) (by omega) <;>
    exact h ▸ ⟨_, rfl, rfl⟩

/-- Each row of R90 is a word below 16, and its OPC is none of 9 to 14. -/
theorem commandRows_legal :
    ∀ row ∈ commandRows,
      row.1.extractLsb' 4 28 = 0 ∧
        ¬ (9 ≤ (row.1.extractLsb' 0 4).toNat ∧ (row.1.extractLsb' 0 4).toNat ≤ 14) := by
  decide

/-- R246: a word with a bit of CMD[31:4] set, or with OPC 9 to 14, is none of the table's rows. -/
theorem decodeCommand_illegal {w : Word}
    (h : w.extractLsb' 4 28 ≠ 0 ∨ (9 ≤ (w.extractLsb' 0 4).toNat ∧ (w.extractLsb' 0 4).toNat ≤ 14)) :
    ∃ e, decodeCommand w = .error e := by
  cases decoded : decodeCommand w with
  | error e => exact ⟨e, rfl⟩
  | ok i =>
    obtain ⟨high, opc⟩ := commandRows_legal _ (mem_commandRows decoded)
    exact absurd h (not_or.mpr ⟨not_not.mpr high, opc⟩)

/-! ### The write of CMD -/

section

variable {s : State} {w : Word}

/-- R241: LAST_CMD takes CMD[3:0]. -/
def State.noteLastCmd (s : State) (w : Word) : State :=
  { s with status := { s.status with lastCmd := w.extractLsb' 0 4 } }

theorem step_writeCommand {rest : List Action} (h : s.actions = .write Slot.CMD w :: rest) :
    step s = writeCommand w (s.popped rest) := by
  rw [step, nextAction, h]
  rfl

theorem writeCommand_softReset_of_busy (busy : s.status.busy = true) :
    writeCommand 0x0000000F s = exec .softReset s :=
  (if_pos busy).trans (if_pos rfl)

theorem writeCommand_of_busy (busy : s.status.busy = true) (other : w ≠ 0x0000000F) :
    writeCommand w s = .next s.drop :=
  (if_pos busy).trans (if_neg other)

theorem writeCommand_atOnce (idle : s.status.busy = false) {i : Instr}
    (decoded : decodeCommand w = .ok i) (atOnce : runsInSteps i = false) :
    writeCommand w s = exec i (s.noteLastCmd w) := by
  rw [writeCommand, idle, if_neg Bool.false_ne_true]
  simp only [decoded, atOnce, Bool.false_eq_true, if_false]
  rfl

theorem writeCommand_accepted (idle : s.status.busy = false) {i : Instr}
    (decoded : decodeCommand w = .ok i) (runs : runsInSteps i = true) :
    writeCommand w s = .next ((s.noteLastCmd w).accept (w.extractLsb' 0 4)) := by
  rw [writeCommand, idle, if_neg Bool.false_ne_true]
  simp only [decoded, runs, if_true]
  rfl

theorem writeCommand_illegal (idle : s.status.busy = false) {e : Reject}
    (decoded : decodeCommand w = .error e) :
    writeCommand w s = .next (illegalCommand (s.noteLastCmd w)) := by
  rw [writeCommand, idle, if_neg Bool.false_ne_true]
  simp only [decoded]
  rfl

theorem writeCommand_nop (idle : s.status.busy = false) :
    writeCommand 0x00000000 s = exec .nop (s.noteLastCmd 0x00000000) :=
  writeCommand_atOnce (w := 0x00000000) idle rfl rfl

theorem writeCommand_softReset_of_idle (idle : s.status.busy = false) :
    writeCommand 0x0000000F s = exec .softReset (s.noteLastCmd 0x0000000F) :=
  writeCommand_atOnce (w := 0x0000000F) idle rfl rfl

/-- R245: SOFT_RESET sets every field of STATUS, so the LAST_CMD written before it does not matter. -/
theorem writeCommand_softReset (s : State) : writeCommand 0x0000000F s = exec .softReset s := by
  cases busy : s.status.busy with
  | true => exact writeCommand_softReset_of_busy busy
  | false => exact writeCommand_softReset_of_idle busy

end

end Sys2Proof.Machine

namespace Sys2Proof

open Machine

/-- Settles O6: the word and BUSY select the branch of the CMD write, one lemma for each. -/
theorem commandWriteRunsAcceptsOrDrops : Obligations.CommandWriteRunsAcceptsOrDrops := by
  unfold Obligations.CommandWriteRunsAcceptsOrDrops
  intro s w rest act s0 s1
  rw [step_writeCommand act]
  refine ⟨?reset, ?dropped, ?nop, ?resetIdle, ?accepted, ?illegal⟩
  case reset =>
    rintro - rfl
    exact writeCommand_softReset s0
  case dropped => exact fun busy other => writeCommand_of_busy (s := s0) busy other
  case nop =>
    rintro idle rfl
    exact writeCommand_nop idle
  case resetIdle =>
    rintro idle rfl
    exact writeCommand_softReset_of_idle idle
  case accepted =>
    intro idle lower upper
    obtain ⟨i, decoded, runs⟩ := decodeCommand_runsInSteps lower upper
    exact ⟨_, writeCommand_accepted idle decoded runs⟩
  case illegal =>
    intro idle illegal
    obtain ⟨e, decoded⟩ := decodeCommand_illegal illegal
    exact writeCommand_illegal idle decoded

/-- Settles O16: with BUSY = 0 the write runs NOP, which writes LAST_CMD only; with BUSY = 1 it is
dropped. -/
theorem nopWritesOnlyLastCmd : Obligations.NopWritesOnlyLastCmd := by
  unfold Obligations.NopWritesOnlyLastCmd
  refine fun s => ⟨rfl, fun rest act => ?_⟩
  rw [step_writeCommand act]
  cases busy : s.status.busy with
  | true => exact writeCommand_of_busy busy (by decide)
  | false => exact writeCommand_nop busy

/-- Settles O17: REWIND is `resetReader` and the three fields of STATUS, then `complete`. -/
theorem rewindResetsTheReader : Obligations.RewindResetsTheReader := by
  unfold Obligations.RewindResetsTheReader
  exact fun _ => rfl

/-- Settles O18: CLEAR_ERROR gives the error registers and the flags their values, then `complete`. -/
theorem clearErrorClearsErrorAndRunFlags : Obligations.ClearErrorClearsErrorAndRunFlags := by
  unfold Obligations.ClearErrorClearsErrorAndRunFlags
  exact fun _ => rfl

/-- Settles O19: what SOFT_RESET does not name takes the value it has in `State.reset`, and its CMD write
runs it whatever BUSY is. -/
theorem softResetKeepsConfigurationAndHostData :
    Obligations.SoftResetKeepsConfigurationAndHostData := by
  unfold Obligations.SoftResetKeepsConfigurationAndHostData
  exact fun s => ⟨⟨_, rfl⟩, fun _ act => (step_writeCommand act).trans (writeCommand_softReset _)⟩

end Sys2Proof

namespace Sys2Proof

open Machine

/-- Settles O15: the code recorded is `ErrKind.code`, which agrees with the table of R260 kind by kind, and
the state of R265 is `State.raise` by definition. -/
theorem errorEntryRecordsTheError : Obligations.ErrorEntryRecordsTheError := by
  unfold Obligations.ErrorEntryRecordsTheError
  intro codes k info s
  have code_mem : (k, k.code) ∈ codes := by cases k <;> decide
  exact ⟨k.code, code_mem, rfl⟩

end Sys2Proof

/-! The encodings read back (R80, R87, R88, R90), one lemma for each of the opcode spaces' forms. -/

namespace Sys2Proof

/-! ### Command words -/

/-- A word with CMD[31:4] = 0 is its OPC, zero-extended. -/
theorem eq_setWidth_opc {w : Word} (h : w.extractLsb' 4 28 = 0) : w = (w.extractLsb' 0 4).setWidth 32 := by
  have high : (w.extractLsb' 4 28).toNat = 0 := by
    rw [h]
    rfl
  apply BitVec.eq_of_toNat_eq
  rw [BitVec.toNat_setWidth]
  rw [BitVec.extractLsb'_toNat] at high ⊢
  omega

/-- R90: every OPC but 9 to 14 has a row. -/
theorem decodeCommand_opc :
    ∀ c : BitVec 4, decodeCommand (c.setWidth 32) = .error .illegalCommand →
      9 ≤ c.toNat ∧ c.toNat ≤ 14 := by
  decide

theorem decodeCommand_error {w : Word} {e : Reject} (h : decodeCommand w = .error e) :
    e = .illegalCommand := by
  unfold decodeCommand at h
  split at h <;> cases h
  rfl

/-! ### Records -/

/-- The text of a record of a known type reads back as that record (R80, R82). -/
theorem decodeRecord_encodeFields (t : RecordType) {r : Rec} (h : r.wf = true) :
    decodeRecord (encodeFields t.code r) = .ok (t.instr r) := by
  have fields := decodeFields_encodeFields t.code r [] h
  rw [List.append_nil] at fields
  simp only [decodeRecord, fields, recordType_code]

/-! ### Reports -/

theorem lengthReport_size (marker : Byte) (len : Word) (chunk : List Byte) :
    (lengthReport marker len chunk).length = Config.reportSize := padReport_length _

theorem dataReport_size (marker : Byte) (chunk : List Byte) :
    (dataReport marker chunk).length = Config.reportSize := padReport_length _

theorem lengthReport_marker (marker : Byte) (len : Word) (chunk : List Byte) :
    (lengthReport marker len chunk).getD 1 0 = marker := rfl

theorem dataReport_marker (marker : Byte) (chunk : List Byte) :
    (dataReport marker chunk).getD 1 0 = marker := rfl

/-- The packet bytes of a report with a length field stand behind it, from byte 6 on (R87). -/
theorem lengthReport_chunk (marker : Byte) (len : Word) {chunk : List Byte} {n : Nat}
    (hn : chunk.length = n) (h : n ≤ 56) :
    ((lengthReport marker len chunk).drop 6).take n = chunk := by
  have fits : 6 + n ≤ (0 :: marker :: (be32 len ++ chunk)).length := by
    simp only [List.length_cons, List.length_append, be32_length, hn]
    omega
  rw [lengthReport, padReport_slice _ 6 n fits (by omega)]
  exact List.take_of_length_le hn.le

/-- The packet bytes of a report without one stand behind its marker, from byte 2 on (R87). -/
theorem dataReport_chunk (marker : Byte) {chunk : List Byte} {n : Nat} (hn : chunk.length = n)
    (h : n ≤ 56) : ((dataReport marker chunk).drop 2).take n = chunk := by
  have fits : 2 + n ≤ (0 :: marker :: chunk).length := by
    simp only [List.length_cons, hn]
    omega
  rw [dataReport, padReport_slice _ 2 n fits (by omega)]
  exact List.take_of_length_le hn.le

section

variable {m : Markers} {remaining : Nat} {chunk : List Byte}

theorem decodeOutbound_single {len : Word} (short : len.toNat ≤ 56) (hc : chunk.length = len.toNat) :
    decodeOutbound m remaining (lengthReport m.single len chunk) = .ok (.segSingle len chunk) := by
  rw [decodeOutbound, if_neg (not_not_intro (lengthReport_size ..)), if_pos (lengthReport_marker ..), ofBe32_lengthReport,
    if_pos (show len.toNat ≤ Config.segPayload from short), lengthReport_chunk _ _ hc short]

theorem decodeOutbound_first {len : Word} (other : m.first ≠ m.single) (hc : chunk.length = 56) :
    decodeOutbound m remaining (lengthReport m.first len chunk) = .ok (.segFirst len chunk) := by
  rw [decodeOutbound, if_neg (not_not_intro (lengthReport_size ..)), lengthReport_marker, if_neg other, if_pos rfl,
    ofBe32_lengthReport, Config.segPayload, lengthReport_chunk _ _ hc le_rfl]

theorem decodeOutbound_middle (single : m.middle ≠ m.single) (first : m.middle ≠ m.first)
    (hc : chunk.length = 56) :
    decodeOutbound m remaining (dataReport m.middle chunk) = .ok (.segMiddle chunk) := by
  rw [decodeOutbound, if_neg (not_not_intro (dataReport_size ..)), dataReport_marker, if_neg single, if_neg first, if_pos rfl,
    Config.segPayload, dataReport_chunk _ hc le_rfl]

/-- The receiver knows how many bytes are still to come (log 14). -/
theorem decodeOutbound_last (single : m.last ≠ m.single) (first : m.last ≠ m.first)
    (middle : m.last ≠ m.middle) (hc : chunk.length ≤ 56) :
    decodeOutbound m chunk.length (dataReport m.last chunk) = .ok (.segLast chunk) := by
  rw [decodeOutbound, if_neg (not_not_intro (dataReport_size ..)), dataReport_marker, if_neg single, if_neg first, if_neg middle,
    if_pos rfl, Config.segPayload, Nat.min_eq_left hc, dataReport_chunk _ rfl hc]

/-- A continuation's window stands behind its tag, and its flag behind the window (R88). -/
theorem decodeInbound_continue {window : List Byte} (flag : Byte) (hw : window.length = 56) :
    decodeInbound m (padReport (0 :: m.cont :: (window ++ [flag]))) = .ok (.rxContinue window flag) := by
  have size : (padReport (0 :: m.cont :: (window ++ [flag]))).length = Config.reportSize :=
    padReport_length _
  have tag : (padReport (0 :: m.cont :: (window ++ [flag]))).getD 1 0 = m.cont := rfl
  have data : ((padReport (0 :: m.cont :: (window ++ [flag]))).drop 2).take 56 = window := by
    rw [padReport_slice _ 2 56 (by simp [hw]) (by omega)]
    exact List.take_left' hw
  have last : (padReport (0 :: m.cont :: (window ++ [flag]))).getD 58 0 = flag := by
    rw [padReport_getD_of_le (by simp [hw])]
    show (window ++ [flag]).getD 56 0 = flag
    rw [List.getD_append_right _ _ _ _ hw.le, hw]
    rfl
  rw [decodeInbound, inboundFields, if_neg (not_not_intro size), if_pos tag, Config.segPayload, data, last]

end

theorem markersDistinct_iff (m : Markers) :
    Machine.markersDistinct m = true ↔
      m.single ≠ m.first ∧ m.single ≠ m.middle ∧ m.single ≠ m.last ∧ m.first ≠ m.middle ∧
        m.first ≠ m.last ∧ m.middle ≠ m.last := by
  simp [Machine.markersDistinct, and_assoc]

/-- Settles O1: a command word by its row, a record by its text, a report by its marker, which is none of
the others. -/
theorem decodeOfEncodeIsTheInstruction : Obligations.DecodeOfEncodeIsTheInstruction := by
  unfold Obligations.DecodeOfEncodeIsTheInstruction
  intro m remaining i distinct wf last
  obtain ⟨sf, sm, sl, fm, fl, ml⟩ := (markersDistinct_iff m).mp distinct
  cases i with
  | nop | readRecord | validate | startAssembly | nextBlock | frame | unframe | rewind | clearError
  | softReset => rfl
  | data r => exact decodeRecord_encodeFields .data wf
  | eof r => exact decodeRecord_encodeFields .eof wf
  | esa r => exact decodeRecord_encodeFields .esa wf
  | ssa r => exact decodeRecord_encodeFields .ssa wf
  | ela r => exact decodeRecord_encodeFields .ela wf
  | sla r => exact decodeRecord_encodeFields .sla wf
  | segSingle len chunk =>
    simp only [Instr.wf, Bool.and_eq_true, decide_eq_true_eq] at wf
    exact decodeOutbound_single wf.1 wf.2
  | segFirst len chunk =>
    simp only [Instr.wf, Bool.and_eq_true, decide_eq_true_eq] at wf
    exact decodeOutbound_first sf.symm wf.2
  | segMiddle chunk => exact decodeOutbound_middle sm.symm fm.symm (of_decide_eq_true wf)
  | segLast chunk =>
    simp only [Instr.wf, Bool.and_eq_true, decide_eq_true_eq] at wf
    obtain rfl := last chunk rfl
    exact decodeOutbound_last sl.symm fl.symm ml.symm wf.2
  | rxContinue window flag => exact decodeInbound_continue flag (of_decide_eq_true wf)

/-- Settles O3: a word that no row of the table names has a bit of CMD[31:4] set, or is an OPC without a
row; and no row is such a word. -/
theorem illegalCommandWordsAreRejected : Obligations.IllegalCommandWordsAreRejected := by
  unfold Obligations.IllegalCommandWordsAreRejected
  refine fun w => ⟨fun rejected => ?_, fun outside => ?_⟩
  · by_cases high : w.extractLsb' 4 28 = 0
    · rw [eq_setWidth_opc high] at rejected
      exact .inr (decodeCommand_opc _ rejected)
    · exact .inl high
  · obtain ⟨e, rejected⟩ := Machine.decodeCommand_illegal outside
    rw [rejected, decodeCommand_error rejected]

/-- Settles O2: each word is evaluated. -/
theorem writtenOutWordsDecode : Obligations.WrittenOutWordsDecode := by
  unfold Obligations.WrittenOutWordsDecode
  decide

end Sys2Proof

/-! The record types as instructions (R132 to R138): each is its effect, which the two checks of R140
precede. -/

namespace Sys2Proof.Machine

theorem exec_record (t : RecordType) (r : Rec) (s : State) :
    exec (t.instr r) s = .next (recordEffect t r s) := by
  cases t <;> rfl

/-- A record that passes both checks takes its effect. -/
theorem checkRecord_passed {t : RecordType} {r : Rec} {effect : State → State} {s : State}
    (sum : checksumGood t.code r = true) (len : lengthLegal t r.data.length = true) :
    checkRecord t r effect s = effect s := by
  rw [checkRecord, sum, len, if_neg Bool.noConfusion, if_neg Bool.noConfusion]

theorem dataEffect_bytes {r : Rec} (s : State) (sum : checksumGood 0x00 r = true)
    (some : 1 ≤ r.data.length) (le : r.data.length ≤ 64) :
    dataEffect r s = { acceptRecord r s with
      ret := .data (recordAddress r s) s.rdr.cursor r.data r.cc } := by
  rw [dataEffect, checkRecord_passed (t := .data) sum (decide_eq_true le), if_neg (by omega)]

theorem dataEffect_empty {r : Rec} (s : State) (sum : checksumGood 0x00 r = true) (empty : r.data = []) :
    dataEffect r s = { acceptRecord r s with
      ret := .eof (recordAddress r s) s.rdr.cursor 0x00 r.cc } := by
  rw [dataEffect, checkRecord_passed (t := .data) sum (by rw [empty]; rfl),
    if_pos (List.length_eq_zero_iff.mpr empty)]

theorem eofEffect_empty {r : Rec} (s : State) (sum : checksumGood 0x01 r = true) (empty : r.data = []) :
    eofEffect r s = { acceptRecord r s with
      ret := .eof (recordAddress r s) s.rdr.cursor 0x01 r.cc } := by
  rw [eofEffect, checkRecord_passed (t := .eof) sum (by rw [empty]; rfl)]

/-! ### Extended addresses -/

theorem ofNat_shiftLeft (v k : Nat) : BitVec.ofNat 32 v <<< k = BitVec.ofNat 32 (v * 2 ^ k) := by
  apply BitVec.eq_of_toNat_eq
  rw [BitVec.toNat_shiftLeft, Nat.shiftLeft_eq, BitVec.toNat_ofNat, BitVec.toNat_ofNat, Nat.mod_mul_mod]

section

variable {r : Rec} {s : State} {d0 d1 : Byte} (data : r.data = [d0, d1])

include data

theorem extValue_toNat : (extValue r).toNat = d0.toNat * 256 + d1.toNat := by
  have high := d0.isLt
  have low := d1.isLt
  rw [extValue_eq r d0 d1 data]
  exact Nat.mod_eq_of_lt (by omega)

theorem extValue_shiftLeft (k : Nat) :
    extValue r <<< k = BitVec.ofNat 32 ((d0.toNat * 256 + d1.toNat) * 2 ^ k) := by
  rw [extValue_eq r d0 d1 data, ofNat_shiftLeft]

theorem extLow_shiftLeft (k : Nat) : extLow r <<< k = BitVec.ofNat 32 (d1.toNat * 2 ^ k) := by
  rw [← ofNat_shiftLeft, BitVec.ofNat_toNat, extLow, data]
  rfl

/-- ESA in variant A with a value in its range (R134). -/
theorem esaEffect_inRange (sum : checksumGood 0x02 r = true) (mode : s.cfg.addrMode = 0)
    (lower : 0x1000 ≤ d0.toNat * 256 + d1.toNat) (upper : d0.toNat * 256 + d1.toNat ≤ 0xF000) :
    esaEffect r s = { acceptRecord r s with
      rdr := { (acceptRecord r s).rdr with segBase := extValue r <<< 4 } } := by
  have inRange : ¬ (extValue r < Config.esaMin ∨ Config.esaMax < extValue r) := by
    rw [BitVec.lt_def, BitVec.lt_def, extValue_toNat data, not_or]
    exact ⟨Nat.not_lt.mpr lower, Nat.not_lt.mpr upper⟩
  rw [esaEffect, checkRecord_passed (t := .esa) sum (by rw [data]; rfl), if_pos mode, if_neg inRange]

theorem esaEffect_variantB (sum : checksumGood 0x02 r = true) (mode : s.cfg.addrMode ≠ 0) :
    esaEffect r s = variantBEffect r s := by
  rw [esaEffect, checkRecord_passed (t := .esa) sum (by rw [data]; rfl), if_neg mode]

theorem elaEffect_variantA (sum : checksumGood 0x04 r = true) (mode : s.cfg.addrMode = 0) :
    elaEffect r s = { acceptRecord r s with
      rdr := { (acceptRecord r s).rdr with linBase := extValue r <<< 16 } } := by
  rw [elaEffect, checkRecord_passed (t := .ela) sum (by rw [data]; rfl), if_pos mode]

theorem elaEffect_variantB (sum : checksumGood 0x04 r = true) (mode : s.cfg.addrMode ≠ 0) :
    elaEffect r s = variantBEffect r s := by
  rw [elaEffect, checkRecord_passed (t := .ela) sum (by rw [data]; rfl), if_neg mode]

end

end Sys2Proof.Machine

namespace Sys2Proof

open Machine

/-- Settles O21: the effect of each of the three records, with the address as a number. -/
theorem dataAndEofRecordsAreReturned : Obligations.DataAndEofRecordsAreReturned := by
  unfold Obligations.DataAndEofRecordsAreReturned
  intro r s addr
  have resolved : recordAddress r s = addr := recordAddress_eq r s
  rw [← resolved]
  exact ⟨fun sum some le => congrArg _ (dataEffect_bytes s sum some le),
    fun sum empty => congrArg _ (dataEffect_empty s sum empty),
    fun sum empty => congrArg _ (eofEffect_empty s sum empty)⟩

/-- Settles O22: the value of two data bytes as a number selects the ESA branch, and a shift of it is a
product. -/
theorem extendedRecordsInVariantA : Obligations.ExtendedRecordsInVariantA := by
  unfold Obligations.ExtendedRecordsInVariantA
  intro r s d0 d1 data mode v
  refine ⟨fun sum lower upper => ?_, fun sum outside => ?_, fun sum => ?_⟩
  · rw [← show extValue r <<< 4 = BitVec.ofNat 32 (v * 16) from extValue_shiftLeft data 4]
    exact congrArg _ (esaEffect_inRange data sum mode lower upper)
  · rw [← show extValue r = BitVec.ofNat 32 v from extValue_eq r d0 d1 data]
    exact congrArg _ (recordEffect_badSegment sum data mode outside)
  · rw [← show extValue r <<< 16 = BitVec.ofNat 32 (v * 65536) from extValue_shiftLeft data 16]
    exact congrArg _ (elaEffect_variantA data sum mode)

/-- Settles O23: in variant B both are the effect on LIN_BASE. -/
theorem extendedRecordsInVariantB : Obligations.ExtendedRecordsInVariantB := by
  unfold Obligations.ExtendedRecordsInVariantB
  intro r s d0 d1 data mode t
  have variantB : s.cfg.addrMode ≠ 0 := by
    rw [mode]
    decide
  have effect : variantBEffect r s = t := by
    rw [variantBEffect, extLow_shiftLeft data]
    rfl
  rw [← effect]
  exact ⟨fun sum => congrArg _ (esaEffect_variantB data sum variantB),
    fun sum => congrArg _ (elaEffect_variantB data sum variantB)⟩

/-- Settles O24: behind the checks there is nothing but the acceptance. -/
theorem startRecordsOnlyCount : Obligations.StartRecordsOnlyCount := by
  unfold Obligations.StartRecordsOnlyCount
  intro r s le
  exact ⟨fun sum => congrArg _ (checkRecord_passed (t := .ssa) sum (decide_eq_true le)),
    fun sum => congrArg _ (checkRecord_passed (t := .sla) sum (decide_eq_true le))⟩

/-- Settles O25: the checks precede the effect of every type, the checksum first. -/
theorem recordChecksRaiseTheirErrors : Obligations.RecordChecksRaiseTheirErrors := by
  unfold Obligations.RecordChecksRaiseTheirErrors
  intro t r s
  rw [exec_record]
  exact ⟨fun wrong => congrArg _ (recordEffect_badChecksum wrong s),
    fun sum illegal => congrArg _ (recordEffect_badLength sum (lengthLegal_eq_false illegal) s)⟩

end Sys2Proof

/-! `read_next` at the text where CURSOR stands (R121 to R123), and READ_RECORD's outcomes (R139). -/

namespace Sys2Proof.Machine

section

variable {s : State} {ws text : List Byte}

/-- CURSOR moved on by `n`. -/
theorem State.atCursor_add (s : State) (n : Nat) :
    s.atCursor (s.rdr.cursor.toNat + n) =
      { s with rdr := { s.rdr with cursor := s.rdr.cursor + BitVec.ofNat 32 n } } := by
  rw [State.atCursor, BitVec.ofNat_add, BitVec.ofNat_toNat, BitVec.setWidth_eq]

theorem readNext_of_pass (h : (readPass s.taken).ret ≠ .idle) : readNext s = readPass s.taken :=
  readNext_of_returned (s := s.taken) rfl h

/-- A pass that takes the error entry ends `read_next`. -/
theorem readNext_of_error {k : ErrKind} {info : ErrInfo} {u : State}
    (h : readPass s.taken = recordError k info u) : readNext s = recordError k info u := by
  rw [readNext_of_pass (by rw [h]; exact ReadResult.noConfusion), h]

/-- Whitespace is skipped, then a record of a known type takes its effect (R121, R123). -/
theorem readPass_taken_known {t : RecordType} {r : Rec} (hws : White ws)
    (hs : s.sourceFrom s.rdr.cursor.toNat = ws ++ text) (hd : decodeFields text = .ok (t.code, r)) :
    readPass s.taken = recordEffect t r
      { s with
        ret := .idle
        rdr := { s.rdr with cursor := s.rdr.cursor + BitVec.ofNat 32 ws.length } } :=
  (readPass_known (s := s.taken) hws hs hd).trans (congrArg _ (s.taken.atCursor_add _))

theorem readPass_taken_unknown {tt : Byte} {r : Rec} (hws : White ws)
    (hs : s.sourceFrom s.rdr.cursor.toNat = ws ++ text) (hd : decodeFields text = .ok (tt, r))
    (ht : 5 < tt.toNat) :
    readPass s.taken = unknownTypeEffect tt r
      { s with
        ret := .idle
        rdr := { s.rdr with cursor := s.rdr.cursor + BitVec.ofNat 32 ws.length } } :=
  (readPass_unknown (s := s.taken) hws hs hd (recordType_eq_none ht)).trans
    (congrArg _ (s.taken.atCursor_add _))

theorem unknownTypeEffect_goodChecksum {tt : Byte} {r : Rec} (sum : checksumGood tt r = true) (s : State) :
    unknownTypeEffect tt r s = recordError .unknownRecordType {} s := by
  rw [unknownTypeEffect, sum, if_neg Bool.noConfusion]

/-- Only whitespace is left: CURSOR moves to SRC_LEN (R121). -/
theorem readNext_white (hws : White ws) (hin : s.rdr.cursor.toNat ≤ s.cfg.srcLen.toNat)
    (hs : s.sourceFrom s.rdr.cursor.toNat = ws) :
    readNext s = { s with ret := .endOfStream, rdr := { s.rdr with cursor := s.cfg.srcLen } } := by
  have stop : s.rdr.cursor.toNat + ws.length = s.cfg.srcLen.toNat := by
    rw [← hs, State.sourceFrom_length]
    omega
  have pass : readPass s.taken =
      { s with ret := .endOfStream, rdr := { s.rdr with cursor := s.cfg.srcLen } } := by
    rw [readPass, State.scan_white (s := s.taken) hws hin hs]
    dsimp only [State.taken_rdr]
    rw [stop, State.atCursor, BitVec.ofNat_toNat, BitVec.setWidth_eq]
    rfl
  rw [readNext_of_pass (by rw [pass]; exact ReadResult.noConfusion), pass]

/-- No record's text starts behind the whitespace (R121, R122). -/
theorem readNext_no_record {b : Byte} {more : List Byte} {e : Reject} (hws : White ws)
    (hs : s.sourceFrom s.rdr.cursor.toNat = ws ++ b :: more) (hb : isSpace b = false)
    (he : decodeFields (b :: more) = .error e) :
    readNext s = recordError .syntaxError {}
      { s with rdr := { s.rdr with cursor := s.rdr.cursor + BitVec.ofNat 32 ws.length } } := by
  have pass := readPass_no_record (s := s.taken) hws hs rfl hb he
  rw [State.atCursor_add] at pass
  exact readNext_of_error pass

theorem isSpace_eq_false {b : Byte} (h : ¬ (b = 0x20 ∨ b = 0x09 ∨ b = 0x0D ∨ b = 0x0A)) :
    isSpace b = false :=
  Bool.eq_false_iff.mpr fun space => h ((isSpace_iff b).mp space)

/-- CURSOR above SRC_LEN (log 10). -/
theorem readPass_aboveSource (h : s.cfg.srcLen.toNat < s.rdr.cursor.toNat) :
    readPass s = recordError .syntaxError {} s := by
  have scan : s.scan = .syntaxError s.rdr.cursor.toNat := if_pos h
  have here : s.atCursor s.rdr.cursor.toNat = s := by
    rw [State.atCursor, BitVec.ofNat_toNat, BitVec.setWidth_eq]
  rw [readPass, scan]
  dsimp only
  rw [here]

/-! ### READ_RECORD -/

section

variable {u : State} (legal : s.cfg.srcLen.toNat ≤ s.params.srcCap)
  (next : readNext (readRecordStart s) = u) {a st : Word} {c : Byte}

include legal

theorem srcLenLegal_ne_false : ¬ s.srcLenLegal = false := by
  rw [State.srcLenLegal, decide_eq_true legal]
  exact Bool.noConfusion

include next

theorem readRecord_data {d : List Byte} (h : u.ret = .data a st d c) :
    readRecord s = (u.taken.putRecord 1
      { addr := a, len := BitVec.ofNat 8 d.length, type := 0x00, cks := c,
        data := Mem.ofBytes d }).complete := by
  rw [readRecord, if_neg (srcLenLegal_ne_false legal)]
  simp only [next, h]

theorem readRecord_eof {ty : Byte} (h : u.ret = .eof a st ty c) :
    readRecord s = (u.taken.putRecord 2
      { addr := a, len := 0, type := ty, cks := c }).complete := by
  rw [readRecord, if_neg (srcLenLegal_ne_false legal)]
  simp only [next, h]

theorem readRecord_endOfStream (h : u.ret = .endOfStream) :
    readRecord s = (u.taken.putRecord 3 {}).complete := by
  rw [readRecord, if_neg (srcLenLegal_ne_false legal)]
  simp only [next, h]

theorem readRecord_raised (h : u.ret = .raised) :
    readRecord s = u.taken := by
  rw [readRecord, if_neg (srcLenLegal_ne_false legal)]
  simp only [next, h]

end

end

end Sys2Proof.Machine

namespace Sys2Proof

open Machine

/-- Settles O26: the first pass finds the record behind the whitespace, and what it returns ends the
reading or goes on. -/
theorem readNextRunsTheRecordAtCursor : Obligations.ReadNextRunsTheRecordAtCursor := by
  unfold Obligations.ReadNextRunsTheRecordAtCursor
  intro s ws text tt r white fields source here
  refine ⟨fun t u type run => ?_, fun unknown sum => ?_, fun unknown sum => ?_⟩
  · subst type
    rw [exec_record] at run
    cases run
    rw [readNext_eq, readPass_taken_known white source fields]
  · exact readNext_of_error ((readPass_taken_unknown white source fields unknown).trans (if_pos sum))
  · exact readNext_of_error ((readPass_taken_unknown white source fields unknown).trans
      (unknownTypeEffect_goodChecksum sum here))

/-- Settles O27: the scan reaches SRC_LEN, or a byte at which no record's text starts. -/
theorem readNextEndsOrFindsNoRecord : Obligations.ReadNextEndsOrFindsNoRecord := by
  unfold Obligations.ReadNextEndsOrFindsNoRecord
  intro s ws white inside
  refine ⟨readNext_white white inside, fun b text source nonspace noRecord => ?_⟩
  obtain ⟨e, rejected⟩ : ∃ e, decodeFields (b :: text) = .error e := by
    obtain colon | cut | digit := noRecord
    · exact ⟨.noColon, if_neg colon⟩
    · exact ⟨_, cut⟩
    · exact ⟨_, digit⟩
  exact readNext_no_record white source (isSpace_eq_false nonspace) rejected

/-- Settles O28: the scan stops at CURSOR before it reads a byte. -/
theorem cursorAboveSourceLengthIsASyntaxError : Obligations.CursorAboveSourceLengthIsASyntaxError := by
  unfold Obligations.CursorAboveSourceLengthIsASyntaxError
  exact fun s above => readNext_of_error (readPass_aboveSource (s := s.taken) above)

/-- Settles O30: one lemma for each outcome of `read_next`; what an error keeps is outside what
`read_next` writes. -/
theorem readRecordReportsWhatReadNextReturns : Obligations.ReadRecordReportsWhatReadNextReturns := by
  unfold Obligations.ReadRecordReportsWhatReadNextReturns
  intro s legal u
  have next : readNext (readRecordStart s) = u := rfl
  clear_value u
  refine ⟨fun a st d c h => ?_, fun a st ty c h => ?_, fun h => ?_, fun h => ?_, fun _ => ?_⟩
  · exact congrArg Host.Outcome.next (readRecord_data legal next h)
  · exact congrArg Host.Outcome.next (readRecord_eof legal next h)
  · exact congrArg Host.Outcome.next (readRecord_endOfStream legal next h)
  · exact congrArg Host.Outcome.next (readRecord_raised legal next h)
  · have frame := (readNext_outcome (readRecordStart s)).frame
    rw [next] at frame
    rw [frame]
    exact ⟨rfl, rfl⟩

/-- Settles O29: the first pass returns the data record, which READ_RECORD reports. -/
theorem readRecordReadsADataRecord : Obligations.ReadRecordReadsADataRecord := by
  unfold Obligations.ReadRecordReadsADataRecord
  intro s ws text r legal white fields source sum some le
  have pass := readPass_taken_known (s := readRecordStart s) (t := .data) white source fields
  rw [recordEffect, dataEffect_bytes _ sum some le] at pass
  have next := readNext_of_pass (s := readRecordStart s) (by rw [pass]; exact ReadResult.noConfusion)
  rw [pass] at next
  refine ⟨_, congrArg Host.Outcome.next (readRecord_data legal next rfl), recordAddress_eq r _, toNat_ofNat_recLen le, rfl, rfl,
    Mem.read_ofBytes r.data, rfl, rfl⟩

end Sys2Proof

/-! What the commands that read records leave unchanged (R91), and that they read no byte of SRC at or
beyond SRC_LEN (R40). -/

namespace Sys2Proof.Machine

/-! ### Another content of SRC -/

/-- SRC holds `m`. -/
def State.withSource (s : State) (m : Mem) : State := { s with src := m }

section

variable (s : State) (m : Mem)

@[simp] theorem State.withSource_cfg : (s.withSource m).cfg = s.cfg := rfl
@[simp] theorem State.withSource_status : (s.withSource m).status = s.status := rfl
@[simp] theorem State.withSource_asm : (s.withSource m).asm = s.asm := rfl
@[simp] theorem State.withSource_ret : (s.withSource m).ret = s.ret := rfl

end

def Pass.withSource (q : Pass) (m : Mem) : Pass :=
  match q with
  | .done t => .done (t.withSource m)
  | .more t => .more (t.withSource m)

/-- `m` holds the same bytes below SRC_LEN as SRC. -/
def State.SameSource (s : State) (m : Mem) : Prop :=
  ∀ j, j < s.cfg.srcLen.toNat → Mem.read m j = Mem.read s.src j

section

variable {s : State} {m : Mem}

theorem State.SameSource.of_eq {t : State} (h : s.SameSource m) (cfg : t.cfg = s.cfg)
    (src : t.src = s.src) : t.SameSource m := by
  rwa [State.SameSource, cfg, src]

theorem State.SameSource.taken (h : s.SameSource m) : (readNext s).taken.SameSource m :=
  h.of_eq (readNext_cfg s) (readNext_src s)

/-- What an error of `read_next` leaves, with the error registers as they are. -/
theorem readNext_loud (h : (readNext s).ret = .raised) :
    readNext s = { s with
      rdr := (readNext s).rdr, err := (readNext s).err, ret := .raised
      status := { s.status with
        err := true, asmActive := false, asmDone := false, txWait := false, rxWait := false,
        busy := false } } := by
  obtain ⟨k, info, raised, -⟩ := (readNext_outcome s).loud h
  generalize readNext s = t at raised
  rw [raised]
  rfl

/-- `read_next` answers alike, so each of its two forms is the same in both states (R40, R142). -/
theorem readNext_withSource (h : s.SameSource m) :
    readNext (s.withSource m) = (readNext s).withSource m := by
  have same : SameAnswer (readNext s) (readNext (s.withSource m)) := readNext_same rfl rfl h
  by_cases raised : (readNext s).ret = .raised
  · rw [readNext_loud (same.ret.trans raised), same.rdr, same.err raised]
    exact congrArg (State.withSource · m) (readNext_loud raised).symm
  · rw [readNext_quiet (s := s.withSource m) (by rwa [same.ret]), same.rdr, same.ret]
    exact congrArg (State.withSource · m) (readNext_quiet raised).symm

theorem readRecord_withSource (h : s.SameSource m) :
    readRecord (s.withSource m) = (readRecord s).withSource m := by
  have next : readNext (readRecordStart (s.withSource m)) =
      (readNext (readRecordStart s)).withSource m :=
    readNext_withSource (s := readRecordStart s) h
  cases legal : s.srcLenLegal
  case false => rw [readRecord_illegal legal, readRecord_illegal (s := s.withSource m) legal]; rfl
  case true =>
    rw [readRecord, readRecord, legal, show (s.withSource m).srcLenLegal = true from legal, next]
    generalize readNext (readRecordStart s) = u
    simp only [State.withSource_ret, Bool.true_eq_false, if_false]
    cases u.ret <;> rfl

theorem validateLoop_withSource (fuel : Nat) (w : ValidatorWork) (h : s.SameSource m) :
    validateLoop fuel w (s.withSource m) = (validateLoop fuel w s).withSource m := by
  induction fuel generalizing w s with
  | zero => rfl
  | succ fuel ih =>
    rw [validateLoop_succ, validateLoop_succ, readNext_withSource h]
    have rest := fun w => ih (s := (readNext s).taken) w h.taken
    generalize readNext s = u at rest
    rw [u.withSource_ret]
    cases u.ret with
    | idle | raised | endOfStream => rfl
    | eof a st ty c =>
      dsimp only
      rw [show startAddressWrong w a (u.withSource m) = startAddressWrong w a u from rfl]
      split <;> rfl
    | data a st d c =>
      dsimp only
      rw [show startAddressWrong w a (u.withSource m) = startAddressWrong w a u from rfl,
        State.withSource_cfg]
      split
      · rfl
      · split
        · rfl
        · exact rest _

theorem validate_withSource (h : s.SameSource m) :
    validate (s.withSource m) = (validate s).withSource m := by
  cases legal : s.configLegal
  case false => rw [validate_illegal legal, validate_illegal (s := s.withSource m) legal]; rfl
  case true =>
    rw [validate_legal legal, validate_legal (s := s.withSource m) legal]
    exact validateLoop_withSource (s := s.invalidate.resetReader) _ _ h

theorem placePass_withSource (st : Word) (s : State) (m : Mem) :
    placePass st (s.withSource m) = (placePass st s).withSource m := by
  by_cases gap : s.asm.cbs.toNat + 32 ≤ s.asm.pendAddr.toNat
  · rw [placePass_gap gap, placePass_gap (s := s.withSource m) gap]
    rfl
  have inside := Nat.not_le.mp gap
  by_cases below : s.asm.pendAddr.toNat < s.asm.cbs.toNat + s.asm.p.toNat
  · rw [placePass_below inside below, placePass_below (s := s.withSource m) inside below]
    rfl
  have above := Nat.not_lt.mp below
  rw [placePass_placed inside above, placePass_placed (s := s.withSource m) inside above,
    State.withSource_asm]
  split <;> rfl

theorem endSequence_withSource (s : State) (m : Mem) :
    endSequence (s.withSource m) = (endSequence s).withSource m := by
  by_cases empty : s.asm.p = 0
  · rw [endSequence_empty empty, endSequence_empty (s := s.withSource m) empty]
    rfl
  · rw [endSequence_short empty, endSequence_short (s := s.withSource m) empty]
    rfl

theorem fetch_withSource (h : s.SameSource m) :
    fetch (s.withSource m) = ((fetch s).1, (fetch s).2.withSource m) := by
  unfold fetch
  rw [readNext_withSource h]
  generalize readNext s = u
  dsimp only
  rw [u.withSource_ret]
  cases u.ret with
  | idle | raised | endOfStream => rfl
  | eof a st ty c => exact congrArg (fun t => (st, Pass.done t)) (endSequence_withSource u.taken m)
  | data a st d c =>
    dsimp only
    split <;> rfl

theorem blockPass_withSource (h : s.SameSource m) :
    blockPass (s.withSource m) = (blockPass s).withSource m := by
  unfold blockPass
  rw [fetch_withSource h, State.withSource_asm]
  split
  · exact placePass_withSource 0 s m
  · obtain ⟨st, t | t⟩ := fetch s
    · rfl
    · exact placePass_withSource st t m

theorem blockLoop_withSource (fuel : Nat) (h : s.SameSource m) :
    blockLoop fuel (s.withSource m) = (blockLoop fuel s).withSource m := by
  induction fuel generalizing s with
  | zero => rfl
  | succ fuel ih =>
    unfold blockLoop
    rw [blockPass_withSource h]
    cases pass : blockPass s with
    | done t => rfl
    | more t =>
      have moved := (blockPass_more_moved pass).1
      exact ih (h.of_eq (by rw [moved]) (by rw [moved]))

theorem nextBlock_withSource (h : s.SameSource m) :
    nextBlock (s.withSource m) = (nextBlock s).withSource m := by
  unfold nextBlock
  rw [State.withSource_status]
  split
  · split <;> rfl
  · exact blockLoop_withSource (s := s.dropBlock) _ h

end

/-! ### Frames (R91) -/

theorem readRecord_frame (s : State) :
    readRecord s = { s with
      rdr := (readRecord s).rdr, recOut := (readRecord s).recOut, err := (readRecord s).err
      ret := (readRecord s).ret
      status := { (readRecord s).status with
        cmdDropped := s.status.cmdDropped, validated := s.status.validated
        blkValid := s.status.blkValid, xferDone := s.status.xferDone
        lastCmd := s.status.lastCmd } } := by
  have ends := readRecord_ends s
  generalize readRecord s = t at ends
  obtain ⟨⟨k, info, raised⟩, -⟩ | ⟨kind, rdr, out, -, done⟩ := ends
  · rw [raised]
    rfl
  · rw [done]
    rfl

theorem validate_frame (s : State) :
    validate s = { s with
      rdr := (validate s).rdr, valOut := (validate s).valOut, err := (validate s).err
      ret := (validate s).ret
      status := { (validate s).status with
        cmdDropped := s.status.cmdDropped, blkValid := s.status.blkValid
        xferDone := s.status.xferDone, recKind := s.status.recKind
        lastCmd := s.status.lastCmd } } := by
  cases legal : s.configLegal
  case false =>
    rw [validate_illegal legal]
    rfl
  case true =>
    have ends := validate_ends legal
    generalize validate s = t at ends
    obtain ⟨⟨k, info, raised⟩, -⟩ | ⟨rdr, out, -, done⟩ := ends
    · rw [raised]
      rfl
    · rw [done]
      rfl

theorem nextBlock_frame (s : State) :
    nextBlock s = { s with
      rdr := (nextBlock s).rdr, asm := (nextBlock s).asm, blkOut := (nextBlock s).blkOut
      err := (nextBlock s).err, ret := (nextBlock s).ret
      status := { (nextBlock s).status with
        cmdDropped := s.status.cmdDropped, validated := s.status.validated
        xferDone := s.status.xferDone, recKind := s.status.recKind
        lastCmd := s.status.lastCmd } } := by
  have ends := nextBlock_ends s
  generalize nextBlock s = t at ends
  obtain ⟨⟨k, info, raised⟩, -⟩ | ⟨done, -⟩ | ⟨-, -, unstarted⟩ := ends
  · rw [raised]
    rfl
  · rw [done]
    rfl
  · rw [unstarted]
    rfl

end Sys2Proof.Machine

namespace Sys2Proof

open Machine

/-- Settles O33: the frame of each command, from its ways to end. -/
theorem readerCommandsFrame : Obligations.ReaderCommandsFrame := by
  unfold Obligations.ReaderCommandsFrame
  intro s t
  refine ⟨fun run => ?_, fun run => ?_, fun run => ?_⟩ <;> cases run
  · exact readRecord_frame s
  · exact validate_frame s
  · exact nextBlock_frame s

/-- Settles O34: each command does the same with another content of SRC that agrees below SRC_LEN, since
`read_next` does. -/
theorem sourceBeyondItsLengthIsNeverRead : Obligations.SourceBeyondItsLengthIsNeverRead := by
  unfold Obligations.SourceBeyondItsLengthIsNeverRead
  intro s m i same command t run
  obtain rfl | rfl | rfl := command <;> cases run
  · exact congrArg Host.Outcome.next (readRecord_withSource same)
  · exact congrArg Host.Outcome.next (validate_withSource same)
  · exact congrArg Host.Outcome.next (nextBlock_withSource same)

end Sys2Proof

/-! FRAME's first report (R210, R211) and UNFRAME report by report (R221 to R227). -/

namespace Sys2Proof.Machine

/-! ### Packets -/

theorem State.packetChunk_length_le (s : State) (k : Nat) : (s.packetChunk k).length ≤ 56 := by
  rw [State.packetChunk, Mem.slice_length]
  exact Nat.min_le_left _ _

/-- The first `k` chunks are the packet up to byte `56k`, or all of it. -/
theorem State.packetChunks_upTo (s : State) (k : Nat) :
    (List.range k).flatMap s.packetChunk = Mem.slice s.pkt 0 (min (56 * k) s.cfg.pktLen.toNat) := by
  induction k with
  | zero => rw [Nat.mul_zero, Nat.zero_min]; rfl
  | succ k ih =>
    rw [List.range_succ, List.flatMap_append, ih, List.flatMap_singleton, State.packetChunk,
      Config.segPayload]
    by_cases inside : 56 * k ≤ s.cfg.pktLen.toNat
    · have start : Mem.slice s.pkt (56 * k) = Mem.slice s.pkt (0 + 56 * k) := by rw [Nat.zero_add]
      rw [Nat.min_eq_left inside, start, ← Mem.slice_append]
      congr 1
      omega
    · have empty : min 56 (s.cfg.pktLen.toNat - 56 * k) = 0 := by omega
      rw [empty, Mem.slice, List.append_nil]
      congr 1
      omega

theorem le_segmentCount (len : Nat) : len ≤ 56 * segmentCount len := by
  by_cases short : len ≤ 56
  · rw [segmentCount_one short]
    omega
  · exact (segmentCount_many (Nat.not_le.mp short)).2.2

/-! ### FRAME -/

section

variable {s : State}

/-- R95: report 0 is a Single when the packet fits into one report, and a First otherwise. -/
theorem exec_firstReport (s : State) :
    exec (if s.cfg.pktLen.toNat ≤ 56 then .segSingle s.cfg.pktLen (s.packetChunk 0)
        else .segFirst s.cfg.pktLen (s.packetChunk 0)) s =
      .next (putReport 0 (segmentCount s.cfg.pktLen.toNat) s) := by
  by_cases short : s.cfg.pktLen.toNat ≤ 56
  · rw [if_pos short, putReport, if_pos (segmentCount_one short)]
    rfl
  · have many := (segmentCount_many (Nat.not_le.mp short)).1
    rw [if_neg short, putReport, if_neg (by omega), if_pos rfl]
    rfl

theorem frame_of_none (h : s.txIn = none) : frame s = frameStart s := by
  simp only [frame, h]

theorem frameStart_tooLong (distinct : markersDistinct s.cfg.markers = true)
    (long : s.params.maxPacketLen < s.cfg.pktLen.toNat) :
    frameStart s =
      State.raise .packetLengthError {} { s with status := { s.status with xferDone := false } } :=
  (if_neg (by rw [distinct]; exact Bool.noConfusion)).trans (if_pos long)

/-- FRAME's first wait, with report 0 on TX (R211). -/
theorem frameStart_presents (distinct : markersDistinct s.cfg.markers = true)
    (le : s.cfg.pktLen.toNat ≤ s.params.maxPacketLen) :
    frameStart s =
      let t := putReport 0 (segmentCount s.cfg.pktLen.toNat) { s with
        frm := { s.frm with
          segTotal := BitVec.ofNat 32 (segmentCount s.cfg.pktLen.toNat), segIndex := 0 }
        status := { s.status with xferDone := false } }
      { t with status := { t.status with txWait := true } } :=
  (if_neg (by rw [distinct]; exact Bool.noConfusion)).trans (if_neg (Nat.not_lt.mpr le))

/-! ### Windows (R224, R226) -/

/-- What a window leaves: its bytes appended as far as the declared length asks, and the transfer done
when that is reached. -/
theorem appendWindow_state (window : List Byte) (s : State) :
    (appendWindow window s).state =
      let n := min 56 (s.rx.len.toNat - s.rx.count.toNat)
      let count := s.rx.count + BitVec.ofNat 32 n
      { s with
        rx := { s.rx with
          rxbuf := Mem.writeBytes s.rx.rxbuf s.rx.count.toNat (window.take n)
          count := count, unfIndex := s.rx.unfIndex + 1 }
        status := if count = s.rx.len then { s.status with xferDone := true, busy := false }
          else s.status } := by
  unfold appendWindow Config.segPayload
  dsimp only
  split <;> rfl

/-- Behind a window UNFRAME is done or awaits the next report (R222). -/
theorem appendWindow_awaited (window : List Byte) (s : State) :
    (appendWindow window s).awaited =
      let u := (appendWindow window s).state
      if u.rx.count = u.rx.len then u else u.awaitRx := by
  unfold appendWindow
  dsimp only
  split
  · next reached => exact (if_pos reached).symm
  · next more => exact (if_neg more).symm

theorem toNat_appended (le : s.rx.count.toNat ≤ s.rx.len.toNat) (n : Nat) :
    (s.rx.count + BitVec.ofNat 32 (min n (s.rx.len.toNat - s.rx.count.toNat))).toNat =
      s.rx.count.toNat + min n (s.rx.len.toNat - s.rx.count.toNat) := by
  have lt := s.rx.len.isLt
  rw [BitVec.toNat_add, BitVec.toNat_ofNat, Nat.add_mod_mod]
  exact Nat.mod_eq_of_lt (by omega)

/-- The first `n` bytes of a window written from `start` on, byte by byte. -/
theorem Mem.read_writeWindow {m : Mem} {window : List Byte} (hm : m.wf = true) {n : Nat}
    (h : n ≤ window.length) (start i : Nat) :
    Mem.read (Mem.writeBytes m start (window.take n)) i =
      if start ≤ i ∧ i < start + n then window.getD (i - start) 0 else Mem.read m i := by
  rw [Mem.read_writeBytes _ _ _ hm, List.length_take_of_le h]
  split
  · rw [List.getD_eq_getElem?_getD, List.getElem?_take_of_lt (by omega), List.getD_eq_getElem?_getD]
    rfl
  · rfl

theorem exec_rxContinue_flagged (window : List Byte) {flag : Byte} (h : flag ≠ 0) :
    exec (.rxContinue window flag) s = .next (rxError .robotNoResponse s) :=
  congrArg (fun q : Pass => Host.Outcome.next q.state) (if_pos h)

theorem exec_rxContinue_window (window : List Byte) (s : State) :
    exec (.rxContinue window 0) s = .next (appendWindow window s).state := rfl

/-! ### Reports -/

/-- The declared length, bytes 2 to 5 big-endian (R63, R88). -/
theorem ofBe32_drop_two (r : List Byte) :
    ofBe32 (r.drop 2) = BitVec.ofNat 32
      ((((r.getD 2 0).toNat * 256 + (r.getD 3 0).toNat) * 256 + (r.getD 4 0).toNat) * 256 +
        (r.getD 5 0).toNat) := by
  have byte : ∀ k, (r.drop 2).getD k 0 = r.getD (2 + k) 0 := fun k => by
    rw [List.getD_eq_getElem?_getD, List.getElem?_drop, List.getD_eq_getElem?_getD]
  rw [ofBe32, byte, byte, byte, byte]

theorem unframe_of_none (h : s.rxIn = none) : unframe s = unframeStart s := by
  simp only [unframe, h]

theorem unframe_of_timeout (h : s.rxIn = some .timeout) :
    unframe s = rxError .transportTimeout { s with rxIn := none } := by
  simp only [unframe, h, unframeResume]

/-- UNFRAME takes a report of 65 bytes to RXR and acts on it (R221). -/
theorem unframe_of_report {r : List Byte} (h : s.rxIn = some (.report r)) (size : r.length = 65) :
    unframe s =
      let s1 := { s with rxIn := none, rx := { s.rx with rxr := Mem.ofBytes r } }
      (if s.rx.unfIndex = 0 then firstInbound r s1 else laterInbound r s1).awaited := by
  have resumes : unframe s = unframeResume (.report r) { s with rxIn := none } := by
    simp only [unframe, h]
  rw [resumes, unframeResume, reportBytes, padReport_eq size]
  rfl

/-- Before the first report UNF_INDEX, which ERR_ADDR takes, is 0 (R227). -/
theorem rxError_of_first (first : s.rx.unfIndex = 0) (k : ErrKind) :
    rxError k s = State.raise k { addr := 0 } { s with rx := { s.rx with count := 0 } } := by
  rw [rxError, first]
  rfl

theorem firstInbound_flagged {r : List Byte} (h : r.getD 62 0 ≠ 0) :
    firstInbound r s = .done (rxError .robotNoResponse s) := if_pos h

theorem firstInbound_tooLong {r : List Byte} (flag : r.getD 62 0 = 0)
    (long : s.params.maxRxLen < (ofBe32 (r.drop 2)).toNat) :
    firstInbound r s = .done (rxError .transportFailure s) :=
  (if_neg (not_not_intro flag)).trans (if_pos long)

theorem firstInbound_window {r : List Byte} (flag : r.getD 62 0 = 0)
    (le : (ofBe32 (r.drop 2)).toNat ≤ s.params.maxRxLen) :
    firstInbound r s = appendWindow ((r.drop 6).take 56)
      { s with rx := { s.rx with len := ofBe32 (r.drop 2) } } :=
  (if_neg (not_not_intro flag)).trans (if_neg (Nat.not_lt.mpr le))

section

variable {r : List Byte} (size : r.length = 65)

include size

theorem inboundFields_tagged {m : Markers} (tag : r.getD 1 0 = m.cont) :
    inboundFields m r = .ok ((r.drop 2).take 56, r.getD 58 0) :=
  (if_neg (not_not_intro size)).trans (if_pos tag)

theorem inboundFields_untagged {m : Markers} (tag : r.getD 1 0 ≠ m.cont) :
    inboundFields m r = .error .notContinue :=
  (if_neg (not_not_intro size)).trans (if_neg tag)

/-- The flag of a later report is tested before its tag (R224). -/
theorem laterInbound_flagged (flag : r.getD 58 0 ≠ 0) :
    laterInbound r s = .done (rxError .robotNoResponse s) := by
  by_cases tag : r.getD 1 0 = s.cfg.markers.cont
  · rw [laterInbound, inboundFields_tagged size tag]
    exact if_pos flag
  · rw [laterInbound, inboundFields_untagged size tag]
    exact if_pos flag

theorem laterInbound_untagged (flag : r.getD 58 0 = 0) (tag : r.getD 1 0 ≠ s.cfg.opContinue) :
    laterInbound r s = .done (rxError .transportFailure s) := by
  rw [laterInbound, inboundFields_untagged (m := s.cfg.markers) size tag]
  exact if_neg (not_not_intro flag)

theorem laterInbound_window (flag : r.getD 58 0 = 0) (tag : r.getD 1 0 = s.cfg.opContinue) :
    laterInbound r s = appendWindow ((r.drop 2).take 56) s := by
  rw [laterInbound, inboundFields_tagged (m := s.cfg.markers) size tag]
  exact if_neg (not_not_intro flag)

end

end

end Sys2Proof.Machine

namespace Sys2Proof

open Machine

/-- Settles O49: the chunks up to the last reach the packet's length. -/
theorem reportsCarryThePacketOnce : Obligations.ReportsCarryThePacketOnce := by
  unfold Obligations.ReportsCarryThePacketOnce
  intro s len n
  refine ⟨segmentCount_one, fun long => (segmentCount_many long).2, s.packetChunk_length_le, ?_⟩
  rw [s.packetChunks_upTo, Nat.min_eq_right (le_segmentCount len)]

/-- Settles O50: FRAME from its start, with a packet that fits and one that does not. -/
theorem frameStartsWithReportZero : Obligations.FrameStartsWithReportZero := by
  unfold Obligations.FrameStartsWithReportZero
  intro s start distinct s1
  refine ⟨fun le => ?_, fun long => ?_⟩
  · exact ⟨_, _, exec_firstReport s1,
      congrArg Host.Outcome.next ((frame_of_none start).trans (frameStart_presents distinct le)), rfl⟩
  · exact congrArg _ ((frame_of_none start).trans (frameStart_tooLong distinct long))

/-- Settles O52: UNFRAME from its start, and from a timeout. -/
theorem unframeWaitsAndTimesOut : Obligations.UnframeWaitsAndTimesOut := by
  unfold Obligations.UnframeWaitsAndTimesOut
  exact fun s => ⟨fun start => congrArg _ (unframe_of_none start),
    fun timeout => congrArg _ (unframe_of_timeout timeout)⟩

/-- Settles O53: the flag decides, and a window is appended as `appendWindow_state` has it. -/
theorem continuationAppendsItsWindow : Obligations.ContinuationAppendsItsWindow := by
  unfold Obligations.ContinuationAppendsItsWindow
  intro s window flag canonical size le
  refine ⟨exec_rxContinue_flagged window, fun clear => ?_⟩
  subst clear
  intro n
  obtain ⟨-, -, -, -, -, -, rxbuf, -⟩ := s.arraysCanonical_iff.mp canonical
  refine ⟨_, (exec_rxContinue_window window s).trans
    (congrArg Host.Outcome.next (appendWindow_state window s)), toNat_appended le 56, ?_, rfl⟩
  exact Mem.read_writeWindow rxbuf (size.symm ▸ Nat.min_le_left _ _) _

/-- Settles O54: the first report's three branches; its window is appended as that of a continuation. -/
theorem firstReportDeclaresTheLength : Obligations.FirstReportDeclaresTheLength := by
  unfold Obligations.FirstReportDeclaresTheLength
  intro s r delivered size first len s1
  have run : exec .unframe s = .next (firstInbound r s1).awaited := by
    have resumed := unframe_of_report delivered size
    exact congrArg Host.Outcome.next (resumed.trans (congrArg Pass.awaited (if_pos first)))
  have declared : ofBe32 (r.drop 2) = BitVec.ofNat 32 len := ofBe32_drop_two r
  have lenNat : (ofBe32 (r.drop 2)).toNat = len := by
    have b2 := (r.getD 2 0).isLt
    have b3 := (r.getD 3 0).isLt
    have b4 := (r.getD 4 0).isLt
    have b5 := (r.getD 5 0).isLt
    rw [declared]
    exact Nat.mod_eq_of_lt (by omega)
  have error := rxError_of_first (s := s1) first
  rw [run]
  refine ⟨fun flag => ?_, fun flag long => ?_, fun flag le => ?_⟩
  · rw [firstInbound_flagged flag]
    exact congrArg _ (error _)
  · rw [firstInbound_tooLong flag (lenNat.symm ▸ long)]
    exact congrArg _ (error _)
  · rw [firstInbound_window flag (lenNat.symm ▸ le), ← declared]
    exact ⟨_, _, rfl, rfl, appendWindow_awaited _ _⟩

/-- Settles O55: the three branches of a later report. -/
theorem laterReportsMustBeContinuations : Obligations.LaterReportsMustBeContinuations := by
  unfold Obligations.LaterReportsMustBeContinuations
  intro s r delivered size later s1
  have run : exec .unframe s = .next (laterInbound r s1).awaited := by
    have resumed := unframe_of_report delivered size
    exact congrArg Host.Outcome.next (resumed.trans (congrArg Pass.awaited (if_neg later)))
  rw [run]
  refine ⟨fun flag => ?_, fun flag tag => ?_, fun flag tag => ?_⟩
  · rw [laterInbound_flagged size flag]
    rfl
  · rw [laterInbound_untagged (s := s1) size flag tag]
    rfl
  · rw [laterInbound_window (s := s1) size flag tag]
    exact ⟨_, _, rfl, rfl, appendWindow_awaited _ _⟩

end Sys2Proof

/-! The port and the command unit, action by action (R39, R47 to R49, R240, R248, R249). -/

namespace Sys2Proof.Machine

section

variable {s : State} {rest : List Action}

/-- A step with an action listed performs it (R240). -/
theorem step_action {a : Action} (h : s.actions = a :: rest) : step s = perform a (s.popped rest) := by
  rw [step, nextAction, h]
  rfl

/-! ### HEXLINK steps -/

/-- Each command has one OPC (R90). -/
theorem opc_of_decodeCommand :
    ∀ c : BitVec 4, ∀ row ∈ commandRows, decodeCommand (c.setWidth 32) = .ok row.2 →
      c = row.1.extractLsb' 0 4 := by
  decide

/-- The start of a command, by the command that PENDING_CMD names (R25; log 23). -/
theorem State.startCommand_eq {i : Instr} (decoded : decodeCommand (s.pendingCmd.setWidth 32) = .ok i) :
    s.startCommand = if i = .nextBlock then s.dropBlock else s := by
  by_cases opc : s.pendingCmd = 0x4
  · rw [opc] at decoded
    cases decoded
    exact s.startCommand_of_nextBlock opc
  · have other : i ≠ .nextBlock := fun next => opc <|
      opc_of_decodeCommand _ (0x00000004, .nextBlock) (by decide) (next ▸ decoded)
    rw [if_neg other, s.startCommand_of_ne opc]

theorem hexlinkStep_waits (h : s.stepEnabled = false) : hexlinkStep s = .next s := by
  rw [hexlinkStep, h, if_neg Bool.false_ne_true]

/-! ### Writes -/

theorem readOnlySlot :
    ∀ idx : BitVec 6, idx = Slot.STATUS ∨ 9 ≤ idx.toNat → idx ≠ Slot.CMD ∧ configSlot idx = false := by
  decide

theorem writeSlot_dropped {idx : BitVec 6} (busy : s.status.busy = true) (config : configSlot idx = true)
    (v : Word) : writeSlot idx v s = .next s.drop := by
  have other : idx ≠ Slot.CMD := by
    rintro rfl
    cases config
  rw [writeSlot, if_neg other, busy, config]
  rfl

theorem writeSlot_put {idx : BitVec 6} (other : idx ≠ Slot.CMD)
    (idle : s.status.busy = false ∨ configSlot idx = false) (v : Word) :
    writeSlot idx v s = .next (s.putConfig idx v) := by
  rw [writeSlot, if_neg other, if_neg]
  obtain idle | outside := idle
  · rw [idle]
    exact Bool.false_ne_true
  · rw [outside, Bool.and_false]
    exact Bool.false_ne_true

section

variable {a : HostData} {i : Nat} (b : Byte)

theorem writeElement_beyond (h : s.arraySize a.array ≤ i) : writeElement a i b s = s := if_pos h

theorem writeElement_dropped (h : i < s.arraySize a.array) (busy : s.status.busy = true) :
    writeElement a i b s = s.drop :=
  (if_neg (Nat.not_le.mpr h)).trans (if_pos busy)

theorem writeElement_put (h : i < s.arraySize a.array) (idle : s.status.busy = false) :
    writeElement a i b s = s.putElement a i b :=
  (if_neg (Nat.not_le.mpr h)).trans (if_neg (by rw [idle]; exact Bool.false_ne_true))

end

/-! ### Reads -/

/-- The reserved slots hold 0 (R39). -/
theorem State.register_reserved {idx : BitVec 6} (h : 0x22 ≤ idx.toNat) : s.register idx = 0 := by
  unfold State.register
  split
  case h_35 => rfl
  all_goals omega

theorem steadySlot_eq_false_iff (idx : BitVec 6) :
    steadySlot idx = false ↔
      idx ∉ [Slot.CMD, Slot.STATUS, Slot.SEG_INDEX, Slot.SEG_TOTAL] ∧ idx.toNat < 0x22 := by
  revert idx
  decide

theorem reservedSlot_steady :
    ∀ idx : BitVec 6, idx = Slot.CMD ∨ 0x22 ≤ idx.toNat → steadySlot idx = true := by
  decide

/-- The model's ranges of slots are R91's table, the steady slots aside. -/
theorem resultSlot_iff :
    ∀ opc : BitVec 4, ∀ idx : BitVec 6, steadySlot idx = false →
      (resultSlot opc idx = true ↔ ∃ row ∈ commandResults, row.1 = opc ∧ idx ∈ row.2.1) := by
  decide

theorem resultArray_iff (opc : BitVec 4) (a : ArrayName) :
    resultArray opc a = true ↔ ∃ row ∈ commandResults, row.1 = opc ∧ a ∈ row.2.2 := by
  revert opc
  cases a <;> decide

/-- Some command whose results are awaited has this one. -/
theorem any_iff_awaited {α : Type} {result : BitVec 4 → Bool} {unseen : List (BitVec 4)}
    {rows : List α} {opc : α → BitVec 4} {listed : α → Prop}
    (h : ∀ c, result c = true ↔ ∃ row ∈ rows, opc row = c ∧ listed row) :
    unseen.any result = true ↔ ∃ row ∈ rows, opc row ∈ unseen ∧ listed row := by
  rw [List.any_eq_true]
  constructor
  · rintro ⟨c, awaited, is⟩
    obtain ⟨row, mem, rfl, has⟩ := (h c).mp is
    exact ⟨row, mem, awaited, has⟩
  · rintro ⟨row, mem, awaited, has⟩
    exact ⟨opc row, awaited, (h _).mpr ⟨row, mem, rfl, has⟩⟩

theorem State.slotUnsteady_iff (s : State) (idx : BitVec 6) :
    s.slotUnsteady idx = true ↔
      steadySlot idx = false ∧ (s.status.busy = true ∨ s.AwaitedSlot idx) := by
  rw [State.slotUnsteady, Bool.and_eq_true, Bool.not_eq_true', Bool.or_eq_true]
  exact and_congr_right fun steady =>
    or_congr_right (any_iff_awaited (resultSlot_iff · idx steady))

theorem State.steadyArray_iff (s : State) (a : ArrayName) :
    s.steadyArray a = true ↔ (a = .txr ∧ s.status.txWait = true) ∨ a = .src ∨ a = .pkt := by
  cases a <;> simp [State.steadyArray]

theorem State.arrayUnsteady_iff (s : State) (a : ArrayName) :
    s.arrayUnsteady a = true ↔
      s.steadyArray a = false ∧ (s.status.busy = true ∨ s.AwaitedArray a) := by
  rw [State.arrayUnsteady, Bool.and_eq_true, Bool.not_eq_true', Bool.or_eq_true]
  exact and_congr_right fun _ => or_congr_right (any_iff_awaited (resultArray_iff · a))

theorem State.readSlot_register {idx : BitVec 6}
    (h : steadySlot idx = true ∨ (s.status.busy = false ∧ ¬ s.AwaitedSlot idx)) :
    s.readSlot idx = s.register idx := by
  refine if_neg fun unsteady => ?_
  obtain ⟨notSteady, drawn⟩ := (s.slotUnsteady_iff idx).mp unsteady
  obtain steady | ⟨idle, unawaited⟩ := h
  · exact Bool.noConfusion (steady.symm.trans notSteady)
  · exact drawn.elim (fun busy => Bool.noConfusion (idle.symm.trans busy)) unawaited

theorem State.readSlot_free {idx : BitVec 6} (unsteady : s.slotUnsteady idx = true) :
    s.readSlot idx = Config.freeWord s.draws := if_pos unsteady

theorem State.readElement_beyond {a : ArrayName} {i : Nat} (h : s.arraySize a ≤ i) :
    s.readElement a i = 0 := by
  rw [State.readElement, decide_eq_false (Nat.not_lt.mpr h), State.element, if_neg (Nat.not_lt.mpr h)]
  rfl

theorem State.readElement_byteAt {a : ArrayName} {i : Nat} (h : i < s.arraySize a)
    (steady : s.arrayUnsteady a = false) : s.readElement a i = s.byteAt a i := by
  rw [State.readElement, steady, Bool.and_false, State.element, if_pos h]
  rfl

theorem State.readElement_free {a : ArrayName} {i : Nat} (h : i < s.arraySize a)
    (unsteady : s.arrayUnsteady a = true) : s.readElement a i = Config.freeByte s.draws := by
  rw [State.readElement, unsteady, decide_eq_true h]
  rfl

end

end Sys2Proof.Machine

namespace Sys2Proof

open Machine

/-- Settles O5: the step execs the pending command from its start, which for NEXT_BLOCK clears
BLK_VALID. -/
theorem stepRunsThePendingCommand : Obligations.StepRunsThePendingCommand := by
  unfold Obligations.StepRunsThePendingCommand
  intro s i busy tx rx decoded lower upper s0
  have start : s.startCommand = s0 := State.startCommand_eq decoded
  have runs : runsInSteps i = true := by
    have opc : (s.pendingCmd.setWidth 32).toNat = s.pendingCmd.toNat := by
      rw [BitVec.toNat_setWidth]
      omega
    obtain ⟨j, decodes, runs⟩ := decodeCommand_runsInSteps (w := s.pendingCmd.setWidth 32)
      (opc.symm ▸ lower) (opc.symm ▸ upper)
    cases decoded.symm.trans decodes
    exact runs
  have enabled := s.stepEnabled_iff.mpr ⟨busy, tx, rx⟩
  rw [← start]
  exact ⟨fun act => (step_hexlink act).trans (hexlinkStep_pending enabled decoded runs),
    fun rest act => (step_action act).trans
      (hexlinkStep_pending (s := s.popped rest) enabled decoded runs)⟩

/-- Settles O7: the branches of a register write and a byte write with BUSY = 1. -/
theorem busyHostWritesAreDropped : Obligations.BusyHostWritesAreDropped := by
  unfold Obligations.BusyHostWritesAreDropped
  intro s rest busy
  refine ⟨fun idx v act lower upper => ?_, fun a i b act inside => ?_, fun a i b act beyond => ?_⟩ <;>
    rw [step_action act]
  · exact writeSlot_dropped (s := s.popped rest) busy (by simp [configSlot, lower, upper]) v
  · exact congrArg Host.Outcome.next (writeElement_dropped (s := s.popped rest) b inside busy)
  · exact congrArg Host.Outcome.next (writeElement_beyond (s := s.popped rest) b beyond)

/-- Settles O8: with BUSY = 0 the write is `State.putConfig`, which has a case for each register. -/
theorem configurationWritesTakeEffect : Obligations.ConfigurationWritesTakeEffect := by
  unfold Obligations.ConfigurationWritesTakeEffect
  intro s v rest idle s0 cleared
  have put : ∀ {idx : BitVec 6}, idx ≠ Slot.CMD → s.actions = .write idx v :: rest →
      step s = .next (s0.putConfig idx v) :=
    fun other act => (step_action act).trans (writeSlot_put (s := s0) other (.inl idle) v)
  exact ⟨put (by decide), put (by decide), put (by decide), put (by decide), put (by decide),
    put (by decide), put (by decide)⟩

/-- Settles O9: such a slot is neither CMD nor a configuration register. -/
theorem readOnlyAndReservedWritesAreIgnored : Obligations.ReadOnlyAndReservedWritesAreIgnored := by
  unfold Obligations.ReadOnlyAndReservedWritesAreIgnored
  intro s idx v rest act readOnly
  obtain ⟨other, outside⟩ := readOnlySlot idx readOnly
  have ignored : (s.popped rest).putConfig idx v = s.popped rest := putConfig_of_not_configSlot outside v
  exact (step_action act).trans
    ((writeSlot_put (s := s.popped rest) other (.inr outside) v).trans (congrArg _ ignored))

/-- Settles O10: one byte is written, as the law of the array's write has it. -/
theorem byteWritesWriteOneByte : Obligations.ByteWritesWriteOneByte := by
  unfold Obligations.ByteWritesWriteOneByte
  intro s i b rest canonical idle
  obtain ⟨src, pkt, -⟩ := s.arraysCanonical_iff.mp canonical
  have put : ∀ {a : HostData}, s.actions = .writeb a i b :: rest → i < s.arraySize a.array →
      step s = .next ((s.popped rest).putElement a i b) := fun act inside =>
    (step_action act).trans
      (congrArg Host.Outcome.next (writeElement_put (s := s.popped rest) b inside idle))
  refine ⟨fun act inside => ?_, fun act inside => ?_, fun a act beyond => ?_⟩
  · exact ⟨_, put act inside, rfl, fun j => Mem.read_write_from i b j src⟩
  · exact ⟨_, put act inside, rfl, fun j => Mem.read_write_from i b j pkt⟩
  · exact (step_action act).trans
      (congrArg Host.Outcome.next (writeElement_beyond (s := s.popped rest) b beyond))

/-- Settles O11: a read is a free draw exactly where `State.slotUnsteady_iff` and `State.arrayUnsteady_iff`
say so. -/
theorem hostReadsChangeNothing : Obligations.HostReadsChangeNothing := by
  unfold Obligations.HostReadsChangeNothing
  intro s rest
  refine ⟨fun idx act => ?_, fun a i act => ?_, fun w act idle lower upper => ?_, ⟨_, rfl, rfl⟩⟩
  · have seen : ((s.popped rest).observe idx).unseen =
        if idx = Slot.STATUS ∧ s.status.busy = false then [] else s.unseen := by
      simp [State.popped]
    refine ⟨s.readSlot idx, ?_, fun steady => ?_, fun reserved => ?_, fun other inside drawn => ?_⟩
    · rw [step_action act, ← seen]
      rfl
    · refine State.readSlot_register ?_
      obtain rfl | rfl | rfl | quiet := steady
      · exact .inl rfl
      · exact .inl rfl
      · exact .inl rfl
      · exact .inr quiet
    · rw [State.readSlot_register (.inl (reservedSlot_steady idx reserved))]
      obtain rfl | reserved := reserved
      · rfl
      · exact State.register_reserved reserved
    · exact State.readSlot_free
        ((s.slotUnsteady_iff idx).mpr ⟨(steadySlot_eq_false_iff idx).mpr ⟨other, inside⟩, drawn⟩)
  · refine ⟨s.readElement a i, (step_action act).trans rfl, State.readElement_beyond,
      fun steady inside => ?_, fun notSrc notPkt notTxr inside drawn => ?_⟩
    · refine State.readElement_byteAt inside (Bool.eq_false_iff.mpr fun unsteady => ?_)
      obtain ⟨notSteady, drawn⟩ := (s.arrayUnsteady_iff a).mp unsteady
      obtain ⟨idle, unawaited⟩ | named := steady
      · exact drawn.elim (fun busy => Bool.noConfusion (idle.symm.trans busy)) unawaited
      · exact Bool.noConfusion (((s.steadyArray_iff a).mpr named).symm.trans notSteady)
    · have notSteady : s.steadyArray a = false := Bool.eq_false_iff.mpr fun steady =>
        ((s.steadyArray_iff a).mp steady).elim notTxr (Or.elim · notSrc notPkt)
      exact State.readElement_free inside ((s.arrayUnsteady_iff a).mpr ⟨notSteady, drawn⟩)
  · obtain ⟨j, decoded, runs⟩ := decodeCommand_runsInSteps lower upper
    exact ⟨_, (step_writeCommand act).trans (writeCommand_accepted idle decoded runs),
      fun c => mem_noteCommand s.unseen c _⟩

/-- Settles O13: a transport action looks at its wait, and a step that is not enabled waits. -/
theorem transportActionsAndWaiting : Obligations.TransportActionsAndWaiting := by
  unfold Obligations.TransportActionsAndWaiting
  intro s
  refine ⟨fun r rest => step_action, fun d rest => step_action, fun act disabled => ?_⟩
  have waits : s.stepEnabled = false := by
    rw [Bool.eq_false_iff, Ne, s.stepEnabled_iff]
    rintro ⟨busy, tx, rx⟩
    simp [busy, tx, rx] at disabled
  rw [step_hexlink act, hexlinkStep_waits waits]

/-- Settles O14: `State.reset` has the reset value of every field, and the free bytes are cut to the
arrays' sizes. -/
theorem resetInputResets : Obligations.ResetInputResets := by
  unfold Obligations.ResetInputResets
  intro s rest act
  have cut : ∀ (bytes : List Byte) (n i : Nat), n ≤ i → Mem.read (Mem.ofBytes (bytes.take n)) i = 0 :=
    fun bytes n i => Mem.read_beyond (Mem.ofBytes_within _ (List.length_take_le n bytes))
  exact ⟨_, step_action act, rfl, cut _ _, cut _ _⟩

/-- Settles O56: nothing is listed in any array, and every register is 0. -/
theorem resetMeetsTheInvariant : Obligations.ResetMeetsTheInvariant := by
  unfold Obligations.ResetMeetsTheInvariant
  have registers : ∀ idx, State.reset.register idx = 0 := fun idx => by
    unfold State.register
    split <;> rfl
  exact ⟨State.reset_inv rfl (.nil _) (.nil _) .., registers, rfl, rfl, rfl,
    fun _ => ⟨rfl, rfl, rfl, rfl, rfl, rfl, rfl⟩⟩

end Sys2Proof

/-! The packed registers (R25, R32, R33, R35), each a word whose bits are those of its fields. -/

namespace Sys2Proof.Machine

/-- A field that stands at bit 0. -/
theorem lowField_getLsbD {n : Nat} (x : BitVec n) (h : n ≤ 32) (i : Nat) :
    (x.setWidth 32).getLsbD i = x.getLsbD i := by
  rw [BitVec.getLsbD_setWidth]
  by_cases beyond : n ≤ i
  · rw [BitVec.getLsbD_of_ge x i beyond, Bool.and_false]
  · rw [decide_eq_true (show i < 32 by omega), Bool.true_and]

/-- A field that stands at bit `k`. -/
theorem field_getLsbD {n k : Nat} (x : BitVec n) (h : k + n ≤ 32) (i : Nat) :
    (x.setWidth 32 <<< k).getLsbD i = (decide (k ≤ i) && x.getLsbD (i - k)) := by
  have above : (!decide (i < k)) = decide (k ≤ i) := by
    rw [← decide_not]
    exact decide_eq_decide.mpr Nat.not_lt
  rw [BitVec.getLsbD_shiftLeft, lowField_getLsbD x (by omega), above]
  by_cases beyond : k + n ≤ i
  · rw [BitVec.getLsbD_of_ge x _ (by omega), Bool.and_false, Bool.and_false]
  · rw [decide_eq_true (show i < 32 by omega), Bool.true_and]

theorem Status.word_getLsbD (st : Status) (i : Nat) :
    st.word.getLsbD i =
      (decide (i = 0) && st.busy || decide (i = 1) && st.err || decide (i = 2) && st.cmdDropped ||
        decide (i = 3) && st.validated || decide (i = 4) && st.asmActive ||
        decide (i = 5) && st.asmDone || decide (i = 6) && st.blkValid || decide (i = 7) && st.txWait ||
        decide (i = 8) && st.rxWait || decide (i = 9) && st.xferDone ||
        decide (10 ≤ i) && st.recKind.getLsbD (i - 10) ||
        decide (12 ≤ i) && st.lastCmd.getLsbD (i - 12)) := by
  simp only [Status.word, BitVec.getLsbD_or, flagBit_getLsbD, field_getLsbD, Nat.reduceLT,
    Nat.reduceAdd, Nat.reduceLeDiff]

theorem AssemblerRegs.stateWord_getLsbD (x : AssemblerRegs) (i : Nat) :
    x.stateWord.getLsbD i =
      (x.p.getLsbD i || decide (i = 8) && x.pendValid ||
        decide (16 ≤ i) && x.pendLen.getLsbD (i - 16) || decide (i = 24) && x.cbs.getLsbD 32) := by
  simp only [AssemblerRegs.stateWord, BitVec.getLsbD_or, flagBit_getLsbD, field_getLsbD,
    lowField_getLsbD, Nat.reduceLT, Nat.reduceAdd, Nat.reduceLeDiff]

theorem RecordRegs.infoWord_getLsbD (x : RecordRegs) (i : Nat) :
    x.infoWord.getLsbD i =
      (x.len.getLsbD i || decide (8 ≤ i) && x.type.getLsbD (i - 8) ||
        decide (16 ≤ i) && x.cks.getLsbD (i - 16)) := by
  simp only [RecordRegs.infoWord, BitVec.getLsbD_or, field_getLsbD, lowField_getLsbD, Nat.reduceAdd,
    Nat.reduceLeDiff]

theorem ErrRegs.cksWord_getLsbD (x : ErrRegs) (i : Nat) :
    x.cksWord.getLsbD i = (x.expected.getLsbD i || decide (8 ≤ i) && x.actual.getLsbD (i - 8)) := by
  simp only [ErrRegs.cksWord, BitVec.getLsbD_or, field_getLsbD, lowField_getLsbD, Nat.reduceAdd,
    Nat.reduceLeDiff]

/-- The bits from `k` on are those of the field `x`. -/
theorem extractLsb'_eq {w : Word} {n k : Nat} {x : BitVec n}
    (h : ∀ i, i < n → w.getLsbD (k + i) = x.getLsbD i) : w.extractLsb' k n = x := by
  refine BitVec.eq_of_getLsbD_eq fun i hi => ?_
  rw [BitVec.getLsbD_extractLsb', decide_eq_true hi, Bool.true_and, h i hi]

end Sys2Proof.Machine

namespace Sys2Proof

open Machine

/-- Settles O12: the registers by the table of slots, and the bits of the packed ones by their fields'
places. -/
theorem packedRegisterLayout : Obligations.PackedRegisterLayout := by
  unfold Obligations.PackedRegisterLayout
  intro s
  refine ⟨rfl, rfl, rfl, rfl, rfl, rfl, rfl, rfl, rfl, rfl, rfl, rfl, rfl, rfl, rfl, rfl, rfl, rfl, rfl,
    rfl, rfl, rfl, rfl, rfl, rfl, rfl, rfl, rfl, rfl, fun idx => State.register_reserved, ?busy, ?err,
    ?cmdDropped, ?validated, ?asmActive, ?asmDone, ?blkValid, ?txWait, ?rxWait, ?xferDone, ?recKind,
    ?lastCmd, ?status, ?len, ?type, ?cks, ?recInfo, ?p, ?low, ?pendValid, ?mid, ?pendLen, ?bit23, ?top,
    ?asmState, ?cbs, ?expected, ?actual, ?errCks⟩
  case busy | err | cmdDropped | validated | asmActive | asmDone | blkValid | txWait | rxWait | xferDone =>
    exact (s.status.word_getLsbD _).trans (by simp)
  case pendValid | bit23 | top => exact (s.asm.stateWord_getLsbD _).trans (by simp)
  case cbs => rfl
  case recKind | lastCmd | status =>
    refine extractLsb'_eq fun i hi => (s.status.word_getLsbD _).trans ?_
    interval_cases i <;> simp
  case len | type | cks | recInfo =>
    refine extractLsb'_eq fun i hi => (s.recOut.infoWord_getLsbD _).trans ?_
    interval_cases i <;> simp
  case p | low | mid | pendLen | asmState =>
    refine extractLsb'_eq fun i hi => (s.asm.stateWord_getLsbD _).trans ?_
    interval_cases i <;> simp
  case expected | actual | errCks =>
    refine extractLsb'_eq fun i hi => (s.err.cksWord_getLsbD _).trans ?_
    interval_cases i <;> simp

end Sys2Proof

/-! What one step can do (R240), said once: each command that runs in steps, then every other action. From
it follow the canonical form of the arrays, who sets a flag (R25), and that a command runs against fixed
inputs (R73, R248). -/

namespace Sys2Proof.Machine

/-! ### Commands -/

/-- The canonical form of the arrays, one by one. -/
structure State.Canonical (s : State) : Prop where
  src : s.src.wf = true
  pkt : s.pkt.wf = true
  recData : s.recOut.data.wf = true
  blkData : s.blkOut.data.wf = true
  txr : s.frm.txr.wf = true
  rxr : s.rx.rxr.wf = true
  rxbuf : s.rx.rxbuf.wf = true
  buf : s.asm.buf.wf = true
  pendData : s.asm.pendData.wf = true

theorem State.canonical_iff (s : State) : s.arraysCanonical = true ↔ s.Canonical := by
  rw [State.arraysCanonical_iff]
  constructor
  · rintro ⟨src, pkt, recData, blkData, txr, rxr, rxbuf, buf, pendData⟩
    exact ⟨src, pkt, recData, blkData, txr, rxr, rxbuf, buf, pendData⟩
  · rintro ⟨src, pkt, recData, blkData, txr, rxr, rxbuf, buf, pendData⟩
    exact ⟨src, pkt, recData, blkData, txr, rxr, rxbuf, buf, pendData⟩

/-- What a command that runs in steps can have done: its inputs stay, the arrays stay canonical, and a flag
of R25 that is set was set before or is set by its command. -/
structure Ran (i : Instr) (s t : State) : Prop where
  params : t.params = s.params
  cfg : t.cfg = s.cfg
  src : t.src = s.src
  pkt : t.pkt = s.pkt
  canonical : s.Canonical → t.Canonical
  validated : t.status.validated = true → s.status.validated = true ∨ i = .validate
  asmActive : t.status.asmActive = true →
    s.status.asmActive = true ∨ (i = .startAssembly ∧ s.status.validated = true)
  xferDone : t.status.xferDone = true → s.status.xferDone = true ∨ i = .frame ∨ i = .unframe

section

variable {i : Instr} {s t : State}

theorem Ran.refl (i : Instr) (s : State) : Ran i s s where
  params := rfl
  cfg := rfl
  src := rfl
  pkt := rfl
  canonical := id
  validated := .inl
  asmActive := .inl
  xferDone := .inl

theorem Ran.raise (h : Ran i s t) (k : ErrKind) (info : ErrInfo) : Ran i s (t.raise k info) :=
  { h with
    canonical := fun c => { h.canonical c with }
    asmActive := Bool.noConfusion }

/-! #### The Record Reader's commands -/

theorem State.Canonical.readNext (c : s.Canonical) : (readNext s).Canonical := by
  rw [(readNext_outcome s).frame]
  exact { c with }

theorem State.Canonical.readRecord (c : s.Canonical) : (readRecord s).Canonical := by
  cases legal : s.srcLenLegal
  case false =>
    rw [readRecord_illegal legal]
    exact { c with }
  case true =>
    have le : s.cfg.srcLen.toNat ≤ s.params.srcCap := of_decide_eq_true legal
    have start : (readRecordStart s).Canonical := { c with }
    have read := start.readNext
    have returned := readNext_returns (readRecordStart s)
    generalize next : Machine.readNext (readRecordStart s) = u at read returned
    cases ret : u.ret with
    | idle => exact absurd ret returned
    | raised =>
      rw [readRecord_raised le next ret]
      exact { read with }
    | data a st d ck =>
      rw [readRecord_data le next ret]
      exact { read with recData := Mem.ofBytes_wf d }
    | eof a st ty ck =>
      rw [readRecord_eof le next ret]
      exact { read with recData := rfl }
    | endOfStream =>
      rw [readRecord_endOfStream le next ret]
      exact { read with recData := rfl }

theorem readRecord_ran (s : State) : Ran .readRecord s (readRecord s) := by
  have frame := readRecord_frame s
  have inactive := readRecord_asmActive s
  have canonical : s.Canonical → (readRecord s).Canonical := State.Canonical.readRecord
  generalize readRecord s = t at frame inactive canonical
  exact
    { params := by rw [frame]
      cfg := by rw [frame]
      src := by rw [frame]
      pkt := by rw [frame]
      canonical := canonical
      validated := by rw [frame]; exact .inl
      asmActive := fun active => Bool.noConfusion (inactive.symm.trans active)
      xferDone := by rw [frame]; exact .inl }

theorem validate_ran (s : State) : Ran .validate s (validate s) := by
  have frame := validate_frame s
  have inactive := validate_asmActive s
  generalize validate s = t at frame inactive
  exact
    { params := by rw [frame]
      cfg := by rw [frame]
      src := by rw [frame]
      pkt := by rw [frame]
      canonical := by rw [frame]; exact fun c => { c with }
      validated := fun _ => .inr rfl
      asmActive := fun active => Bool.noConfusion (inactive.symm.trans active)
      xferDone := by rw [frame]; exact .inl }

/-! #### The Block Assembler's commands -/

theorem startAssembly_ran (s : State) : Ran .startAssembly s (startAssembly s) := by
  unfold startAssembly
  split
  · exact (Ran.refl _ s).raise _ _
  · next validated =>
    exact
      { Ran.refl .startAssembly s with
        canonical := fun c => { c with blkData := rfl }
        validated := Bool.noConfusion
        asmActive := fun _ => .inr ⟨rfl, by simpa using validated⟩ }

theorem AssemblerRegs.place_wf {x : AssemblerRegs} (buf : x.buf.wf = true)
    (pendData : x.pendData.wf = true) : x.place.buf.wf = true ∧ x.place.pendData.wf = true := by
  unfold AssemblerRegs.place
  dsimp only
  split
  · exact ⟨Mem.writeBytes_wf _ _ (Mem.writeBytes_wf _ _ buf), pendData⟩
  · exact ⟨Mem.writeBytes_wf _ _ (Mem.writeBytes_wf _ _ buf), Mem.writeBytes_wf _ _ pendData⟩

theorem State.Canonical.emitFull (c : s.Canonical) : (emitFull s).Canonical :=
  { c with blkData := Mem.ofBytes_wf _ }

theorem State.Canonical.endSequence (c : s.Canonical) : (endSequence s).Canonical := by
  by_cases empty : s.asm.p = 0
  · rw [endSequence_empty empty]
    exact { c with }
  · rw [endSequence_short empty]
    exact { c with blkData := Mem.ofBytes_wf _ }

theorem State.Canonical.placePass (c : s.Canonical) (st : Word) : (placePass st s).state.Canonical := by
  obtain ⟨buf, pendData⟩ := AssemblerRegs.place_wf c.buf c.pendData
  have padded : State.Canonical { s with asm := s.asm.padToEnd } :=
    { c with buf := Mem.writeBytes_wf _ _ c.buf }
  have placed : State.Canonical { s with asm := s.asm.place } :=
    { c with buf := buf, pendData := pendData }
  unfold Machine.placePass
  dsimp only
  split
  · exact { padded.emitFull with }
  split
  · exact { c with }
  split
  · exact { placed.emitFull with }
  · exact placed

theorem State.Canonical.fetch (c : s.Canonical) : (fetch s).2.state.Canonical := by
  have read := c.readNext
  have asm := readNext_asm s
  unfold Machine.fetch
  generalize Machine.readNext s = u at read asm
  dsimp only
  split
  · exact read
  · exact { read with }
  · exact { read with }
  · exact State.Canonical.endSequence (s := u.taken) { read with }
  · split
    · exact { read with }
    · exact { read with pendData := Mem.writeBytes_wf _ _ read.pendData }

theorem State.Canonical.blockPass (c : s.Canonical) : (blockPass s).state.Canonical := by
  have fetched := c.fetch
  unfold Machine.blockPass
  generalize Machine.fetch s = pass at fetched
  split
  · exact c.placePass 0
  · obtain ⟨st, t | t⟩ := pass
    · exact fetched
    · exact State.Canonical.placePass (s := t) fetched st

theorem State.Canonical.nextBlockFrom (c : s.Canonical) : (nextBlockFrom s).Canonical := by
  refine blockLoop_induction (motive := fun s t => s.Canonical → t.Canonical) ?last ?more s c
  case last =>
    intro s t done c
    have pass := c.blockPass
    rwa [done] at pass
  case more =>
    intro s t u more rest c
    have pass := c.blockPass
    rw [more] at pass
    exact rest pass

theorem State.Canonical.nextBlock (c : s.Canonical) : (nextBlock s).Canonical := by
  unfold Machine.nextBlock
  split
  · split
    · exact { c with }
    · exact { c with }
  · exact State.Canonical.nextBlockFrom (s := s.dropBlock) { c with }

/-- Without a running sequence NEXT_BLOCK starts none (R192). -/
theorem nextBlock_asmActive (inactive : s.status.asmActive = false) :
    (nextBlock s).status.asmActive = false := by
  unfold nextBlock
  rw [if_pos inactive]
  split
  · exact inactive
  · rfl

theorem nextBlock_ran (s : State) : Ran .nextBlock s (nextBlock s) := by
  have frame := nextBlock_frame s
  have inactive : s.status.asmActive = false → (nextBlock s).status.asmActive = false :=
    nextBlock_asmActive
  have canonical : s.Canonical → (nextBlock s).Canonical := State.Canonical.nextBlock
  generalize nextBlock s = t at frame inactive canonical
  exact
    { params := by rw [frame]
      cfg := by rw [frame]
      src := by rw [frame]
      pkt := by rw [frame]
      canonical := canonical
      validated := by rw [frame]; exact .inl
      asmActive := fun active => .inl <| by
        cases before : s.status.asmActive
        · exact Bool.noConfusion ((inactive before).symm.trans active)
        · rfl
      xferDone := by rw [frame]; exact .inl }

/-! #### FRAME and UNFRAME -/

theorem Ran.present (h : Ran i s t) (k n : Nat) : Ran i s (present k n t) := by
  unfold Machine.present
  rw [putReport_eq]
  exact { h with canonical := fun c => { h.canonical c with txr := Mem.ofBytes_wf _ } }

theorem frame_ran (s : State) : Ran .frame s (frame s) := by
  unfold frame
  cases s.txIn with
  | none =>
    have start : Ran .frame s { s with status := { s.status with xferDone := false } } :=
      { Ran.refl .frame s with canonical := fun c => { c with }, xferDone := Bool.noConfusion }
    unfold frameStart
    dsimp only
    split
    · exact start.raise _ _
    split
    · exact start.raise _ _
    · refine Ran.present ?_ _ _
      exact { start with canonical := fun c => { c with } }
  | some resp =>
    have resumed : Ran .frame s { s with txIn := none } :=
      { Ran.refl .frame s with canonical := fun c => { c with } }
    cases resp with
    | done =>
      unfold frameResume
      dsimp only
      split
      · exact resumed.present _ _
      · exact { resumed with
          canonical := fun c => { resumed.canonical c with }, xferDone := fun _ => .inr (.inl rfl) }
    | failed | timeout | garbled => exact resumed.raise _ _

theorem Ran.rxError (h : Ran i s t) (k : ErrKind) : Ran i s (rxError k t) :=
  Ran.raise (t := { t with rx := { t.rx with count := 0 } })
    { h with canonical := fun c => { h.canonical c with } } _ _

theorem Ran.awaitRx (h : Ran i s t) : Ran i s t.awaitRx :=
  { h with canonical := fun c => { h.canonical c with } }

theorem Ran.appendWindow (h : Ran .unframe s t) (window : List Byte) :
    Ran .unframe s (appendWindow window t).awaited := by
  have appended : ∀ (n : Nat) (count : Word), Ran .unframe s { t with
      rx := { t.rx with
        rxbuf := Mem.writeBytes t.rx.rxbuf t.rx.count.toNat (window.take n)
        count := count, unfIndex := t.rx.unfIndex + 1 } } := fun n count =>
    { h with
      canonical := fun c =>
        { h.canonical c with rxbuf := Mem.writeBytes_wf _ _ (h.canonical c).rxbuf } }
  unfold Machine.appendWindow
  dsimp only
  split
  · exact { appended _ _ with
      canonical := fun c => { (appended _ _).canonical c with }
      xferDone := fun _ => .inr (.inr rfl) }
  · exact (appended _ _).awaitRx

theorem Ran.firstInbound (h : Ran .unframe s t) (r : List Byte) :
    Ran .unframe s (firstInbound r t).awaited := by
  unfold Machine.firstInbound
  split
  · exact h.rxError _
  split
  · exact h.rxError _
  · refine Ran.appendWindow ?_ _
    exact { h with canonical := fun c => { h.canonical c with } }

theorem Ran.laterInbound (h : Ran .unframe s t) (r : List Byte) :
    Ran .unframe s (laterInbound r t).awaited := by
  unfold Machine.laterInbound
  split
  · unfold rxContinueEffect
    split
    · exact h.rxError _
    · exact h.appendWindow _
  · split <;> exact h.rxError _

theorem unframe_ran (s : State) : Ran .unframe s (unframe s) := by
  unfold unframe
  cases s.rxIn with
  | none =>
    exact { Ran.refl .unframe s with canonical := fun c => { c with }, xferDone := Bool.noConfusion }
  | some d =>
    have resumed : Ran .unframe s { s with rxIn := none } :=
      { Ran.refl .unframe s with canonical := fun c => { c with } }
    cases d with
    | timeout => exact resumed.rxError _
    | report bytes =>
      have received : Ran .unframe s
          { s with rxIn := none, rx := { s.rx with rxr := Mem.ofBytes (reportBytes bytes) } } :=
        { resumed with canonical := fun c => { c with rxr := Mem.ofBytes_wf _ } }
      show Ran _ _ (Pass.awaited (if s.rx.unfIndex = 0 then _ else _))
      split
      · exact received.firstInbound _
      · exact received.laterInbound _

/-- What the command of an enabled step can have done. -/
theorem exec_ran (runs : runsInSteps i = true) (h : exec i s = .next t) : Ran i s t := by
  cases i <;> cases runs <;> cases h
  · exact readRecord_ran s
  · exact validate_ran s
  · exact startAssembly_ran s
  · exact nextBlock_ran s
  · exact frame_ran s
  · exact unframe_ran s
  · exact { Ran.refl .rewind s with canonical := fun c => { c with }, asmActive := Bool.noConfusion }
  · exact { Ran.refl .clearError s with
      canonical := fun c => { c with }, validated := Bool.noConfusion, asmActive := Bool.noConfusion
      xferDone := Bool.noConfusion }

end

/-! ### Actions -/

/-- What an action can have made of the state it was taken in: a host access (R47, R241, R246 to R249), a
transport action (R48), a HEXLINK step (R240) or the reset input (R49). -/
inductive Performed (s : State) : Action → State → Prop
  /-- a read: the model's own fields only -/
  | observed (a : Action) (v : Word) (draws : Nat) (unseen : List (BitVec 4)) :
      Performed s a { s with portOut := v, draws := draws, unseen := unseen }
  | ignored (a : Action) : Performed s a s
  | dropped (a : Action) : Performed s a s.drop
  | softReset (w : Word) : Performed s (.write Slot.CMD w) (softReset s)
  | nop (w : Word) : Performed s (.write Slot.CMD w) { s with status := { s.status with lastCmd := 0 } }
  | illegal (w : Word) : Performed s (.write Slot.CMD w) (illegalCommand (s.noteLastCmd w))
  | accepted (w : Word) : 1 ≤ w.toNat → w.toNat ≤ 8 →
      Performed s (.write Slot.CMD w) ((s.noteLastCmd w).accept (w.extractLsb' 0 4))
  /-- a write of PROFILE0, PROFILE1 or PKT_LEN -/
  | configured (a : Action) (c : ConfigRegs) : s.status.busy = false → Performed s a { s with cfg := c }
  /-- a write of MODE, APP_START, BL_END or SRC_LEN -/
  | invalidated (a : Action) (c : ConfigRegs) : s.status.busy = false →
      Performed s a { s.invalidate with cfg := c }
  | stored (a : HostData) (i : Nat) (b : Byte) : s.status.busy = false →
      Performed s (.writeb a i b) (s.putElement a i b)
  | answered (r : TxResponse) :
      Performed s (.tx r) { s with status := { s.status with txWait := false }, txIn := some r }
  | delivered (d : RxDelivery) :
      Performed s (.rx d) { s with status := { s.status with rxWait := false }, rxIn := some d }
  | ran {i : Instr} {t : State} : s.stepEnabled = true → s.pending = .ok i → Ran i s.startCommand t →
      Performed s .hexlink t
  | reset : Performed s .rst (hardReset s)

section

variable {s t : State}

theorem commandRows_inSteps :
    ∀ row ∈ commandRows, runsInSteps row.2 = true → 1 ≤ row.1.toNat ∧ row.1.toNat ≤ 8 := by
  decide

theorem writeCommand_performed {w : Word} (h : writeCommand w s = .next t) :
    Performed s (.write Slot.CMD w) t := by
  cases busy : s.status.busy
  case true =>
    by_cases reset : w = 0x0000000F
    · rw [reset, writeCommand_softReset_of_busy busy] at h
      cases h
      exact .softReset w
    · rw [writeCommand_of_busy busy reset] at h
      cases h
      exact .dropped _
  case false =>
    cases decoded : decodeCommand w with
    | error e =>
      rw [writeCommand_illegal busy decoded] at h
      cases h
      exact .illegal w
    | ok i =>
      have mem := mem_commandRows decoded
      cases runs : runsInSteps i
      case true =>
        obtain ⟨lower, upper⟩ := commandRows_inSteps _ mem runs
        rw [writeCommand_accepted busy decoded runs] at h
        cases h
        exact .accepted w lower upper
      case false =>
        have atOnce := commandRows_opc _ mem
        rw [if_neg (by rw [runs]; exact Bool.false_ne_true)] at atOnce
        rw [writeCommand_atOnce busy decoded runs] at h
        obtain rfl | rfl := atOnce <;> cases h
        · exact .nop w
        · exact .softReset w

theorem putConfig_performed (idle : s.status.busy = false) (idx : BitVec 6) (v : Word) :
    Performed s (.write idx v) (s.putConfig idx v) := by
  unfold State.putConfig
  split
  · exact .invalidated _ _ idle
  · exact .invalidated _ _ idle
  · exact .invalidated _ _ idle
  · exact .configured _ _ idle
  · exact .configured _ _ idle
  · exact .invalidated _ _ idle
  · exact .configured _ _ idle
  · exact .ignored _

theorem writeSlot_performed {idx : BitVec 6} {v : Word} (h : writeSlot idx v s = .next t) :
    Performed s (.write idx v) t := by
  by_cases command : idx = Slot.CMD
  · subst command
    exact writeCommand_performed h
  cases outside : configSlot idx
  case false =>
    rw [writeSlot_put command (.inr outside), putConfig_of_not_configSlot outside] at h
    cases h
    exact .ignored _
  case true =>
    cases busy : s.status.busy
    case true =>
      rw [writeSlot_dropped busy outside] at h
      cases h
      exact .dropped _
    case false =>
      rw [writeSlot_put command (.inl busy)] at h
      cases h
      exact putConfig_performed busy idx v

theorem writeElement_performed (a : HostData) (i : Nat) (b : Byte) :
    Performed s (.writeb a i b) (writeElement a i b s) := by
  by_cases beyond : s.arraySize a.array ≤ i
  · rw [writeElement_beyond b beyond]
    exact .ignored _
  have inside := Nat.not_le.mp beyond
  cases busy : s.status.busy
  case true =>
    rw [writeElement_dropped b inside busy]
    exact .dropped _
  case false =>
    rw [writeElement_put b inside busy]
    exact .stored a i b busy

theorem hexlinkStep_performed (h : hexlinkStep s = .next t) : Performed s .hexlink t := by
  cases enabled : s.stepEnabled
  case false =>
    rw [hexlinkStep_waits enabled] at h
    cases h
    exact .ignored _
  case true =>
    cases pending : s.pending with
    | error e =>
      simp only [hexlinkStep, enabled, pending, if_true] at h
      cases h
    | ok i =>
      cases runs : runsInSteps i
      case false =>
        simp only [hexlinkStep, enabled, pending, runs, if_true, Bool.false_eq_true, if_false] at h
        cases h
      case true =>
        rw [hexlinkStep_pending enabled pending runs] at h
        exact .ran enabled pending (exec_ran runs h)

theorem perform_performed {a : Action} (h : perform a s = .next t) : Performed s a t := by
  cases a with
  | read idx =>
    cases h
    exact .observed _ _ _ _
  | write idx v => exact writeSlot_performed h
  | readb arr i =>
    cases h
    exact .observed _ _ _ s.unseen
  | writeb arr i b =>
    cases h
    exact writeElement_performed arr i b
  | tx r =>
    cases h
    unfold respondTx
    split
    · exact .answered r
    · exact .ignored _
  | rx d =>
    cases h
    unfold deliverRx
    split
    · exact .delivered d
    · exact .ignored _
  | hexlink => exact hexlinkStep_performed h
  | rst =>
    cases h
    exact .reset

/-- What a step can have done: the first action listed, or a HEXLINK step. -/
theorem step_performed (h : step s = .next t) :
    ∃ a rest, Performed (s.popped rest) a t ∧ (s.actions = a :: rest ∨ a = .hexlink) := by
  cases act : s.actions with
  | nil =>
    have unlisted : s.popped [] = s := by rw [State.popped, ← act]
    rw [step_hexlink act] at h
    exact ⟨.hexlink, [], by rw [unlisted]; exact hexlinkStep_performed h, .inr rfl⟩
  | cons a rest =>
    rw [step_action act] at h
    exact ⟨a, rest, perform_performed h, .inl rfl⟩

/-! ### What every action keeps -/

variable {a : Action}

theorem Performed.canonical (h : Performed s a t) (c : s.Canonical) : t.Canonical := by
  cases h with
  | observed | dropped | nop | illegal | accepted | configured | invalidated | answered | delivered =>
    exact { c with }
  | ignored => exact c
  | softReset =>
    exact { src := c.src, pkt := c.pkt, recData := rfl, blkData := rfl, txr := rfl, rxr := rfl
            rxbuf := rfl, buf := rfl, pendData := rfl }
  | stored arr i b =>
    cases arr with
    | src => exact { c with src := Mem.write_wf i b c.src }
    | pkt => exact { c with pkt := Mem.write_wf i b c.pkt }
  | ran _ _ ran => exact ran.canonical { c with }
  | reset =>
    exact { src := Mem.ofBytes_wf _, pkt := Mem.ofBytes_wf _, recData := rfl, blkData := rfl, txr := rfl
            rxr := rfl, rxbuf := rfl, buf := rfl, pendData := rfl }

theorem Performed.params (h : Performed s a t) : t.params = s.params := by
  cases h with
  | stored arr => cases arr <;> rfl
  | ran _ _ ran => exact ran.params
  | _ => rfl

/-- A command runs against fixed inputs (R73, R248). -/
theorem Performed.inputs (h : Performed s a t) (busy : s.status.busy = true) (running : a ≠ .rst) :
    t.cfg = s.cfg ∧ t.src = s.src ∧ t.pkt = s.pkt := by
  cases h with
  | configured _ _ idle | invalidated _ _ idle | stored _ _ _ idle =>
    exact Bool.noConfusion (busy.symm.trans idle)
  | ran _ _ ran => exact ⟨ran.cfg, ran.src, ran.pkt⟩
  | reset => exact absurd rfl running
  | _ => exact ⟨rfl, rfl, rfl⟩

/-! ### Who sets a flag (R25) -/

theorem Performed.validated (h : Performed s a t) (clear : s.status.validated = false)
    (set : t.status.validated = true) : s.status.busy = true ∧ s.pendingCmd = 2 := by
  cases h with
  | ran enabled pending ran =>
    obtain before | rfl := ran.validated set
    · exact Bool.noConfusion (clear.symm.trans before)
    · exact ⟨(s.stepEnabled_iff.mp enabled).1,
        opc_of_decodeCommand _ (0x00000002, .validate) (by decide) pending⟩
  | stored arr =>
    cases arr with
    | src => cases set
    | pkt => exact Bool.noConfusion (clear.symm.trans set)
  | softReset | invalidated | reset => cases set
  | _ => exact Bool.noConfusion (clear.symm.trans set)

theorem Performed.asmActive (h : Performed s a t) (clear : s.status.asmActive = false)
    (set : t.status.asmActive = true) :
    s.status.busy = true ∧ s.pendingCmd = 3 ∧ s.status.validated = true := by
  cases h with
  | ran enabled pending ran =>
    obtain before | ⟨rfl, validated⟩ := ran.asmActive set
    · exact Bool.noConfusion (clear.symm.trans before)
    · exact ⟨(s.stepEnabled_iff.mp enabled).1,
        opc_of_decodeCommand _ (0x00000003, .startAssembly) (by decide) pending, validated⟩
  | stored arr =>
    cases arr with
    | src => cases set
    | pkt => exact Bool.noConfusion (clear.symm.trans set)
  | softReset | illegal | invalidated | reset => cases set
  | _ => exact Bool.noConfusion (clear.symm.trans set)

theorem Performed.xferDone (h : Performed s a t) (clear : s.status.xferDone = false)
    (set : t.status.xferDone = true) :
    s.status.busy = true ∧ (s.pendingCmd = 5 ∨ s.pendingCmd = 6) := by
  cases h with
  | ran enabled pending ran =>
    refine ⟨(s.stepEnabled_iff.mp enabled).1, ?_⟩
    obtain before | rfl | rfl := ran.xferDone set
    · exact Bool.noConfusion (clear.symm.trans before)
    · exact .inl (opc_of_decodeCommand _ (0x00000005, .frame) (by decide) pending)
    · exact .inr (opc_of_decodeCommand _ (0x00000006, .unframe) (by decide) pending)
  | stored arr => cases arr <;> exact Bool.noConfusion (clear.symm.trans set)
  | softReset | reset => cases set
  | _ => exact Bool.noConfusion (clear.symm.trans set)

theorem Performed.busy (h : Performed s a t) (clear : s.status.busy = false)
    (set : t.status.busy = true) : ∃ w, a = .write Slot.CMD w ∧ 1 ≤ w.toNat ∧ w.toNat ≤ 8 := by
  cases h with
  | accepted w lower upper => exact ⟨w, rfl, lower, upper⟩
  | ran enabled => exact Bool.noConfusion (clear.symm.trans (s.stepEnabled_iff.mp enabled).1)
  | stored arr => cases arr <;> exact Bool.noConfusion (clear.symm.trans set)
  | softReset | illegal | reset => cases set
  | _ => exact Bool.noConfusion (clear.symm.trans set)

end

end Sys2Proof.Machine

namespace Sys2Proof

open Machine

/-- Settles O58: every action keeps the arrays canonical, and taking it off the list touches none. -/
theorem everyStepKeepsArraysCanonical : Obligations.EveryStepKeepsArraysCanonical := by
  unfold Obligations.EveryStepKeepsArraysCanonical
  intro s t canonical run
  obtain ⟨a, rest, performed, -⟩ := step_performed run
  have listed : (s.popped rest).Canonical := { s.canonical_iff.mp canonical with }
  exact t.canonical_iff.mpr (performed.canonical listed)

/-- Settles O59: each flag by what an action can have done to it. -/
theorem flagsAreSetOnlyByTheirCommands : Obligations.FlagsAreSetOnlyByTheirCommands := by
  unfold Obligations.FlagsAreSetOnlyByTheirCommands
  intro s t run
  obtain ⟨a, rest, performed, act⟩ := step_performed run
  refine ⟨performed.validated, performed.asmActive, performed.xferDone, fun clear set => ?_⟩
  obtain ⟨w, rfl, lower, upper⟩ := performed.busy clear set
  exact ⟨w, rest, act.resolve_right nofun, lower, upper⟩

/-- Settles O60: only the host's writes with BUSY = 0 and the reset input change an input, and nothing
changes the parameters. -/
theorem commandsRunAgainstFixedInputs : Obligations.CommandsRunAgainstFixedInputs := by
  unfold Obligations.CommandsRunAgainstFixedInputs
  intro s t run
  obtain ⟨a, rest, performed, act⟩ := step_performed run
  refine ⟨performed.params, fun busy noReset => performed.inputs busy ?_⟩
  rintro rfl
  exact noReset rest (act.resolve_right nofun)

end Sys2Proof
